-- ==== Sys2Proof/Word.lean ====
section
/-! DEFINITION. The CCU's word types (00_scope.md R8: a byte is 8 bits, every register value is a 32-bit
word; 20_memory.md R70: offsets inside the window are 12-bit byte offsets). Bit 0 is the least significant bit. -/

namespace Sys2Proof

/-- A register value or a command word (00_scope.md R8). -/
abbrev Word := BitVec 32

/-- One byte of a buffer (00_scope.md R8, R11). -/
abbrev Byte := BitVec 8

/-- A byte offset inside the 4096-byte register window (20_memory.md R70). -/
abbrev Offset := BitVec 12

end Sys2Proof
end

