-- ==== Sys2Proof/Config.lean ====
section
/-! DEFINITION. The parameters of 00_scope.md R7, and the two OPEN parameters of 92_eei_decisions.md as constants
without a body: nothing can be proved about where the window or the interrupt line lies (log entry 7). -/

namespace Sys2Proof.Config

/-- Bytes of the `TEXT_IN` buffer, the largest legal `IN_LEN` (R7). -/
def nBuf : Nat := 1024

/-- Bytes of the `KEY` buffer, the largest legal `KEY_LEN` (R7). -/
def nKey : Nat := 256

/-- The largest Hill dimension (R7). -/
def nMax : Nat := 4

/-- Bytes of the `TEXT_OUT` buffer, `N_BUF + N_MAX` (R7). -/
def nOut : Nat := nBuf + nMax

/-- Size of the Vigenère and Hill alphabet (R7, 41_normalizer.md R132). -/
def na : Nat := 26

/-- Size of the Playfair alphabet (R7, 41_normalizer.md R133). -/
def np : Nat := 25

/-- The filler symbol 'X' (R7, R11). -/
def fill : Byte := 0x58

/-- The reset value of `CTRL.KEY_MIN` (R7, 10_state.md R25). -/
def keyMinReset : BitVec 8 := 12

/-- OPEN (decision D35): which 4096-byte page of the host's physical address space holds the window. -/
opaque ccuPage : Nat

/-- `CCU_BASE`, 4096-byte aligned because it is a page's first address (R7, 20_memory.md R70). -/
def ccuBase : Nat := 4096 * ccuPage

/-- OPEN (decision D28): the number of the platform interrupt line that `irq` drives (60_exceptions.md R252). -/
opaque ccuIrqLine : Nat

end Sys2Proof.Config
end

