-- ==== Sys2Proof/Syntax.lean ====
section
/-! DEFINITION. The syntax: the eight commands (30_encoding.md R92), the host's accesses and the turns of the two
agents and the platform (20_memory.md R72, R73, R79; 40_command.md R112, R113, R123; 70_reset_and_hazards.md R270),
the registers of the map (20_memory.md R71) and the host notation (30_encoding.md R97). -/

namespace Sys2Proof

/-- One constructor per row of spec/opcode_table.json (30_encoding.md R92). Operands are implicit (R93). -/
inductive Instr where
  | vigEnc
  | vigDec
  | pfBuild
  | pfEnc
  | pfDec
  | hillEnc
  | hillDec
  | hillInv
  deriving DecidableEq, Repr

/-- A host access at a window offset: `MemRead(off, width)` or `MemWrite(off, width, v)`, the width in bytes.
Only width 4 at a multiple of 4 is performed on a register (20_memory.md R72, R73); the value of a malformed
write is never used, so it is kept as a word whatever the width (log entry 8). -/
inductive Access where
  | read (off : Offset) (width : Nat)
  | write (off : Offset) (width : Nat) (v : Word)
  deriving DecidableEq, Repr

/-- What happens next, in the one total order of 20_memory.md R79: a host access, the platform asserting `rst`
(70_reset_and_hazards.md R270), or the command sequencer's turn (40_command.md R112, R113). -/
inductive Turn where
  | host (a : Access)
  | rst
  | sequencer
  deriving DecidableEq, Repr

/-- The registers and buffer words of the register map (20_memory.md R71). -/
inductive Reg where
  | id
  | ctrl
  | status
  | cmd
  | inLen
  | keyLen
  | outLen
  | errpos
  | hillDim
  | hillDet
  | hillDinv
  | mat (i j : Fin 4)
  | inv (i j : Fin 4)
  | sq (k : Fin 25)
  | key (w : Fin 64)
  | textIn (w : Fin 256)
  | textOut (w : Fin 257)
  deriving DecidableEq, Repr

/-- The operations of the host notation (30_encoding.md R97), register operands resolved to their offsets and
labels to line numbers of the program; and `copyout` (R98), whose writes carry what its own reads returned, so that it
has no expansion into the others before it runs. -/
inductive HostOp where
  | wr (off : Offset) (v : Word)
  | rd (off : Offset)
  | poll (off : Offset) (mask value : Word)
  | bz (off : Offset) (mask : Word) (line : Nat)
  | halt
  | copyout
  deriving DecidableEq, Repr

/-- The next bus transaction of a `copyout` (30_encoding.md R98): the read of `OUT_LEN` (log entry 18), the read of word
`w` of `TEXT_OUT`, the write of the value it returned, or the write of `IN_LEN`. `outLen` is the value that the first
read returned. -/
inductive CopyOut where
  | readLen
  | readWord (outLen : Word) (w : Nat)
  | writeWord (outLen : Word) (w : Nat) (value : Word)
  | writeLen (outLen : Word)
  deriving DecidableEq, Repr

/-- Where a host program stands: its line, and how far a `copyout` on that line has come. -/
structure HostPos where
  line : Nat
  copy : CopyOut := .readLen
  deriving DecidableEq, Repr

end Sys2Proof
end

