-- ==== Sys2Proof/WellFormed.lean ====
section
/-! DEFINITION. What the spec calls well formed: a host access (20_memory.md R72), a command word
(30_encoding.md R90, R95) and a host operation (R97). A command of `Instr` has no operand field that could be
ill formed (R93). -/

namespace Sys2Proof

/-- A command carries no operands (30_encoding.md R93), so every command is well formed. -/
def Instr.wf : Instr → Bool
  | .vigEnc => true
  | .vigDec => true
  | .pfBuild => true
  | .pfEnc => true
  | .pfDec => true
  | .hillEnc => true
  | .hillDec => true
  | .hillInv => true

/-- A 32-bit aligned access (20_memory.md R72). -/
def Access.wf : Access → Bool
  | .read off width => width == 4 && off.toNat % 4 == 0
  | .write off width _ => width == 4 && off.toNat % 4 == 0

/-- A legal command word, read off the field tables of 30_encoding.md R90 and R92: `RSV = 0` and an assigned
`FN` of an assigned `ENG`. The decoder is written from the opcode map instead; that the two agree is a statement. -/
def legalCommandWord (w : Word) : Bool :=
  let rsv := w.toNat / 256
  let eng := w.toNat / 16 % 16
  let fn := w.toNat % 16
  rsv == 0 &&
    ((eng == 0 && (fn == 1 || fn == 2)) ||
     (eng == 1 && (fn == 0 || fn == 1 || fn == 2)) ||
     (eng == 2 && (fn == 0 || fn == 1 || fn == 2)))

/-- A host operation names a word offset (20_memory.md R71 lists multiples of 4 only), and a branch stays inside
a program of `lines` lines (30_encoding.md R97). -/
def HostOp.wf (lines : Nat) : HostOp → Bool
  | .wr off _ => off.toNat % 4 == 0
  | .rd off => off.toNat % 4 == 0
  | .poll off _ _ => off.toNat % 4 == 0
  | .bz off _ line => off.toNat % 4 == 0 && line < lines
  | .halt => true
  | .copyout => true

end Sys2Proof
end

