-- ==== Sys2Proof/Decode.lean ====
section
/-! DEFINITION. The decoder of command words, total on every 32-bit word and refusing by name (30_encoding.md R91,
R95, R96), and after it the encoder (R90, R92). -/

namespace Sys2Proof

/-- Why a word is no command (30_encoding.md R95): a nonzero reserved field, or an opcode the map does not list. -/
inductive IllegalWord where
  | reservedFieldNotZero
  | unassignedOpcode
  deriving DecidableEq, Repr

/-- The complete opcode map (30_encoding.md R92), by its `OP` column. -/
def opcodeMap : List (BitVec 8 × Instr) :=
  [ (0x01, .vigEnc), (0x02, .vigDec),
    (0x10, .pfBuild), (0x11, .pfEnc), (0x12, .pfDec),
    (0x20, .hillEnc), (0x21, .hillDec), (0x22, .hillInv) ]

/-- Decoding in the order of 30_encoding.md R91: the reserved field first, then the opcode. -/
def decode (w : Word) : Except IllegalWord Instr :=
  if w.extractLsb' 8 24 ≠ 0#24 then .error .reservedFieldNotZero
  else
    match opcodeMap.lookup (w.extractLsb' 0 8) with
    | some i => .ok i
    | none => .error .unassignedOpcode

/-- The `ENG` column of 30_encoding.md R92. -/
def Instr.eng : Instr → BitVec 4
  | .vigEnc => 0
  | .vigDec => 0
  | .pfBuild => 1
  | .pfEnc => 1
  | .pfDec => 1
  | .hillEnc => 2
  | .hillDec => 2
  | .hillInv => 2

/-- The `FN` column of 30_encoding.md R92. -/
def Instr.fn : Instr → BitVec 4
  | .vigEnc => 1
  | .vigDec => 2
  | .pfBuild => 0
  | .pfEnc => 1
  | .pfDec => 2
  | .hillEnc => 0
  | .hillDec => 1
  | .hillInv => 2

/-- The command word `{RSV = 0, ENG, FN}` (30_encoding.md R90). -/
def encode (i : Instr) : Word := 0#24 ++ i.eng ++ i.fn

/-- The instruction the decoder reads from an instruction whose `nbits` low bits are those of `w`. A command is
one 32-bit word (30_encoding.md R90), so a value that does not fit 32 bits is no command. -/
def decodeTableWord (nbits w : Nat) : Option Instr :=
  if w % 2 ^ nbits < 2 ^ 32 then
    match decode (BitVec.ofNat 32 (w % 2 ^ nbits)) with
    | .ok i => some i
    | .error _ => none
  else none

end Sys2Proof
end

