-- ==== Sys2Proof/Machine/State.lean ====
section
/-! DEFINITION. The architectural state of the CCU, exactly the elements of 10_state.md R20, and beside it the two
fields that stand for its environment (log entries 1 and 3). Reset values: 10_state.md R51. -/

namespace Sys2Proof.Machine

/-- The bytes of the three buffers, keyed by window offset (20_memory.md R75), in the canonical form `Memory.wf`:
offsets strictly rising, no entry equal to what an unlisted byte reads as. -/
abbrev Memory := List Host.Cell

/-- The architectural state (10_state.md R20), then the environment. -/
structure State where
  /-- `CTRL.IE` (R25). -/
  ie : Bool
  /-- `CTRL.KEY_MIN` (R25). -/
  keyMin : BitVec 8
  /-- `STATUS.BUSY` (R28). -/
  busy : Bool
  /-- `STATUS.DONE` (R29). -/
  done : Bool
  /-- `STATUS.ERR` (R30). -/
  err : Bool
  /-- `STATUS.ERRCODE` (R30). -/
  errcode : BitVec 4
  /-- `STATUS.WERR` (R32). -/
  werr : Bool
  /-- `STATUS.AERR` (R33). -/
  aerr : Bool
  /-- `CMD_LAST` (R35). -/
  cmdLast : Word
  /-- `IN_LEN.LEN` (R36). -/
  inLen : BitVec 16
  /-- `KEY_LEN.LEN` (R37). -/
  keyLen : BitVec 16
  /-- `OUT_LEN.LEN` (R38). -/
  outLen : BitVec 16
  /-- `ERRPOS` (R39). -/
  errpos : Word
  /-- `HILL_DIM.ROWS` (R40). -/
  rows : BitVec 4
  /-- `HILL_DIM.COLS` (R40). -/
  cols : BitVec 4
  /-- `HILL_DET.D` (R41). -/
  hillDet : BitVec 5
  /-- `HILL_DINV.DINV` (R42). -/
  hillDinv : BitVec 5
  /-- `MAT[i][j]` at index `4·i + j` (R43). -/
  mat : Vector Word 16
  /-- `INV[i][j]` at index `4·i + j` (R44). -/
  inv : Vector (BitVec 5) 16
  /-- `SQ[k]` (R45). -/
  sq : Vector Byte 25
  /-- `KEY`, `TEXT_IN` and `TEXT_OUT` (R46 to R48). -/
  mem : Memory
  /-- `PEND`, hidden (R49). -/
  pend : Word
  /-- Not the CCU's: the word the latest host read returned (log entry 3). -/
  rdata : Word
  /-- Not the CCU's: the turns still to come, the first one next (log entry 1). -/
  turns : List Turn
  deriving DecidableEq, Repr

/-- No event stops the CCU: a command error is an error commit, a next state (60_exceptions.md R240, R250), and
no access faults (20_memory.md R73, R74). The type has no constructor; that is safe. -/
inductive Fault where
  deriving DecidableEq, Repr

/-- Why a step has no meaning. -/
inductive Refusal where
  /-- Raised by an arm of `exec` whose instruction has no meaning yet (no arm, at present). Safe: the model stops. -/
  | notModelled (mnemonic : String)
  deriving DecidableEq, Repr

/-- The state right after reset (10_state.md R51, 70_reset_and_hazards.md R271). The environment's two fields,
which no rule gives a reset value, are empty and 0 (log entries 1 and 3). -/
def State.reset : State where
  ie := false
  keyMin := Config.keyMinReset
  busy := false
  done := false
  err := false
  errcode := 0
  werr := false
  aerr := false
  cmdLast := 0
  inLen := 0
  keyLen := 0
  outLen := 0
  errpos := 0xFFFFFFFF
  rows := 2
  cols := 2
  hillDet := 0
  hillDinv := 0
  mat := Vector.replicate 16 0
  inv := Vector.replicate 16 0
  sq := Vector.replicate 25 0
  mem := []
  pend := 0
  rdata := 0
  turns := []

end Sys2Proof.Machine
end

