-- ==== Sys2Proof/Machine/Ops.lean ====
section
/-! DEFINITION. The shared operations: the buffers' byte memory (10_state.md R46 to R48, 20_memory.md R75), the
result of a command (40_command.md R122), acceptance (R110), the two commits (R114, R115), clearing an error report
(60_exceptions.md R251) and reset (70_reset_and_hazards.md R271). -/

namespace Sys2Proof.Machine

/-! ## Byte memory -/

/-- What a byte that the memory does not list reads as: every buffer byte resets to 0x00 (10_state.md R51). -/
def Memory.unlisted : Byte := 0

/-- The canonical form: offsets strictly rising, no entry equal to what an unlisted byte reads as. -/
abbrev Memory.wf (m : Memory) : Prop :=
  m.Pairwise (fun c d => c.1 < d.1) ∧ ∀ c ∈ m, c.2 ≠ Memory.unlisted

/-- The byte at offset `a`. -/
def Memory.read : Memory → Nat → Byte
  | [], _ => Memory.unlisted
  | c :: m, a => if c.1 = a then c.2 else Memory.read m a

/-- Put a cell before the first cell with a larger offset. -/
def Memory.insertCell (c : Host.Cell) : Memory → Memory
  | [] => [c]
  | d :: m => if c.1 < d.1 then c :: d :: m else d :: Memory.insertCell c m

/-- Remove the `n` bytes from offset `lo`: all of them then read as 0x00. -/
def Memory.clear (m : Memory) (lo n : Nat) : Memory :=
  m.filter fun c => !(decide (lo ≤ c.1) && decide (c.1 < lo + n))

/-- Store one byte; storing what an unlisted byte reads as leaves no entry. -/
def Memory.write (m : Memory) (a : Nat) (v : Byte) : Memory :=
  if v = Memory.unlisted then Memory.clear m a 1
  else Memory.insertCell (a, v) (Memory.clear m a 1)

/-- Store bytes one after the other at rising offsets. -/
def Memory.writeBytes : Memory → Nat → List Byte → Memory
  | m, _, [] => m
  | m, a, b :: bs => Memory.writeBytes (Memory.write m a b) (a + 1) bs

/-- The four bytes of a word, byte 0 in bits 7:0 (20_memory.md R75). -/
def wordBytes (v : Word) : List Byte :=
  [v.extractLsb' 0 8, v.extractLsb' 8 8, v.extractLsb' 16 8, v.extractLsb' 24 8]

/-- The word at offset `a`: `{byte 3, byte 2, byte 1, byte 0}` (20_memory.md R75). -/
def Memory.readWord (m : Memory) (a : Nat) : Word :=
  Memory.read m (a + 3) ++ Memory.read m (a + 2) ++ Memory.read m (a + 1) ++ Memory.read m a

/-- Store a word little-endian at offset `a` (20_memory.md R75). -/
def Memory.writeWord (m : Memory) (a : Nat) (v : Word) : Memory :=
  Memory.writeBytes m a (wordBytes v)

/-- Window offset of `KEY[0]` (20_memory.md R75). -/
def keyBase : Nat := 0x200

/-- Window offset of `TIN[0]` (20_memory.md R75). -/
def textInBase : Nat := 0x400

/-- Window offset of `TOUT[0]` (20_memory.md R75). -/
def textOutBase : Nat := 0x800

/-- The buffer writes of `TextOut(out)`: its bytes from `TOUT[0]`, and 0x00 in the rest of the buffer
(40_command.md R116). -/
def Memory.writeTextOut (m : Memory) (out : List Byte) : Memory :=
  Memory.writeBytes (Memory.clear m textOutBase Config.nOut) textOutBase out

/-- The offsets that hold a buffer byte: `KEY`, `TEXT_IN` and `TEXT_OUT` (20_memory.md R71). -/
def inBuffer (a : Nat) : Bool :=
  (decide (keyBase ≤ a) && decide (a < keyBase + Config.nKey)) ||
  (decide (textInBase ≤ a) && decide (a < textInBase + Config.nBuf)) ||
  (decide (textOutBase ≤ a) && decide (a < textOutBase + Config.nOut))

/-! ## The result of a command -/

/-- The errors (60_exceptions.md R241). -/
inductive ErrorKind where
  | invalidKey
  | nonInvertibleKey
  | invalidInput
  | invalidState
  | illegalCommand
  deriving DecidableEq, Repr

/-- The code in `STATUS.ERRCODE` (60_exceptions.md R241). -/
def ErrorKind.code : ErrorKind → BitVec 4
  | .invalidKey => 1
  | .nonInvertibleKey => 2
  | .invalidInput => 3
  | .invalidState => 4
  | .illegalCommand => 5

/-- `Err(E, pos)`: the error and the byte index that caused it, or none (40_command.md R122). -/
structure CmdError where
  kind : ErrorKind
  pos : Option Nat
  deriving DecidableEq, Repr

/-- The evaluation of a command or of a part of it: `raise` is `Except.error` (40_command.md R122). -/
abbrev Eval (α : Type) := Except CmdError α

/-- `raise E(pos)` (00_scope.md R10). -/
def raise {α : Type} (kind : ErrorKind) (pos : Option Nat) : Eval α := .error ⟨kind, pos⟩

/-- The values of `InvWrites` (44_hill.md R212). -/
structure InverseWrites where
  det : BitVec 5
  dinv : BitVec 5
  inv : Vector (BitVec 5) 16
  deriving DecidableEq, Repr

/-- The writes `W` of `Ok(W)` (40_command.md R122), by the three groups of result elements that the "writes on
success" column of 30_encoding.md R93 is made of: `TextOut(s)`, the 25 cells, and `InvWrites` (log entry 6). -/
structure Writes where
  text : Option (List Byte) := none
  square : Option (Vector Byte 25) := none
  inverse : Option InverseWrites := none
  deriving DecidableEq, Repr

/-! ## Lifecycle -/

/-- Acceptance of the word `v` as a command (40_command.md R110). -/
def accept (v : Word) (s : State) : State :=
  { s with
    cmdLast := v
    pend := v
    busy := true
    done := false
    err := false
    errcode := 0
    errpos := 0xFFFFFFFF }

/-- A rejected write sets `WERR` and changes nothing else (40_command.md R111). -/
def rejectWrite (s : State) : State := { s with werr := true }

/-- Successful commit (40_command.md R114, R116; 44_hill.md R212). -/
def commitOk (w : Writes) (s : State) : State :=
  { s with
    mem := match w.text with
      | some out => Memory.writeTextOut s.mem out
      | none => s.mem
    outLen := match w.text with
      | some out => BitVec.ofNat 16 out.length
      | none => s.outLen
    sq := match w.square with
      | some cells => cells
      | none => s.sq
    hillDet := match w.inverse with
      | some v => v.det
      | none => s.hillDet
    hillDinv := match w.inverse with
      | some v => v.dinv
      | none => s.hillDinv
    inv := match w.inverse with
      | some v => v.inv
      | none => s.inv
    done := true
    busy := false }

/-- `ERRPOS` for a recorded position (40_command.md R115, 60_exceptions.md R247). -/
def errposWord : Option Nat → Word
  | some p => BitVec.ofNat 32 p
  | none => 0xFFFFFFFF

/-- Error entry: what an error commit saves and where (40_command.md R115, 60_exceptions.md R250). -/
def errorEntry (e : CmdError) (s : State) : State :=
  { s with
    outLen := 0
    errpos := errposWord e.pos
    errcode := e.kind.code
    err := true
    done := true
    busy := false }

/-- Error return, way (a): a host write of 1 to bit 2 of `STATUS` clears `ERR` and `ERRCODE`
(60_exceptions.md R251, 10_state.md R30). Way (b) is `accept`. -/
def clearError (s : State) : State := { s with err := false, errcode := 0 }

/-- Commit of a result by R114 or R115 (40_command.md R112). -/
def commit (r : Eval Writes) (s : State) : State :=
  match r with
  | .ok w => commitOk w s
  | .error e => errorEntry e s

/-- A completion step's outcome: the commit is one atomic step and always leads to a next state
(40_command.md R112, 20_memory.md R77). -/
def complete (r : Eval Writes) (s : State) : Host.Outcome State Fault Refusal := .next (commit r s)

/-- The completion of a word that decodes to no command (40_command.md R117, 60_exceptions.md R246). -/
def completeIllegal (s : State) : Host.Outcome State Fault Refusal :=
  complete (raise .illegalCommand none) s

/-- Reset: every element takes its reset value and a pending command is discarded (70_reset_and_hazards.md R271,
40_command.md R120). The environment is not reset: the turns still to come and the word last read stay. -/
def resetCcu (s : State) : State := { State.reset with rdata := s.rdata, turns := s.turns }

/-- `s` with the command word `w` pending and the sequencer's turn next. A command comes to be pending only by
acceptance, so acceptance is what this takes (log entry 4). -/
def placeCommand (w : Word) (s : State) : State :=
  { accept w s with turns := .sequencer :: s.turns }

end Sys2Proof.Machine
end

