-- ==== Sys2Proof/Machine/Operands.lean ====
section
/-! DEFINITION. Every operand form of the commands (30_encoding.md R93, R94): lengths, key and text bytes, the Hill
dimension fields and the matrix elements; the result cells as the host reads them; and the length checks of
40_command.md R121. -/

namespace Sys2Proof.Machine

/-- `zext_16(KEY_LEN)` (30_encoding.md R94). -/
def State.keyLength (s : State) : Nat := s.keyLen.toNat

/-- `zext_16(IN_LEN)` (30_encoding.md R94). -/
def State.inLength (s : State) : Nat := s.inLen.toNat

/-- `KEY[j]` (10_state.md R46). -/
def State.keyByte (s : State) (j : Nat) : Byte := Memory.read s.mem (keyBase + j)

/-- `TIN[i]` (10_state.md R47). -/
def State.textByte (s : State) (i : Nat) : Byte := Memory.read s.mem (textInBase + i)

/-- `TOUT[i]` (10_state.md R48). -/
def State.outByte (s : State) (i : Nat) : Byte := Memory.read s.mem (textOutBase + i)

/-- `KEY[0 .. n)`. -/
def State.keyBytes (s : State) (n : Nat) : List Byte := (List.range n).map s.keyByte

/-- `TIN[0 .. n)`. -/
def State.textBytes (s : State) (n : Nat) : List Byte := (List.range n).map s.textByte

/-- `TOUT[0 .. n)`. -/
def State.outBytes (s : State) (n : Nat) : List Byte := (List.range n).map s.outByte

/-- `MAT[i][j]` as stored; elements outside the 4 × 4 array do not exist and are never asked for (10_state.md R43). -/
def State.matWord (s : State) (i j : Nat) : Word := (s.mat[4 * i + j]?).getD 0

/-- The key matrix `K[i][j] = sext_32(MAT[i][j])` (30_encoding.md R94, 44_hill.md R201). -/
def State.keyMatrix (s : State) (i j : Nat) : Int := (s.matWord i j).toInt

/-- `INV[i][j]` as stored (10_state.md R44). -/
def State.invCell (s : State) (i j : Nat) : BitVec 5 := (s.inv[4 * i + j]?).getD 0

/-- `SQ[k]` as stored (10_state.md R45). -/
def State.sqCell (s : State) (k : Nat) : Byte := (s.sq[k]?).getD 0

/-- `CheckKeyLen()` (40_command.md R121). -/
def checkKeyLen (s : State) : Eval Unit :=
  if Config.nKey < s.keyLength then raise .invalidKey none else .ok ()

/-- `CheckInLen()` (40_command.md R121). -/
def checkInLen (s : State) : Eval Unit :=
  if Config.nBuf < s.inLength then raise .invalidInput none else .ok ()

end Sys2Proof.Machine
end

