-- ==== Sys2Proof/Machine/Flags.lean ====
section
/-! DEFINITION. `STATUS` and `CTRL`: the fields that are functions of the state (10_state.md R31, R34), the words
the host reads (R25, R27, R40) and what a write does to their fields (R26, R29, R30, R32, R33). -/

namespace Sys2Proof.Machine

/-- The level of the output `irq`: `CTRL.IE AND STATUS.DONE` (10_state.md R34, 60_exceptions.md R252). -/
def State.irq (s : State) : Bool := s.ie && s.done

/-- The level the CCU drives on platform interrupt line `n` (60_exceptions.md R252; log entry 7). -/
def State.irqLine (s : State) (n : Nat) : Bool := (n == Config.ccuIrqLine) && s.irq

/-- `STATUS.KEYOK`: `KEY_LEN ≥ CTRL.KEY_MIN` (10_state.md R31). -/
def State.keyOk (s : State) : Bool := decide (s.keyMin.toNat ≤ s.keyLen.toNat)

/-- The word a read of `CTRL` returns; `SRST` and the reserved bits read 0 (10_state.md R25). -/
def ctrlWord (s : State) : Word := 0#16 ++ s.keyMin ++ 0#7 ++ BitVec.ofBool s.ie

/-- The word a read of `STATUS` returns (10_state.md R27). -/
def statusWord (s : State) : Word :=
  0#20 ++ BitVec.ofBool s.irq ++ BitVec.ofBool s.aerr ++ BitVec.ofBool s.werr ++ BitVec.ofBool s.keyOk ++
    s.errcode ++ 0#1 ++ BitVec.ofBool s.err ++ BitVec.ofBool s.done ++ BitVec.ofBool s.busy

/-- The word a read of `HILL_DIM` returns (10_state.md R40). -/
def hillDimWord (s : State) : Word := 0#20 ++ s.cols ++ 0#4 ++ s.rows

/-- A host write to `CTRL`, accepted whether or not `BUSY` is 1: reset when `SRST` is 1, else `IE` and `KEY_MIN`
(10_state.md R25, R26). -/
def writeCtrl (v : Word) (s : State) : State :=
  if v[1] then resetCcu s
  else { s with ie := v[0], keyMin := v.extractLsb' 8 8 }

/-- A host write to `STATUS`, accepted whether or not `BUSY` is 1: write 1 to clear `DONE`, `ERR` (with
`ERRCODE`), `WERR` and `AERR` (10_state.md R27, R29, R30, R32, R33). -/
def writeStatus (v : Word) (s : State) : State :=
  let s1 := if v[1] then { s with done := false } else s
  let s2 := if v[2] then clearError s1 else s1
  let s3 := if v[9] then { s2 with werr := false } else s2
  if v[10] then { s3 with aerr := false } else s3

end Sys2Proof.Machine
end

