-- ==== Sys2Proof/Machine/Bus.lean ====
section
/-! DEFINITION. The host's accesses to the register window (20_memory.md): the register map (R71), reads (R72, R78),
writes with acceptance and rejection (40_command.md R110, R111), malformed accesses (R73), and the window's place in
the host's physical address space (R70). -/

namespace Sys2Proof.Machine

/-- The register map (20_memory.md R71), from the offset's word index; `none` is an unmapped offset. -/
def regAt (off : Offset) : Option Reg :=
  let w := off.toNat / 4
  if w < 0x10 then
    match w with
    | 0x0 => some .id
    | 0x1 => some .ctrl
    | 0x2 => some .status
    | 0x3 => some .cmd
    | 0x4 => some .inLen
    | 0x5 => some .keyLen
    | 0x6 => some .outLen
    | 0x7 => some .errpos
    | 0x8 => some .hillDim
    | 0x9 => some .hillDet
    | 0xA => some .hillDinv
    | _ => none
  else if w < 0x20 then some (.mat (Fin.ofNat 4 ((w - 0x10) / 4)) (Fin.ofNat 4 ((w - 0x10) % 4)))
  else if w < 0x30 then some (.inv (Fin.ofNat 4 ((w - 0x20) / 4)) (Fin.ofNat 4 ((w - 0x20) % 4)))
  else if w < 0x40 then none
  else if w < 0x59 then some (.sq (Fin.ofNat 25 (w - 0x40)))
  else if w < 0x80 then none
  else if w < 0xC0 then some (.key (Fin.ofNat 64 (w - 0x80)))
  else if w < 0x100 then none
  else if w < 0x200 then some (.textIn (Fin.ofNat 256 (w - 0x100)))
  else if w < 0x301 then some (.textOut (Fin.ofNat 257 (w - 0x200)))
  else none

/-- The offset column of 20_memory.md R71. -/
def regOffset : Reg → Offset
  | .id => 0x000
  | .ctrl => 0x004
  | .status => 0x008
  | .cmd => 0x00C
  | .inLen => 0x010
  | .keyLen => 0x014
  | .outLen => 0x018
  | .errpos => 0x01C
  | .hillDim => 0x020
  | .hillDet => 0x024
  | .hillDinv => 0x028
  | .mat i j => BitVec.ofNat 12 (0x040 + 16 * i.val + 4 * j.val)
  | .inv i j => BitVec.ofNat 12 (0x080 + 16 * i.val + 4 * j.val)
  | .sq k => BitVec.ofNat 12 (0x100 + 4 * k.val)
  | .key w => BitVec.ofNat 12 (0x200 + 4 * w.val)
  | .textIn w => BitVec.ofNat 12 (0x400 + 4 * w.val)
  | .textOut w => BitVec.ofNat 12 (0x800 + 4 * w.val)

/-- The constant `ID`: "CCU" and revision 1 (10_state.md R24). -/
def idWord : Word := 0x43435501

/-- The word a host read of a register returns (10_state.md R23 to R48). -/
def readReg (r : Reg) (s : State) : Word :=
  match r with
  | .id => idWord
  | .ctrl => ctrlWord s
  | .status => statusWord s
  | .cmd => s.cmdLast
  | .inLen => s.inLen.setWidth 32
  | .keyLen => s.keyLen.setWidth 32
  | .outLen => s.outLen.setWidth 32
  | .errpos => s.errpos
  | .hillDim => hillDimWord s
  | .hillDet => s.hillDet.setWidth 32
  | .hillDinv => s.hillDinv.setWidth 32
  | .mat i j => s.matWord i.val j.val
  | .inv i j => (s.invCell i.val j.val).setWidth 32
  | .sq k => (s.sqCell k.val).setWidth 32
  | .key w => Memory.readWord s.mem (keyBase + 4 * w.val)
  | .textIn w => Memory.readWord s.mem (textInBase + 4 * w.val)
  | .textOut w => Memory.readWord s.mem (textOutBase + 4 * w.val)

/-- Store a word into `MAT[i][j]` (10_state.md R43). -/
def storeMat (i j : Fin 4) (v : Word) (s : State) : State :=
  { s with mat := s.mat.setIfInBounds (4 * i.val + j.val) v }

/-- A write that is rejected while a command is pending (40_command.md R111). -/
def writeUnlessBusy (store : State → State) (s : State) : State :=
  if s.busy then rejectWrite s else store s

/-- A performed host write to a register, by its access type (10_state.md R23; 40_command.md R110, R111;
20_memory.md R74 for read-only registers). -/
def writeReg (r : Reg) (v : Word) (s : State) : State :=
  match r with
  | .id => s
  | .ctrl => writeCtrl v s
  | .status => writeStatus v s
  | .cmd => writeUnlessBusy (accept v) s
  | .inLen => writeUnlessBusy (fun s => { s with inLen := v.setWidth 16 }) s
  | .keyLen => writeUnlessBusy (fun s => { s with keyLen := v.setWidth 16 }) s
  | .outLen => s
  | .errpos => s
  | .hillDim => writeUnlessBusy (fun s => { s with rows := v.extractLsb' 0 4, cols := v.extractLsb' 8 4 }) s
  | .hillDet => s
  | .hillDinv => s
  | .mat i j => writeUnlessBusy (storeMat i j v) s
  | .inv _ _ => s
  | .sq _ => s
  | .key w => writeUnlessBusy (fun s => { s with mem := Memory.writeWord s.mem (keyBase + 4 * w.val) v }) s
  | .textIn w => writeUnlessBusy (fun s => { s with mem := Memory.writeWord s.mem (textInBase + 4 * w.val) v }) s
  | .textOut _ => s

/-- The word a performed read at an offset returns; an unmapped offset reads 0 (20_memory.md R74). -/
def readAt (off : Offset) (s : State) : Word :=
  match regAt off with
  | some r => readReg r s
  | none => 0

/-- A performed write at an offset; at an unmapped offset it changes nothing (20_memory.md R74). -/
def writeAt (off : Offset) (v : Word) (s : State) : State :=
  match regAt off with
  | some r => writeReg r v s
  | none => s

/-- One host access, atomic (20_memory.md R77): performed on the register at the offset when it is 32 bits wide and
aligned (R72); otherwise not performed, a read returning 0, and `AERR` set (R73). -/
def hostAccess (a : Access) (s : State) : State :=
  match a with
  | .read off _ => if a.wf then { s with rdata := readAt off s } else { s with rdata := 0, aerr := true }
  | .write off _ v => if a.wf then writeAt off v s else { s with aerr := true }

/-- The window offset of a host physical address, where the address lies in the window at `CCU_BASE`
(20_memory.md R70; log entry 7). -/
def windowOffset (addr : Nat) : Option Offset :=
  if Config.ccuBase ≤ addr ∧ addr < Config.ccuBase + 4096 then some (BitVec.ofNat 12 (addr - Config.ccuBase)) else none

end Sys2Proof.Machine
end

