-- ==== Sys2Proof/Machine/Normalizer.lean ====
section
/-! DEFINITION. The alphabet normalizer front end (41_normalizer.md): byte classes, case folding, indices, the
alphabets, text normalization, padding, and the reductions modulo 26 and 5. -/

namespace Sys2Proof.Machine

/-- 'A' to 'Z' (41_normalizer.md R130). -/
def isUpper (b : Byte) : Bool := decide (0x41 ≤ b.toNat) && decide (b.toNat ≤ 0x5A)

/-- 'a' to 'z' (R130). -/
def isLower (b : Byte) : Bool := decide (0x61 ≤ b.toNat) && decide (b.toNat ≤ 0x7A)

/-- The letters (R130). -/
def isLetter (b : Byte) : Bool := isUpper b || isLower b

/-- TAB, LF, VT, FF, CR and SPACE (R130). -/
def isWS (b : Byte) : Bool :=
  b == 0x09 || b == 0x0A || b == 0x0B || b == 0x0C || b == 0x0D || b == 0x20

/-- Case folding (R131). -/
def upper (b : Byte) : Byte := if isLower b then b - 0x20 else b

/-- The index of a symbol (R131). -/
def idx (s : Byte) : Int := (s.toNat : Int) - 0x41

/-- The symbol of an index (R131). -/
def sym (v : Int) : Byte := BitVec.ofInt 8 (0x41 + v)

/-- Reduction modulo 26 into [0, 26), `x - 26 · floor(x / 26)` (R138): Lean's `%` on Int with a positive divisor. -/
def mod26 (x : Int) : Int := x % 26

/-- Reduction modulo 5 into [0, 5) (R138). -/
def mod5 (x : Int) : Int := x % 5

/-- The 26-symbol alphabet in order (R132). -/
def a26 : List Byte :=
  [0x41, 0x42, 0x43, 0x44, 0x45, 0x46, 0x47, 0x48, 0x49, 0x4A, 0x4B, 0x4C, 0x4D,
   0x4E, 0x4F, 0x50, 0x51, 0x52, 0x53, 0x54, 0x55, 0x56, 0x57, 0x58, 0x59, 0x5A]

/-- The 25-symbol alphabet: `A26` without 'J', in `A26` order (R133). -/
def a25 : List Byte := a26.filter fun s => s != 0x4A

/-- The Vigenère front end, per byte (R134). -/
def normV (b : Byte) : Byte := if isLetter b then upper b else b

/-- 'J' becomes 'I' (R135, 43_playfair.md R170). -/
def foldJ (s : Byte) : Byte := if s = 0x4A then 0x49 else s

/-- `upper`, and the J-to-I rewrite where `jmap` is set (R135). -/
def foldSymbol (jmap : Bool) (b : Byte) : Byte := if jmap then foldJ (upper b) else upper b

/-- The loop of `NormText` over the bytes from index `i` on (R135). -/
def normTextFrom (jmap : Bool) : Nat → List Byte → Eval (List Byte)
  | _, [] => .ok []
  | i, b :: bs =>
    if isWS b then normTextFrom jmap (i + 1) bs
    else if !isLetter b then raise .invalidInput (some i)
    else do
      let out ← normTextFrom jmap (i + 1) bs
      return foldSymbol jmap b :: out

/-- `NormText(IN_LEN, jmap)`: the Playfair and Hill front end over the first `IN_LEN` bytes of `TEXT_IN` (R135, R136). -/
def normText (jmap : Bool) (s : State) : Eval (List Byte) :=
  normTextFrom jmap 0 (s.textBytes s.inLength)

/-- `PadX(t, m)`: trailing 'X's up to a multiple of `m` (R137). -/
def padX (t : List Byte) (m : Nat) : List Byte :=
  t ++ List.replicate ((m - t.length % m) % m) Config.fill

end Sys2Proof.Machine
end

