-- ==== Sys2Proof/Machine/Hill.lean ====
section
/-! DEFINITION. The Hill block multiplier and matrix-inverse solver (44_hill.md): `HILL_ENC`, `HILL_DEC`,
`HILL_INV`. All arithmetic is on mathematical integers, reduced by `mod26` where a rule says so (R214). -/

namespace Sys2Proof.Machine

/-- A square integer matrix; an evaluation with dimension `n` reads the entries below `n` only (44_hill.md R201). -/
abbrev Mat := Nat → Nat → Int

/-- `Σ_{i in [0, n)} f i` (00_scope.md R12). -/
def sumBelow : Nat → (Nat → Int) → Int
  | 0, _ => 0
  | n + 1, f => sumBelow n f + f n

/-- `HillDim()`: not square, then 0 or larger than `N_MAX` (44_hill.md R200). -/
def hillDim (s : State) : Eval Nat :=
  if s.rows.toNat ≠ s.cols.toNat then raise .invalidKey none
  else if s.rows.toNat = 0 ∨ Config.nMax < s.rows.toNat then raise .invalidKey none
  else .ok s.rows.toNat

/-- `BlockMul(p, A)[j]`, the vector on the left (R203). -/
def blockMul (n : Nat) (p : Nat → Int) (a : Mat) (j : Nat) : Int :=
  mod26 (sumBelow n fun i => p i * a i j)

/-- `minor(A, r, c)`: row `r` and column `c` removed (R204). -/
def minor (a : Mat) (r c : Nat) : Mat := fun i j =>
  a (if i < r then i else i + 1) (if j < c then j else j + 1)

/-- The exact determinant by cofactor expansion along row 0 (R204). -/
def det : Nat → Mat → Int
  | 0, _ => 1
  | 1, a => a 0 0
  | n + 2, a => sumBelow (n + 2) fun j => (-1) ^ j * a 0 j * det (n + 1) (minor a 0 j)

/-- The exact adjugate, the transpose of the cofactor matrix; `[[1]]` for `n = 1` (R207). -/
def adj (n : Nat) (a : Mat) : Mat := fun i j =>
  if n = 1 then 1 else (-1) ^ (i + j) * det (n - 1) (minor a j i)

/-- `d_inv`: the `x` in [1, 26) with `(d · x) mod26 = 1` (R206). -/
def modInverse (d : Int) : Int :=
  match (List.range Config.na).find? (fun x => decide (1 ≤ x) && decide (mod26 (d * x) = 1)) with
  | some x => x
  | none => 0

/-- `d`, `d_inv` and the inverse matrix (R208). -/
structure KeyInverse where
  d : Int
  dinv : Int
  kinv : Mat

/-- `HillInverse(n)` (R205, R208). -/
def hillInverse (n : Nat) (k : Mat) : Eval KeyInverse :=
  let d := mod26 (det n k)
  if Int.gcd d 26 ≠ 1 then raise .nonInvertibleKey none
  else .ok { d := d, dinv := modInverse d, kinv := fun i j => mod26 (modInverse d * adj n k i j) }

/-- `InvWrites(n, d, dinv, Kinv)`: elements outside the n × n block are written 0 (R212). -/
def invWrites (n : Nat) (v : KeyInverse) : InverseWrites where
  det := BitVec.ofInt 5 v.d
  dinv := BitVec.ofInt 5 v.dinv
  inv := Vector.ofFn fun k =>
    if k.val / 4 < n ∧ k.val % 4 < n then BitVec.ofInt 5 (v.kinv (k.val / 4) (k.val % 4)) else 0

/-- Block `q` of a symbol sequence as a row vector of indices (R202). -/
def block (n : Nat) (t : List Byte) (q i : Nat) : Int := idx (t.getD (n * q + i) 0)

/-- Every block of `t` multiplied by `a`, the indices mapped back to symbols (R202, R203, R209). -/
def mulBlocks (n : Nat) (a : Mat) (t : List Byte) : List Byte :=
  (List.range (t.length / n)).flatMap fun q =>
    (List.range n).map fun j => sym (blockMul n (block n t q) a j)

/-- The evaluation of `HILL_ENC` (R209). Invertibility is not checked (R215). -/
def hillEncEval (s : State) : Eval Writes := do
  let n ← hillDim s
  checkInLen s
  let t ← normText false s
  return { text := some (mulBlocks n s.keyMatrix (padX t n)) }

/-- The evaluation of `HILL_DEC` (R210). -/
def hillDecEval (s : State) : Eval Writes := do
  let n ← hillDim s
  let v ← hillInverse n s.keyMatrix
  checkInLen s
  let t ← normText false s
  if t.length % n ≠ 0 then raise .invalidInput none
  else return { text := some (mulBlocks n v.kinv t), inverse := some (invWrites n v) }

/-- The evaluation of `HILL_INV` (R211). -/
def hillInvEval (s : State) : Eval Writes := do
  let n ← hillDim s
  let v ← hillInverse n s.keyMatrix
  return { inverse := some (invWrites n v) }

/-- `HILL_ENC` (44_hill.md R209). -/
def execHillEnc (s : State) : Host.Outcome State Fault Refusal := complete (hillEncEval s) s

/-- `HILL_DEC` (44_hill.md R210). -/
def execHillDec (s : State) : Host.Outcome State Fault Refusal := complete (hillDecEval s) s

/-- `HILL_INV` (44_hill.md R211). -/
def execHillInv (s : State) : Host.Outcome State Fault Refusal := complete (hillInvEval s) s

end Sys2Proof.Machine
end

