-- ==== Sys2Proof/Machine/Playfair.lean ====
section
/-! DEFINITION. The Playfair key-square builder and digraph mapper (43_playfair.md): `PF_BUILD`, `PF_ENC`, `PF_DEC`. -/

namespace Sys2Proof.Machine

/-- `PKeyLetters(L)`: the key's letters, case-folded, 'J' rewritten to 'I'; other bytes are skipped
(43_playfair.md R170). -/
def pfKeyLetters (key : List Byte) : List Byte := (key.filter isLetter).map fun b => foldJ (upper b)

/-- Append a symbol unless it is there already (R171). -/
def appendNew (seq : List Byte) (s : Byte) : List Byte := if s ∈ seq then seq else seq ++ [s]

/-- `BuildSquare(L)`: the key's letters, then `A25`, first occurrences only (R171). -/
def buildSquare (key : List Byte) : List Byte := (pfKeyLetters key ++ a25).foldl appendNew []

/-- The square of the key that `KEY` and `KEY_LEN` hold. -/
def State.keySquare (s : State) : List Byte := buildSquare (s.keyBytes s.keyLength)

/-- The square's letter at a row and a column, each in [0, 5) (R171: row-major). -/
def squareAt (sq : List Byte) (row col : Int) : Byte := sq.getD (5 * row + col).toNat 0

/-- `find(sq, s)`: the row and column of a symbol (R172). -/
def findSymbol (sq : List Byte) (s : Byte) : Eval (Int × Int) :=
  match sq.findIdx? (· == s) with
  | some k => .ok (k / 5, k % 5)
  | none => raise .invalidState none

/-- `MapDigraph(sq, a, b, dir)`: same row, same column, rectangle, in this order (R173; doubled letters, R177). -/
def mapDigraph (sq : List Byte) (dir : Int) (a b : Byte) : Eval (Byte × Byte) := do
  let (ra, ca) ← findSymbol sq a
  let (rb, cb) ← findSymbol sq b
  if ra = rb then
    return (squareAt sq ra (mod5 (ca + dir)), squareAt sq rb (mod5 (cb + dir)))
  else if ca = cb then
    return (squareAt sq (mod5 (ra + dir)) ca, squareAt sq (mod5 (rb + dir)) cb)
  else
    return (squareAt sq ra cb, squareAt sq rb ca)

/-- The digraphs at positions (2q, 2q + 1), each mapped (R175, R176). -/
def mapDigraphs (sq : List Byte) (dir : Int) : List Byte → Eval (List Byte)
  | a :: b :: rest => do
    let (x, y) ← mapDigraph sq dir a b
    let out ← mapDigraphs sq dir rest
    return x :: y :: out
  | _ => .ok []

/-- The cells `SQ[k] <- sq[k]` for `k` in [0, 25) (R174). -/
def squareCells (sq : List Byte) : Vector Byte 25 := Vector.ofFn fun k => sq.getD k.val 0

/-- The evaluation of `PF_BUILD` (R174). -/
def pfBuildEval (s : State) : Eval Writes := do
  checkKeyLen s
  return { square := some (squareCells s.keySquare) }

/-- The evaluation of `PF_ENC` (R175). -/
def pfEncEval (s : State) : Eval Writes := do
  checkKeyLen s
  checkInLen s
  let t ← normText true s
  let out ← mapDigraphs s.keySquare 1 (padX t 2)
  return { text := some out, square := some (squareCells s.keySquare) }

/-- The evaluation of `PF_DEC` (R176). -/
def pfDecEval (s : State) : Eval Writes := do
  checkKeyLen s
  checkInLen s
  let t ← normText true s
  if t.length % 2 ≠ 0 then raise .invalidInput none
  else
    let out ← mapDigraphs s.keySquare (-1) t
    return { text := some out, square := some (squareCells s.keySquare) }

/-- `PF_BUILD` (43_playfair.md R174). -/
def execPfBuild (s : State) : Host.Outcome State Fault Refusal := complete (pfBuildEval s) s

/-- `PF_ENC` (43_playfair.md R175). -/
def execPfEnc (s : State) : Host.Outcome State Fault Refusal := complete (pfEncEval s) s

/-- `PF_DEC` (43_playfair.md R176). -/
def execPfDec (s : State) : Host.Outcome State Fault Refusal := complete (pfDecEval s) s

end Sys2Proof.Machine
end

