-- ==== Sys2Proof/Machine/Vigenere.lean ====
section
/-! DEFINITION. The Vigenère substitution unit (42_vigenere.md): `VIG_ENC` and `VIG_DEC`. -/

namespace Sys2Proof.Machine

/-- `VKeyCheck(L)`: an empty key, then the first byte that is no letter (42_vigenere.md R153). -/
def vigKeyCheck (s : State) (n : Nat) : Eval Unit :=
  if n = 0 then raise .invalidKey none
  else
    match (List.range n).find? (fun j => !isLetter (s.keyByte j)) with
    | some j => raise .invalidKey (some j)
    | none => .ok ()

/-- The output byte of encryption for text byte `b` and key byte `k` (R150). -/
def vigEncByte (b k : Byte) : Byte :=
  if isLetter b then sym (mod26 (idx (upper b) + idx (upper k))) else normV b

/-- The output byte of decryption for text byte `b` and key byte `k` (R151). -/
def vigDecByte (b k : Byte) : Byte :=
  if isLetter b then sym (mod26 (idx (upper b) - idx (upper k))) else normV b

/-- The frame of both commands: the checks in order, then one output byte per text byte, the key byte chosen by
the text byte's absolute position (R150, R151, R152). -/
def vigEval (f : Byte → Byte → Byte) (s : State) : Eval Writes := do
  checkKeyLen s
  vigKeyCheck s s.keyLength
  checkInLen s
  return { text := some ((List.range s.inLength).map fun i => f (s.textByte i) (s.keyByte (i % s.keyLength))) }

/-- `VIG_ENC` (42_vigenere.md R150). -/
def execVigEnc (s : State) : Host.Outcome State Fault Refusal := complete (vigEval vigEncByte s) s

/-- `VIG_DEC` (42_vigenere.md R151). -/
def execVigDec (s : State) : Host.Outcome State Fault Refusal := complete (vigEval vigDecByte s) s

end Sys2Proof.Machine
end

