-- ==== Sys2Proof/Machine/Dispatch.lean ====
section
/-! DEFINITION. The dispatch of the eight commands (30_encoding.md R92): one arm per constructor of `Instr`, each a
direct call of that command's completion. -/

namespace Sys2Proof.Machine

def exec (i : Instr) (s : State) : Host.Outcome State Fault Refusal :=
  match i with
  | .vigEnc => Sys2Proof.Machine.execVigEnc s
  | .vigDec => Sys2Proof.Machine.execVigDec s
  | .pfBuild => Sys2Proof.Machine.execPfBuild s
  | .pfEnc => Sys2Proof.Machine.execPfEnc s
  | .pfDec => Sys2Proof.Machine.execPfDec s
  | .hillEnc => Sys2Proof.Machine.execHillEnc s
  | .hillDec => Sys2Proof.Machine.execHillDec s
  | .hillInv => Sys2Proof.Machine.execHillInv s

end Sys2Proof.Machine
end

