-- ==== Sys2Proof/Machine/Sequencer.lean ====
section
/-! DEFINITION. The command sequencer and the turns: the completion step (40_command.md R112), and which agent moves
next (20_memory.md R79, 40_command.md R113, 70_reset_and_hazards.md R270). -/

namespace Sys2Proof.Machine

/-- The sequencer's turn: the completion step where a command is pending, and nothing where none is
(40_command.md R112; 60_exceptions.md R260; log entry 2). -/
def sequencerTurn (s : State) : Host.Outcome State Fault Refusal :=
  if s.busy then
    match decode s.pend with
    | .ok i => exec i s
    | .error _ => completeIllegal s
  else .next s

/-- The next turn. With no turn left the sequencer moves: the completion step eventually occurs (40_command.md R113). -/
def takeTurn (s : State) : Host.Outcome State Fault Refusal :=
  match s.turns with
  | [] => sequencerTurn s
  | .sequencer :: rest => sequencerTurn { s with turns := rest }
  | .host a :: rest => .next (hostAccess a { s with turns := rest })
  | .rst :: rest => .next (resetCcu { s with turns := rest })

end Sys2Proof.Machine
end

