-- ==== Sys2Proof/Machine/Step.lean ====
section
/-! DEFINITION. One step of the machine, and the placing of a command word where the sequencer takes its next one. -/

namespace Sys2Proof.Machine

/-- One turn of one agent (20_memory.md R79). -/
def step (s : State) : Host.Outcome State Fault Refusal := Sys2Proof.Machine.takeTurn s

/-- `s` with the command word whose `nbits` low bits are those of `w` pending, and the sequencer's turn next, so that
the very next step completes it. The CCU fetches nothing (10_state.md R22): a word comes to be pending by acceptance
of a `CMD` write (40_command.md R110), which this stands for (log entry 4). -/
def State.withFetchWord (s : State) (nbits w : Nat) : State :=
  placeCommand (BitVec.ofNat 32 (w % 2 ^ nbits)) s

end Sys2Proof.Machine
end

