-- ==== Sys2Proof/Machine/HostProgram.lean ====
section
/-! DEFINITION. The host notation (30_encoding.md R97, R98): what each operation does, and the exact expansions of
the pseudo-operations. A host program is the host agent's; each of its bus transactions is one `hostAccess`. -/

namespace Sys2Proof.Machine

/-- The number of words that hold `n` bytes, `ceil(n / 4)` (30_encoding.md R98). -/
def wordsFor (n : Nat) : Nat := (n + 3) / 4

/-- A `copyout` about to copy word `w`, or to write `IN_LEN` once every word that holds an output byte is copied
(30_encoding.md R98). -/
def copyOutFrom (outLen : Word) (w : Nat) : CopyOut :=
  if w < wordsFor outLen.toNat then .readWord outLen w else .writeLen outLen

/-- The bus transaction of a `copyout` (30_encoding.md R98). That it reads `OUT_LEN` first, as the programs of
95_test_vectors.md show and the table of R98 does not, is the model's choice (log entry 18). -/
def copyOutAccess : CopyOut → Access
  | .readLen => .read (regOffset .outLen) 4
  | .readWord _ w => .read (BitVec.ofNat 12 (textOutBase + 4 * w)) 4
  | .writeWord _ w value => .write (BitVec.ofNat 12 (textInBase + 4 * w)) 4 value
  | .writeLen outLen => .write (regOffset .inLen) 4 outLen

/-- A `copyout` after a transaction that read `value`; `none` once it has written `IN_LEN` (30_encoding.md R98). Each
value read is the one the later write carries. -/
def copyOutNext (copy : CopyOut) (value : Word) : Option CopyOut :=
  match copy with
  | .readLen => some (copyOutFrom value 0)
  | .readWord outLen w => some (.writeWord outLen w value)
  | .writeWord outLen w _ => some (copyOutFrom outLen (w + 1))
  | .writeLen _ => none

/-- The bus transaction of an operation, of a `copyout` its next one (30_encoding.md R97, R98). -/
def opAccess (op : HostOp) (copy : CopyOut) : Option Access :=
  match op with
  | .wr off v => some (.write off 4 v)
  | .rd off => some (.read off 4)
  | .poll off _ _ => some (.read off 4)
  | .bz off _ _ => some (.read off 4)
  | .halt => none
  | .copyout => some (copyOutAccess copy)

/-- Where the program stands after a transaction of `op` that read `value` (30_encoding.md R97): `poll` repeats until
the masked value is the expected one, `bz` branches where it is 0, and a `copyout` goes on to its next transaction. -/
def opNext (op : HostOp) (pos : HostPos) (value : Word) : HostPos :=
  match op with
  | .wr _ _ => { line := pos.line + 1 }
  | .rd _ => { line := pos.line + 1 }
  | .poll _ mask expected => if value &&& mask = expected then { line := pos.line + 1 } else { line := pos.line }
  | .bz _ mask target => if value &&& mask = 0 then { line := target } else { line := pos.line + 1 }
  | .halt => pos
  | .copyout =>
    match copyOutNext pos.copy value with
    | some copy => { line := pos.line, copy := copy }
    | none => { line := pos.line + 1 }

/-- One bus transaction of a host program; `none` for its place once the program has ended (30_encoding.md R97). -/
def hostProgramTurn (prog : List HostOp) (pos : HostPos) (s : State) : Option HostPos × State :=
  match prog[pos.line]? with
  | none => (none, s)
  | some op =>
    match opAccess op pos.copy with
    | none => (none, s)
    | some a => (some (opNext op pos (hostAccess a s).rdata), hostAccess a s)

/-- `n` bus transactions of a host program, no commit between them. -/
def hostProgramTurns (prog : List HostOp) : Nat → HostPos → State → Option HostPos × State
  | 0, pos, s => (some pos, s)
  | n + 1, pos, s =>
    match hostProgramTurn prog pos s with
    | (some pos', t) => hostProgramTurns prog n pos' t
    | (none, t) => (none, t)

/-- `cmd MNEMONIC` (30_encoding.md R98). -/
def opCmd (i : Instr) : List HostOp := [.wr (regOffset .cmd) (encode i)]

/-- `wait`: poll `STATUS` until `DONE` is 1 (30_encoding.md R98). -/
def opWait : List HostOp := [.poll (regOffset .status) 0x2 0x2]

/-- `ack`: clears `DONE`, `ERR` and `ERRCODE` (30_encoding.md R98). -/
def opAck : List HostOp := [.wr (regOffset .status) 0x6]

/-- `ackall`: clears `DONE`, `ERR`, `ERRCODE`, `WERR` and `AERR` (30_encoding.md R98). -/
def opAckAll : List HostOp := [.wr (regOffset .status) 0x606]

/-- Word `w` of a byte string packed little-endian, missing bytes 0x00 (30_encoding.md R98). -/
def packedWord (bytes : List Byte) (w : Nat) : Word :=
  bytes.getD (4 * w + 3) 0 ++ bytes.getD (4 * w + 2) 0 ++ bytes.getD (4 * w + 1) 0 ++ bytes.getD (4 * w) 0

/-- Load a byte string into the buffer at window offset `base`, then its length into `lenReg` (30_encoding.md R98). -/
def opLoad (base : Nat) (lenReg : Reg) (bytes : List Byte) : List HostOp :=
  ((List.range (wordsFor bytes.length)).map fun w => .wr (BitVec.ofNat 12 (base + 4 * w)) (packedWord bytes w)) ++
    [.wr (regOffset lenReg) (BitVec.ofNat 32 bytes.length)]

/-- `ldkey "S"` (30_encoding.md R98). -/
def opLdKey (bytes : List Byte) : List HostOp := opLoad keyBase .keyLen bytes

/-- `ldtext "S"` (30_encoding.md R98). -/
def opLdText (bytes : List Byte) : List HostOp := opLoad textInBase .inLen bytes

/-- `ldmat n, rows`: `HILL_DIM = 0x0000_0n0n`, then every `MAT[i][j]` with `i, j < n`, row-major (30_encoding.md R98). -/
def opLdMat (n : Nat) (rows : List (List Int)) : List HostOp :=
  .wr (regOffset .hillDim) (BitVec.ofNat 32 (0x100 * n + n)) ::
    (List.range n).flatMap fun i => (List.range n).map fun j =>
      .wr (regOffset (.mat (Fin.ofNat 4 i) (Fin.ofNat 4 j))) (BitVec.ofInt 32 ((rows.getD i []).getD j 0))

/-- `copyout`, whose transactions are those of `copyOutAccess` (30_encoding.md R98). -/
def opCopyOut : List HostOp := [.copyout]

end Sys2Proof.Machine
end

