-- ==== Sys2Proof/Safety.lean ====
section
/-! DEFINITION. The terms claims are stated in: the invariant of the architectural state; whose turn it is; what a
commit leaves unchanged; and what the spec's tables and figures of a command say, written without the definitions
that compute it. -/

namespace Sys2Proof

open Sys2Proof.Machine

/-- The square cells hold nothing yet, or one square: each symbol of `A25` exactly once (10_state.md R45,
43_playfair.md R178). -/
abbrev squareLegal (sq : Vector Byte 25) : Prop :=
  sq.toList = List.replicate 25 0 ∨ (∀ c ∈ sq.toList, c ∈ a25) ∧ sq.toList.Nodup

/-- `ERR` and `ERRCODE` tell one story, with a code the spec can produce (10_state.md R30, 60_exceptions.md R241). -/
abbrev errorReportLegal (s : State) : Prop :=
  (s.err = true ↔ s.errcode ≠ 0) ∧ s.errcode ∈ [0#4, 1#4, 2#4, 3#4, 5#4]

/-- While a command is pending nothing is reported: acceptance cleared it and only a commit sets it
(10_state.md R28 to R30, R39). -/
abbrev pendingLegal (s : State) : Prop :=
  s.busy = true → s.done = false ∧ s.err = false ∧ s.errpos = 0xFFFFFFFF

/-- The result registers stay in their ranges (10_state.md R38, R41, R42, R44). -/
abbrev resultsLegal (s : State) : Prop :=
  s.outLen.toNat ≤ Config.nOut ∧ s.hillDet.toNat < 26 ∧ s.hillDinv.toNat < 26 ∧ ∀ v ∈ s.inv.toList, v.toNat < 26

/-- The invariant of the architectural state. -/
structure Inv (s : State) : Prop where
  memCanonical : Memory.wf s.mem
  memInBuffers : ∀ c ∈ s.mem, inBuffer c.1 = true
  errorReport : errorReportLegal s
  pending : pendingLegal s
  pendIsCmdLast : s.pend = s.cmdLast
  results : resultsLegal s
  square : squareLegal s.sq

/-! ## Turns -/

/-- Whose turn it is: the head of the list, and the sequencer's once the list is exhausted (40_command.md R113). -/
def nextTurn (s : State) : Turn := s.turns.headD .sequencer

/-- The state once its next turn has been taken off the list. -/
def popTurn (s : State) : State := { s with turns := s.turns.tail }

/-- The next turn resets the CCU: `rst`, or a write of 1 to `SRST` (70_reset_and_hazards.md R270). -/
def resetsNext (s : State) : Prop :=
  nextTurn s = .rst ∨ ∃ v : Word, nextTurn s = .host (.write 0x004 4 v) ∧ v[1] = true

/-- The next turn completes the pending command (40_command.md R112). -/
def completesNext (s : State) : Prop := nextTurn s = .sequencer ∧ s.busy = true

/-- The offsets whose writes are rejected while a command is pending: `CMD`, `IN_LEN`, `KEY_LEN`, `HILL_DIM`, `MAT`,
`KEY` and `TEXT_IN` (40_command.md R111), as byte offsets of 20_memory.md R71. -/
abbrev operandOffset (off : Nat) : Prop :=
  off % 4 = 0 ∧
    (off = 0x00C ∨ off = 0x010 ∨ off = 0x014 ∨ off = 0x020 ∨ (0x040 ≤ off ∧ off ≤ 0x07C) ∨
     (0x200 ≤ off ∧ off ≤ 0x2FC) ∨ (0x400 ≤ off ∧ off ≤ 0x7FC))

/-- The read-only offsets of 20_memory.md R71. -/
abbrev readOnlyOffset (off : Nat) : Prop :=
  off % 4 = 0 ∧
    (off = 0x000 ∨ off = 0x018 ∨ off = 0x01C ∨ off = 0x024 ∨ off = 0x028 ∨ (0x080 ≤ off ∧ off ≤ 0x0BC) ∨
     (0x100 ≤ off ∧ off ≤ 0x160) ∨ (0x800 ≤ off ∧ off ≤ 0xC00))

/-- The reserved, unmapped offsets of 20_memory.md R71. -/
abbrev reservedOffset (off : Nat) : Prop :=
  off % 4 = 0 ∧
    ((0x02C ≤ off ∧ off ≤ 0x03C) ∨ (0x0C0 ≤ off ∧ off ≤ 0x0FC) ∨ (0x164 ≤ off ∧ off ≤ 0x1FC) ∨
     (0x300 ≤ off ∧ off ≤ 0x3FC) ∨ (0xC04 ≤ off ∧ off ≤ 0xFFC))

/-! ## Commits -/

/-- `Exec(PEND, S)` for the word of command `i` (40_command.md R122). -/
def commandResult (i : Instr) (s : State) : Eval Writes :=
  match i with
  | .vigEnc => vigEval vigEncByte s
  | .vigDec => vigEval vigDecByte s
  | .pfBuild => pfBuildEval s
  | .pfEnc => pfEncEval s
  | .pfDec => pfDecEval s
  | .hillEnc => hillEncEval s
  | .hillDec => hillDecEval s
  | .hillInv => hillInvEval s

/-- The state an error commit leaves: the code, the position, and `OUT_LEN = 0`; nothing else changes
(40_command.md R115). -/
def errorState (code : BitVec 4) (pos : Word) (s : State) : State :=
  { s with outLen := 0, errpos := pos, errcode := code, err := true, done := true, busy := false }

/-- What every successful commit sets and leaves, whichever command it completes: `DONE` and `BUSY`, the control
and error-report fields, the sticky flags, the command words, every operand, and the environment
(40_command.md R114, 30_encoding.md R93). -/
structure CommitFrame (s t : State) : Prop where
  done : t.done = true
  busy : t.busy = false
  ie : t.ie = s.ie
  keyMin : t.keyMin = s.keyMin
  err : t.err = s.err
  errcode : t.errcode = s.errcode
  errpos : t.errpos = s.errpos
  werr : t.werr = s.werr
  aerr : t.aerr = s.aerr
  cmdLast : t.cmdLast = s.cmdLast
  pend : t.pend = s.pend
  inLen : t.inLen = s.inLen
  keyLen : t.keyLen = s.keyLen
  rows : t.rows = s.rows
  cols : t.cols = s.cols
  mat : t.mat = s.mat
  rdata : t.rdata = s.rdata
  turns : t.turns = s.turns

/-- Every byte outside `TEXT_OUT` reads as before, the `KEY` and `TEXT_IN` bytes among them. -/
def KeepsBytesOutsideTextOut (s t : State) : Prop :=
  ∀ a, ¬(0x800 ≤ a ∧ a < 0xC04) → Memory.read t.mem a = Memory.read s.mem a

/-- Every byte of every buffer reads as before. -/
def KeepsBytes (s t : State) : Prop := ∀ a, Memory.read t.mem a = Memory.read s.mem a

/-- `OUT_LEN` is `n` and the bytes of `TEXT_OUT` from `n` on are 0x00 (40_command.md R116). -/
def OutputLength (t : State) (n : Nat) : Prop :=
  t.outLen.toNat = n ∧ n ≤ 1028 ∧ ∀ i, n ≤ i → i < 1028 → t.outByte i = 0

/-- `HILL_DET`, `HILL_DINV` and `INV` keep their values. -/
def KeepsInverse (s t : State) : Prop :=
  t.hillDet = s.hillDet ∧ t.hillDinv = s.hillDinv ∧ t.inv = s.inv

/-! ## Operands -/

/-- Every text byte is a letter or whitespace (41_normalizer.md R135). -/
abbrev TextClean (s : State) : Prop :=
  ∀ i, i < s.inLength → isLetter (s.textByte i) = true ∨ isWS (s.textByte i) = true

/-- The first text byte that is neither a letter nor whitespace (41_normalizer.md R135). -/
abbrev FirstBadText (s : State) (i : Nat) : Prop :=
  i < s.inLength ∧ isLetter (s.textByte i) = false ∧ isWS (s.textByte i) = false ∧
    ∀ k, k < i → isLetter (s.textByte k) = true ∨ isWS (s.textByte k) = true

/-- A Vigenère key the check passes (42_vigenere.md R153). -/
abbrev VigKeyGood (s : State) : Prop :=
  0 < s.keyLength ∧ s.keyLength ≤ 256 ∧ ∀ j, j < s.keyLength → isLetter (s.keyByte j) = true

/-- The first key byte that is no letter (42_vigenere.md R153). -/
abbrev FirstBadKey (s : State) (j : Nat) : Prop :=
  j < s.keyLength ∧ isLetter (s.keyByte j) = false ∧ ∀ k, k < j → isLetter (s.keyByte k) = true

/-- The text's letters through `f`, in order, everything else dropped. -/
def textLetters (f : Byte → Byte) (s : State) : List Byte :=
  ((s.textBytes s.inLength).filter isLetter).map f

/-- `t` with 'X's appended up to a multiple of `m` (41_normalizer.md R137). -/
def paddedTo (m : Nat) (t : List Byte) : List Byte :=
  t ++ List.replicate ((m - t.length % m) % m) 0x58

/-- A square, legal Hill dimension `n` (44_hill.md R200). -/
abbrev HillDimIs (s : State) (n : Nat) : Prop :=
  s.rows.toNat = n ∧ s.cols.toNat = n ∧ 1 ≤ n ∧ n ≤ 4

/-- The key matrix as a matrix over the integers (44_hill.md R201). -/
def keyMat (s : State) (n : Nat) : Matrix (Fin n) (Fin n) ℤ := Matrix.of fun i j => s.keyMatrix i.val j.val

/-! ## Results -/

/-- The index of a letter's upper-case form, 0 to 25 (41_normalizer.md R131). -/
def letterIndex (b : Byte) : Nat := (upper b).toNat - 65

/-- The digraph `(x, y)` is the image of `(a, b)` in the square whose cell `5·row + col` is `cell`, the same-row and
same-column cases moving by `shift` cells modulo 5: 1 for +1, 4 for -1 (43_playfair.md R173). -/
def DigraphImage (cell : Nat → Byte) (shift : Nat) (a b x y : Byte) : Prop :=
  ∃ ra ca rb cb : Nat, (ra < 5 ∧ ca < 5 ∧ rb < 5 ∧ cb < 5) ∧ cell (5 * ra + ca) = a ∧ cell (5 * rb + cb) = b ∧
    if ra = rb then x = cell (5 * ra + (ca + shift) % 5) ∧ y = cell (5 * rb + (cb + shift) % 5)
    else if ca = cb then x = cell (5 * ((ra + shift) % 5) + ca) ∧ y = cell (5 * ((rb + shift) % 5) + cb)
    else x = cell (5 * ra + cb) ∧ y = cell (5 * rb + ca)

/-- `TEXT_OUT` holds the digraph images of the symbol sequence `syms` in the square that `SQ` holds. -/
def DigraphsWritten (t : State) (shift : Nat) (syms : List Byte) : Prop :=
  ∀ q, 2 * q + 1 < syms.length →
    DigraphImage t.sqCell shift (syms.getD (2 * q) 0) (syms.getD (2 * q + 1) 0) (t.outByte (2 * q)) (t.outByte (2 * q + 1))

/-- `TEXT_OUT` holds the blocks of `syms`, each multiplied as a row vector by the `n × n` matrix `a` modulo 26
(44_hill.md R202, R203). -/
def BlocksWritten (t : State) (n : Nat) (a : Nat → Nat → ℤ) (syms : List Byte) : Prop :=
  ∀ q j, j < n → n * q + j < syms.length →
    ((t.outByte (n * q + j)).toNat : ℤ) =
      65 + (∑ i ∈ Finset.range n, (letterIndex (syms.getD (n * q + i) 0) : ℤ) * a i j) % 26

/-- `HILL_DET`, `HILL_DINV` and `INV` hold the determinant modulo 26, its modular inverse, and the inverse of the key
matrix modulo 26, zero outside the `n × n` block (44_hill.md R205, R206, R208, R212). -/
def InverseWritten (s t : State) (n : Nat) : Prop :=
  (t.hillDet.toNat : ℤ) = (keyMat s n).det % 26 ∧
  (1 ≤ t.hillDinv.toNat ∧ t.hillDinv.toNat < 26 ∧ t.hillDet.toNat * t.hillDinv.toNat % 26 = 1) ∧
  (∀ i j, i < 4 → j < 4 → (t.invCell i j).toNat < 26) ∧
  (∀ i j, i < n → j < n →
    (∑ k ∈ Finset.range n, s.keyMatrix i k * ((t.invCell k j).toNat : ℤ)) % 26 = if i = j then 1 else 0) ∧
  (∀ i j, i < 4 → j < 4 → n ≤ i ∨ n ≤ j → t.invCell i j = 0)

/-- The two states hold the same values of what command `i` reads (30_encoding.md R93). -/
def OperandsAgree (i : Instr) (s u : State) : Prop :=
  let key := s.keyLen = u.keyLen ∧ ∀ j, j < 256 → j < s.keyLength → s.keyByte j = u.keyByte j
  let text := s.inLen = u.inLen ∧ ∀ k, k < 1024 → k < s.inLength → s.textByte k = u.textByte k
  let matrix := s.rows = u.rows ∧ s.cols = u.cols ∧
    ∀ r c, r < 4 → c < 4 → r < s.rows.toNat → c < s.rows.toNat → s.matWord r c = u.matWord r c
  match i with
  | .vigEnc => key ∧ text
  | .vigDec => key ∧ text
  | .pfBuild => key
  | .pfEnc => key ∧ text
  | .pfDec => key ∧ text
  | .hillEnc => matrix ∧ text
  | .hillDec => matrix ∧ text
  | .hillInv => matrix

/-- Command `i` comes to the same result in both states, committed in each (40_command.md R122). -/
def SameResult (i : Instr) (s u : State) : Prop :=
  ∃ r : Eval Writes, exec i s = .next (commit r s) ∧ exec i u = .next (commit r u)

end Sys2Proof
end

