-- ==== Sys2Proof/Certificates/Slice0/Obligations.lean ====
section
/-! DEFINITION. The statements about the CCU, in the terms of Safety.lean. Each docstring names the rule of spec/ it
formalises; where a rule is marked "[derived: …]" in spec/, or a clause is the model's own choice, it says so. -/

open Sys2Proof Sys2Proof.Machine

/-! ## Reset -/

/-- 10_state.md R51, the table of reset values, every element. -/
def Obligations.ResetLeavesSpecValues : Prop :=
  let s := State.reset
  (s.ie = false ∧ s.keyMin = 12 ∧ (readAt 0x004 s).toNat = 0x00000C00) ∧
  (s.busy = false ∧ s.done = false ∧ s.err = false ∧ s.errcode = 0 ∧ s.werr = false ∧ s.aerr = false ∧
    readAt 0x008 s = 0) ∧
  (s.cmdLast = 0 ∧ s.pend = 0) ∧ (s.inLen = 0 ∧ s.keyLen = 0 ∧ s.outLen = 0) ∧ s.errpos = 0xFFFFFFFF ∧
  (s.rows = 2 ∧ s.cols = 2 ∧ (readAt 0x020 s).toNat = 0x00000202) ∧ (s.hillDet = 0 ∧ s.hillDinv = 0) ∧
  (∀ i j, i < 4 → j < 4 → s.matWord i j = 0 ∧ s.invCell i j = 0) ∧ (∀ k, k < 25 → s.sqCell k = 0) ∧
  (∀ j, j < 256 → s.keyByte j = 0) ∧ (∀ i, i < 1024 → s.textByte i = 0) ∧ (∀ i, i < 1028 → s.outByte i = 0)

/-- 70_reset_and_hazards.md R270, R271, 40_command.md R120: both reset sources, from every state, a pending command
among them, give every element of the CCU its reset value in one step. Of the environment's two fields (log entries 1
and 3) it says nothing. -/
def Obligations.BothResetsRestoreEveryElement : Prop :=
  ∀ s : State,
    (nextTurn s = .rst → ∃ w ts, step s = .next { State.reset with rdata := w, turns := ts }) ∧
    (∀ v : Word, v[1] = true → nextTurn s = .host (.write 0x004 4 v) →
      ∃ w ts, step s = .next { State.reset with rdata := w, turns := ts })

/-! ## Host accesses -/

/-- 20_memory.md R71: the map is a bijection between the registers and their aligned offsets, and exactly the
reserved ranges are unmapped. -/
def Obligations.RegisterMapIsOneToOne : Prop :=
  (∀ r : Reg, regAt (regOffset r) = some r ∧ (regOffset r).toNat % 4 = 0) ∧
  (∀ (off : Offset) (r : Reg), off.toNat % 4 = 0 → regAt off = some r → regOffset r = off) ∧
  (∀ off : Offset, off.toNat % 4 = 0 → (regAt off = none ↔ reservedOffset off.toNat))

/-- 10_state.md R24: `ID` reads 0x4343_5501 in every state, and a write changes nothing. -/
def Obligations.IdIsConstant : Prop :=
  ∀ (s : State) (v : Word), (hostAccess (.read 0x000 4) s).rdata.toNat = 0x43435501 ∧
    hostAccess (.write 0x000 4 v) s = s

/-- 10_state.md R27, R31, R34: the word `STATUS` reads as, every field at its bit, `KEYOK` and `IRQ` computed. -/
def Obligations.StatusReadsFieldsAtTheirBits : Prop :=
  ∀ s : State,
    (hostAccess (.read 0x008 4) s).rdata.toNat =
      s.busy.toNat + 2 * s.done.toNat + 4 * s.err.toNat + 16 * s.errcode.toNat +
        256 * (if s.keyMin.toNat ≤ s.keyLen.toNat then 1 else 0) + 512 * s.werr.toNat + 1024 * s.aerr.toNat +
        2048 * (s.ie.toNat * s.done.toNat)

/-- 10_state.md R29, R30, R32, R33: a write to `STATUS` clears exactly the write-1-to-clear fields whose bit is 1,
`ERRCODE` with `ERR`, whatever `BUSY` is, and changes nothing else. -/
def Obligations.StatusWriteOneClears : Prop :=
  ∀ (s : State) (v : Word),
    hostAccess (.write 0x008 4 v) s =
      { s with
        done := s.done && !v[1]
        err := s.err && !v[2]
        errcode := if v[2] then 0 else s.errcode
        werr := s.werr && !v[9]
        aerr := s.aerr && !v[10] }

/-- 10_state.md R26: a write to `CTRL` resets where bit 1 is 1, its other bits discarded; else it stores `IE` and
`KEY_MIN` and nothing else. `CTRL` then reads its reset value, or the two fields, all other bits 0. -/
def Obligations.CtrlWriteResetsOrStores : Prop :=
  ∀ (s : State) (v : Word),
    (v[1] = true →
      (∃ w ts, hostAccess (.write 0x004 4 v) s = { State.reset with rdata := w, turns := ts }) ∧
      (hostAccess (.read 0x004 4) (hostAccess (.write 0x004 4 v) s)).rdata.toNat = 0x00000C00) ∧
    (v[1] = false →
      hostAccess (.write 0x004 4 v) s = { s with ie := v[0], keyMin := v.extractLsb' 8 8 }) ∧
    (hostAccess (.read 0x004 4) s).rdata.toNat = s.ie.toNat + 256 * s.keyMin.toNat

/-- 40_command.md R110: a write to `CMD` while idle accepts any word as a command, and changes exactly the seven
elements listed; `CMD` then reads the word (10_state.md R35). -/
def Obligations.IdleCmdWriteIsAccepted : Prop :=
  ∀ (s : State) (v : Word), s.busy = false →
    hostAccess (.write 0x00C 4 v) s =
      { s with
        cmdLast := v
        pend := v
        busy := true
        done := false
        err := false
        errcode := 0
        errpos := 0xFFFFFFFF } ∧
    (hostAccess (.read 0x00C 4) (hostAccess (.write 0x00C 4 v) s)).rdata = v

/-- 40_command.md R111: while a command is pending, a write to `CMD` or to an operand changes no register or buffer
and sets `WERR`; writes to `CTRL` and `STATUS` are performed; writes to read-only and unmapped offsets change nothing;
reads are performed. -/
def Obligations.PendingCommandRejectsOperandWrites : Prop :=
  ∀ (s : State) (off : Offset) (v : Word), s.busy = true →
    (operandOffset off.toNat → hostAccess (.write off 4 v) s = { s with werr := true }) ∧
    (readOnlyOffset off.toNat ∨ reservedOffset off.toNat → hostAccess (.write off 4 v) s = s) ∧
    (v[1] = false → hostAccess (.write 0x004 4 v) s = { s with ie := v[0], keyMin := v.extractLsb' 8 8 }) ∧
    (v[1] = true → (hostAccess (.write 0x004 4 v) s).busy = false) ∧
    hostAccess (.write 0x008 4 v) s =
      { s with
        done := s.done && !v[1]
        err := s.err && !v[2]
        errcode := if v[2] then 0 else s.errcode
        werr := s.werr && !v[9]
        aerr := s.aerr && !v[10] } ∧
    (off.toNat % 4 = 0 → hostAccess (.read off 4) s = { s with rdata := readAt off s })

/-- 20_memory.md R73: an access that is not 32 bits wide or not aligned is performed on no register, reads 0, and sets
`AERR`, whatever `BUSY` is. -/
def Obligations.MalformedAccessOnlySetsAerr : Prop :=
  ∀ (s : State) (off : Offset) (width : Nat) (v : Word), ¬(width = 4 ∧ off.toNat % 4 = 0) →
    hostAccess (.write off width v) s = { s with aerr := true } ∧
    hostAccess (.read off width) s = { s with rdata := 0, aerr := true }

/-- 20_memory.md R74: an aligned access to a reserved offset reads 0 and writes nothing, a write to a read-only
register writes nothing, and no flag is set, whatever `BUSY` is; and the bits of `CTRL`, `STATUS`, `IN_LEN`, `KEY_LEN`
and `HILL_DIM` that no writable field holds have no effect in a write. -/
def Obligations.ReservedAndReadOnlyOffsetsIgnoreWrites : Prop :=
  ∀ (s : State) (off : Offset) (v : Word),
    (reservedOffset off.toNat →
      hostAccess (.read off 4) s = { s with rdata := 0 } ∧ hostAccess (.write off 4 v) s = s) ∧
    (readOnlyOffset off.toNat → hostAccess (.write off 4 v) s = s) ∧
    hostAccess (.write 0x004 4 v) s = hostAccess (.write 0x004 4 (v &&& 0x0000FF03)) s ∧
    hostAccess (.write 0x008 4 v) s = hostAccess (.write 0x008 4 (v &&& 0x00000606)) s ∧
    hostAccess (.write 0x010 4 v) s = hostAccess (.write 0x010 4 (v &&& 0x0000FFFF)) s ∧
    hostAccess (.write 0x014 4 v) s = hostAccess (.write 0x014 4 (v &&& 0x0000FFFF)) s ∧
    hostAccess (.write 0x020 4 v) s = hostAccess (.write 0x020 4 (v &&& 0x00000F0F)) s

/-- 20_memory.md R78: a read changes no element of the CCU, and may be repeated with the same result. -/
def Obligations.ReadsMayBeRepeated : Prop :=
  ∀ (s : State) (off off' : Offset), off.toNat % 4 = 0 → off'.toNat % 4 = 0 →
    ∃ w w' : Word,
      hostAccess (.read off 4) s = { s with rdata := w } ∧
      hostAccess (.read off' 4) (hostAccess (.read off 4) s) = { s with rdata := w' } ∧
      hostAccess (.read off 4) (hostAccess (.read off' 4) (hostAccess (.read off 4) s)) = { s with rdata := w }

/-- 20_memory.md R75: every byte of the three buffers stands in its word little-endian. -/
def Obligations.BuffersAreLittleEndian : Prop :=
  ∀ s : State,
    (∀ b, b < 256 →
      s.keyByte b = (hostAccess (.read (BitVec.ofNat 12 (0x200 + 4 * (b / 4))) 4) s).rdata.extractLsb' (8 * (b % 4)) 8) ∧
    (∀ b, b < 1024 →
      s.textByte b = (hostAccess (.read (BitVec.ofNat 12 (0x400 + 4 * (b / 4))) 4) s).rdata.extractLsb' (8 * (b % 4)) 8) ∧
    (∀ b, b < 1028 →
      s.outByte b = (hostAccess (.read (BitVec.ofNat 12 (0x800 + 4 * (b / 4))) 4) s).rdata.extractLsb' (8 * (b % 4)) 8)

/-- 10_state.md R46, R47: a word written to `KEY` or `TEXT_IN` while idle stores its four bytes, and changes no other
byte and no other element. -/
def Obligations.BufferWriteStoresFourBytes : Prop :=
  ∀ (s : State) (w : Nat) (v : Word), s.busy = false →
    (w < 64 →
      ∃ m, hostAccess (.write (BitVec.ofNat 12 (0x200 + 4 * w)) 4 v) s = { s with mem := m } ∧
        (∀ b, b < 4 → Memory.read m (0x200 + 4 * w + b) = v.extractLsb' (8 * b) 8) ∧
        ∀ a, ¬(0x200 + 4 * w ≤ a ∧ a < 0x200 + 4 * w + 4) → Memory.read m a = Memory.read s.mem a) ∧
    (w < 256 →
      ∃ m, hostAccess (.write (BitVec.ofNat 12 (0x400 + 4 * w)) 4 v) s = { s with mem := m } ∧
        (∀ b, b < 4 → Memory.read m (0x400 + 4 * w + b) = v.extractLsb' (8 * b) 8) ∧
        ∀ a, ¬(0x400 + 4 * w ≤ a ∧ a < 0x400 + 4 * w + 4) → Memory.read m a = Memory.read s.mem a)

/-- 10_state.md R36, R37, R40: a length or dimension register written while idle stores the low bits of its fields and
changes nothing else, and reads back what was stored, reserved bits 0. -/
def Obligations.LengthAndDimensionWritesReadBack : Prop :=
  ∀ (s : State) (v : Word), s.busy = false →
    (hostAccess (.write 0x010 4 v) s = { s with inLen := BitVec.ofNat 16 v.toNat } ∧
      (hostAccess (.read 0x010 4) (hostAccess (.write 0x010 4 v) s)).rdata.toNat = v.toNat % 65536) ∧
    (hostAccess (.write 0x014 4 v) s = { s with keyLen := BitVec.ofNat 16 v.toNat } ∧
      (hostAccess (.read 0x014 4) (hostAccess (.write 0x014 4 v) s)).rdata.toNat = v.toNat % 65536) ∧
    (hostAccess (.write 0x020 4 v) s =
        { s with rows := BitVec.ofNat 4 v.toNat, cols := BitVec.ofNat 4 (v.toNat / 256) } ∧
      (hostAccess (.read 0x020 4) (hostAccess (.write 0x020 4 v) s)).rdata.toNat =
        v.toNat % 16 + 256 * (v.toNat / 256 % 16))

/-- 10_state.md R43: a word written to `MAT[i][j]` while idle is that element's new value, the other elements and
everything else stay, and the element reads back as written. -/
def Obligations.MatrixWriteStoresOneElement : Prop :=
  ∀ (s : State) (i j : Nat) (v : Word), s.busy = false → i < 4 → j < 4 →
    ∃ m, hostAccess (.write (BitVec.ofNat 12 (0x040 + 16 * i + 4 * j)) 4 v) s = { s with mat := m } ∧
      ({ s with mat := m } : State).matWord i j = v ∧
      (∀ i' j', i' < 4 → j' < 4 → ¬(i' = i ∧ j' = j) → ({ s with mat := m } : State).matWord i' j' = s.matWord i' j') ∧
      (hostAccess (.read (BitVec.ofNat 12 (0x040 + 16 * i + 4 * j)) 4) { s with mat := m }).rdata = v

/-- 10_state.md R38, R39, R41, R42, R44, R45: what the read-only result registers read as. -/
def Obligations.ResultRegistersReadTheirElements : Prop :=
  ∀ s : State,
    (hostAccess (.read 0x018 4) s).rdata.toNat = s.outLen.toNat ∧
    (hostAccess (.read 0x01C 4) s).rdata = s.errpos ∧
    (hostAccess (.read 0x024 4) s).rdata.toNat = s.hillDet.toNat ∧
    (hostAccess (.read 0x028 4) s).rdata.toNat = s.hillDinv.toNat ∧
    (∀ i j, i < 4 → j < 4 →
      (hostAccess (.read (BitVec.ofNat 12 (0x080 + 16 * i + 4 * j)) 4) s).rdata.toNat = (s.invCell i j).toNat) ∧
    (∀ k, k < 25 → (hostAccess (.read (BitVec.ofNat 12 (0x100 + 4 * k)) 4) s).rdata.toNat = (s.sqCell k).toNat)

/-! ## Decoding -/

/-- 30_encoding.md R92: the eight words of the opcode map, written out, decode to their commands, and three illegal
words to none. -/
def Obligations.WrittenOutWordsDecode : Prop :=
  decode 0b00000000000000000000000000000001#32 = .ok .vigEnc ∧
  decode 0b00000000000000000000000000000010#32 = .ok .vigDec ∧
  decode 0b00000000000000000000000000010000#32 = .ok .pfBuild ∧
  decode 0b00000000000000000000000000010001#32 = .ok .pfEnc ∧
  decode 0b00000000000000000000000000010010#32 = .ok .pfDec ∧
  decode 0b00000000000000000000000000100000#32 = .ok .hillEnc ∧
  decode 0b00000000000000000000000000100001#32 = .ok .hillDec ∧
  decode 0b00000000000000000000000000100010#32 = .ok .hillInv ∧
  decode 0x00000000 = .error .unassignedOpcode ∧ decode 0x00000003 = .error .unassignedOpcode ∧
  decode 0x00000101 = .error .reservedFieldNotZero

/-- 30_encoding.md R91, R92: a word decodes to a command exactly when it is that command's encoding, so no bit of a
command word is ignored and every command has one word. -/
def Obligations.DecodeAndEncodeAgree : Prop :=
  ∀ (w : Word) (i : Instr), decode w = .ok i ↔ w = encode i ∧ i.wf = true

/-- 30_encoding.md R95: the illegal words are exactly those with a nonzero reserved field, and those whose opcode the
map does not list. -/
def Obligations.IllegalWordsAreExactlyTheSpecs : Prop :=
  ∀ w : Word,
    (decode w = .error .reservedFieldNotZero ↔ 256 ≤ w.toNat) ∧
    (decode w = .error .unassignedOpcode ↔
      w.toNat < 256 ∧ w.toNat ∉ [0x01, 0x02, 0x10, 0x11, 0x12, 0x20, 0x21, 0x22]) ∧
    ((∃ i, decode w = .ok i) ↔ legalCommandWord w = true)

/-! ## Steps -/

/-- 40_command.md R112: with a command pending and the sequencer's turn next (its turn, or no turn left; log entry 1),
a step is `exec` of the decoded command on the current state, that turn taken off the list. -/
def Obligations.StepRunsThePendingCommand : Prop :=
  ∀ (s : State) (i : Instr), s.busy = true → nextTurn s = .sequencer → decode s.pend = .ok i → i.wf = true →
    step s = exec i (popTurn s)

/-- 20_memory.md R79, 40_command.md R123: a host access that is next is performed on the state left by the turn
before it. That the sequencer's turn passes while nothing is pending is the model's choice (log entry 2). -/
def Obligations.StepPerformsTheNextTurn : Prop :=
  ∀ (s : State) (a : Access),
    (nextTurn s = .host a → step s = .next (hostAccess a (popTurn s))) ∧
    (nextTurn s = .sequencer → s.busy = false → step s = .next (popTurn s))

/-- 40_command.md R117, 60_exceptions.md R246: a pending illegal word completes as IllegalCommand, code 5, no
position, whatever the state. -/
def Obligations.IllegalWordCompletesWithCodeFive : Prop :=
  ∀ s : State, s.busy = true → nextTurn s = .sequencer → legalCommandWord s.pend = false →
    step s = .next (errorState 5 0xFFFFFFFF (popTurn s))

/-- Every step leads to a next state: no access, command or word stops the CCU (60_exceptions.md R240, 20_memory.md
R73, R74, 40_command.md R122). -/
def Obligations.NoStepStops : Prop := ∀ s : State, ∃ t, step s = .next t

/-- After the turns on the list and one more, no command is pending, whether it completed or a listed reset discarded it
(40_command.md R113, R120). The step after the last turn is the model's form of weak fairness (log entry 1). -/
def Obligations.NothingIsPendingAfterTheTurns : Prop :=
  ∀ s : State, ∃ t : State, Host.Core.run Sys2Proof.core (s.turns.length + 1) s = .next t ∧ t.busy = false ∧ t.turns = []

/-! ## The commands -/

/-- 42_vigenere.md R150 (with R152, R153, 40_command.md R116, R121): `VIG_ENC`, its errors in order and its result. -/
def Obligations.VigEncCompletes : Prop :=
  ∀ s : State,
    (256 < s.keyLength → exec .vigEnc s = .next (errorState 1 0xFFFFFFFF s)) ∧
    (s.keyLength = 0 → exec .vigEnc s = .next (errorState 1 0xFFFFFFFF s)) ∧
    (∀ j, s.keyLength ≤ 256 → FirstBadKey s j → exec .vigEnc s = .next (errorState 1 (BitVec.ofNat 32 j) s)) ∧
    (VigKeyGood s → 1024 < s.inLength → exec .vigEnc s = .next (errorState 3 0xFFFFFFFF s)) ∧
    (VigKeyGood s → s.inLength ≤ 1024 →
      ∃ t, exec .vigEnc s = .next t ∧ CommitFrame s t ∧ KeepsInverse s t ∧ t.sq = s.sq ∧
        KeepsBytesOutsideTextOut s t ∧ OutputLength t s.inLength ∧
        ∀ i, i < s.inLength →
          if isLetter (s.textByte i) then
            (t.outByte i).toNat =
              65 + (letterIndex (s.textByte i) + letterIndex (s.keyByte (i % s.keyLength))) % 26
          else t.outByte i = s.textByte i)

/-- 42_vigenere.md R151: `VIG_DEC`, its errors in order and its result. -/
def Obligations.VigDecCompletes : Prop :=
  ∀ s : State,
    (256 < s.keyLength → exec .vigDec s = .next (errorState 1 0xFFFFFFFF s)) ∧
    (s.keyLength = 0 → exec .vigDec s = .next (errorState 1 0xFFFFFFFF s)) ∧
    (∀ j, s.keyLength ≤ 256 → FirstBadKey s j → exec .vigDec s = .next (errorState 1 (BitVec.ofNat 32 j) s)) ∧
    (VigKeyGood s → 1024 < s.inLength → exec .vigDec s = .next (errorState 3 0xFFFFFFFF s)) ∧
    (VigKeyGood s → s.inLength ≤ 1024 →
      ∃ t, exec .vigDec s = .next t ∧ CommitFrame s t ∧ KeepsInverse s t ∧ t.sq = s.sq ∧
        KeepsBytesOutsideTextOut s t ∧ OutputLength t s.inLength ∧
        ∀ i, i < s.inLength →
          if isLetter (s.textByte i) then
            (t.outByte i).toNat =
              65 + (letterIndex (s.textByte i) + 26 - letterIndex (s.keyByte (i % s.keyLength))) % 26
          else t.outByte i = s.textByte i)

/-- 43_playfair.md R174: `PF_BUILD`, its one error and its result; `IN_LEN` and `TEXT_IN` play no part. -/
def Obligations.PfBuildCompletes : Prop :=
  ∀ s : State,
    (256 < s.keyLength → exec .pfBuild s = .next (errorState 1 0xFFFFFFFF s)) ∧
    (s.keyLength ≤ 256 →
      ∃ t, exec .pfBuild s = .next t ∧ CommitFrame s t ∧ KeepsInverse s t ∧ KeepsBytes s t ∧ t.outLen = s.outLen ∧
        t.sq.toList = buildSquare (s.keyBytes s.keyLength))

/-- 43_playfair.md R175: `PF_ENC`, its errors in order and its result: the square of the key, and the images of the
padded text's digraphs in it. -/
def Obligations.PfEncCompletes : Prop :=
  ∀ s : State,
    (256 < s.keyLength → exec .pfEnc s = .next (errorState 1 0xFFFFFFFF s)) ∧
    (s.keyLength ≤ 256 → 1024 < s.inLength → exec .pfEnc s = .next (errorState 3 0xFFFFFFFF s)) ∧
    (∀ i, s.keyLength ≤ 256 → s.inLength ≤ 1024 → FirstBadText s i →
      exec .pfEnc s = .next (errorState 3 (BitVec.ofNat 32 i) s)) ∧
    (s.keyLength ≤ 256 → s.inLength ≤ 1024 → TextClean s →
      ∃ t, exec .pfEnc s = .next t ∧ CommitFrame s t ∧ KeepsInverse s t ∧ KeepsBytesOutsideTextOut s t ∧
        t.sq.toList = buildSquare (s.keyBytes s.keyLength) ∧
        OutputLength t (paddedTo 2 (textLetters (fun b => foldJ (upper b)) s)).length ∧
        DigraphsWritten t 1 (paddedTo 2 (textLetters (fun b => foldJ (upper b)) s)))

/-- 43_playfair.md R176: `PF_DEC`, its errors in order and its result. -/
def Obligations.PfDecCompletes : Prop :=
  ∀ s : State,
    (256 < s.keyLength → exec .pfDec s = .next (errorState 1 0xFFFFFFFF s)) ∧
    (s.keyLength ≤ 256 → 1024 < s.inLength → exec .pfDec s = .next (errorState 3 0xFFFFFFFF s)) ∧
    (∀ i, s.keyLength ≤ 256 → s.inLength ≤ 1024 → FirstBadText s i →
      exec .pfDec s = .next (errorState 3 (BitVec.ofNat 32 i) s)) ∧
    (s.keyLength ≤ 256 → s.inLength ≤ 1024 → TextClean s →
      (textLetters (fun b => foldJ (upper b)) s).length % 2 = 1 →
      exec .pfDec s = .next (errorState 3 0xFFFFFFFF s)) ∧
    (s.keyLength ≤ 256 → s.inLength ≤ 1024 → TextClean s →
      (textLetters (fun b => foldJ (upper b)) s).length % 2 = 0 →
      ∃ t, exec .pfDec s = .next t ∧ CommitFrame s t ∧ KeepsInverse s t ∧ KeepsBytesOutsideTextOut s t ∧
        t.sq.toList = buildSquare (s.keyBytes s.keyLength) ∧
        OutputLength t (textLetters (fun b => foldJ (upper b)) s).length ∧
        DigraphsWritten t 4 (textLetters (fun b => foldJ (upper b)) s))

/-- 44_hill.md R209 (with R200, R202, R203, R215): `HILL_ENC`, its errors in order and its result for every key of a
legal dimension, invertible or not. -/
def Obligations.HillEncCompletes : Prop :=
  ∀ s : State,
    (s.rows ≠ s.cols → exec .hillEnc s = .next (errorState 1 0xFFFFFFFF s)) ∧
    (s.rows.toNat = 0 ∨ 4 < s.rows.toNat → exec .hillEnc s = .next (errorState 1 0xFFFFFFFF s)) ∧
    (∀ n, HillDimIs s n → 1024 < s.inLength → exec .hillEnc s = .next (errorState 3 0xFFFFFFFF s)) ∧
    (∀ n i, HillDimIs s n → s.inLength ≤ 1024 → FirstBadText s i →
      exec .hillEnc s = .next (errorState 3 (BitVec.ofNat 32 i) s)) ∧
    (∀ n, HillDimIs s n → s.inLength ≤ 1024 → TextClean s →
      ∃ t, exec .hillEnc s = .next t ∧ CommitFrame s t ∧ KeepsInverse s t ∧ t.sq = s.sq ∧
        KeepsBytesOutsideTextOut s t ∧ OutputLength t (paddedTo n (textLetters upper s)).length ∧
        BlocksWritten t n s.keyMatrix (paddedTo n (textLetters upper s)))

/-- 44_hill.md R210 (with R205, R206, R208, R212): `HILL_DEC`, its errors in order and its result: the inverse key
matrix modulo 26 and the blocks multiplied by it. -/
def Obligations.HillDecCompletes : Prop :=
  ∀ s : State,
    (s.rows ≠ s.cols → exec .hillDec s = .next (errorState 1 0xFFFFFFFF s)) ∧
    (s.rows.toNat = 0 ∨ 4 < s.rows.toNat → exec .hillDec s = .next (errorState 1 0xFFFFFFFF s)) ∧
    (∀ n, HillDimIs s n → Int.gcd (keyMat s n).det 26 ≠ 1 → exec .hillDec s = .next (errorState 2 0xFFFFFFFF s)) ∧
    (∀ n, HillDimIs s n → Int.gcd (keyMat s n).det 26 = 1 → 1024 < s.inLength →
      exec .hillDec s = .next (errorState 3 0xFFFFFFFF s)) ∧
    (∀ n i, HillDimIs s n → Int.gcd (keyMat s n).det 26 = 1 → s.inLength ≤ 1024 → FirstBadText s i →
      exec .hillDec s = .next (errorState 3 (BitVec.ofNat 32 i) s)) ∧
    (∀ n, HillDimIs s n → Int.gcd (keyMat s n).det 26 = 1 → s.inLength ≤ 1024 → TextClean s →
      (textLetters upper s).length % n ≠ 0 → exec .hillDec s = .next (errorState 3 0xFFFFFFFF s)) ∧
    (∀ n, HillDimIs s n → Int.gcd (keyMat s n).det 26 = 1 → s.inLength ≤ 1024 → TextClean s →
      (textLetters upper s).length % n = 0 →
      ∃ t, exec .hillDec s = .next t ∧ CommitFrame s t ∧ t.sq = s.sq ∧ KeepsBytesOutsideTextOut s t ∧
        InverseWritten s t n ∧ OutputLength t (textLetters upper s).length ∧
        BlocksWritten t n (fun i j => ((t.invCell i j).toNat : ℤ)) (textLetters upper s))

/-- 44_hill.md R211 (with R205, R206, R208, R212): `HILL_INV`, its errors in order and its result. -/
def Obligations.HillInvCompletes : Prop :=
  ∀ s : State,
    (s.rows ≠ s.cols → exec .hillInv s = .next (errorState 1 0xFFFFFFFF s)) ∧
    (s.rows.toNat = 0 ∨ 4 < s.rows.toNat → exec .hillInv s = .next (errorState 1 0xFFFFFFFF s)) ∧
    (∀ n, HillDimIs s n → Int.gcd (keyMat s n).det 26 ≠ 1 → exec .hillInv s = .next (errorState 2 0xFFFFFFFF s)) ∧
    (∀ n, HillDimIs s n → Int.gcd (keyMat s n).det 26 = 1 →
      ∃ t, exec .hillInv s = .next t ∧ CommitFrame s t ∧ t.sq = s.sq ∧ KeepsBytes s t ∧ t.outLen = s.outLen ∧
        InverseWritten s t n)

/-- 30_encoding.md R93, 40_command.md R114, R115: every command, whether it ends in success or in error, ends with
`DONE = 1` and `BUSY = 0` and leaves every operand and every element a command does not write. -/
def Obligations.CommandsKeepOperandsAndControl : Prop :=
  ∀ (i : Instr) (s : State), ∃ t, exec i s = .next t ∧ t.done = true ∧ t.busy = false ∧
    (t.ie = s.ie ∧ t.keyMin = s.keyMin ∧ t.werr = s.werr ∧ t.aerr = s.aerr ∧ t.cmdLast = s.cmdLast ∧ t.pend = s.pend) ∧
    (t.inLen = s.inLen ∧ t.keyLen = s.keyLen ∧ t.rows = s.rows ∧ t.cols = s.cols ∧ t.mat = s.mat) ∧
    (t.rdata = s.rdata ∧ t.turns = s.turns) ∧ KeepsBytesOutsideTextOut s t

/-! ## The ciphers -/

/-- 43_playfair.md R178, which spec/ derives from R170 and R171: the square of any key holds each symbol of the
25-letter alphabet exactly once, the key's distinct letters first, in order of first occurrence, then the others in
alphabet order. -/
def Obligations.SquareHoldsEachLetterOnce : Prop :=
  ∀ key : List Byte, ∃ first : List Byte,
    buildSquare key = first ++ a25.filter (fun s => decide (s ∉ first)) ∧
    (∀ s, s ∈ first ↔ s ∈ pfKeyLetters key) ∧
    first.Pairwise (fun a b => (pfKeyLetters key).idxOf a < (pfKeyLetters key).idxOf b) ∧
    (buildSquare key).length = 25 ∧ (buildSquare key).Nodup ∧ ∀ s, s ∈ buildSquare key ↔ s ∈ a25

/-- 43_playfair.md R177: a doubled letter maps to the doubled letter of the cell to its right (encrypt) or to its left
(decrypt), in the square of any key. -/
def Obligations.DoubledLettersStayDoubled : Prop :=
  ∀ (key : List Byte) (row col : Nat), row < 5 → col < 5 →
    let cell := fun k => (buildSquare key).getD k 0
    mapDigraph (buildSquare key) 1 (cell (5 * row + col)) (cell (5 * row + col)) =
        .ok (cell (5 * row + (col + 1) % 5), cell (5 * row + (col + 1) % 5)) ∧
      mapDigraph (buildSquare key) (-1) (cell (5 * row + col)) (cell (5 * row + col)) =
        .ok (cell (5 * row + (col + 4) % 5), cell (5 * row + (col + 4) % 5))

/-- 43_playfair.md R180, 60_exceptions.md R245, which spec/ derives: no command ever reports InvalidState. -/
def Obligations.InvalidStateIsNeverRaised : Prop :=
  ∀ (i : Instr) (s t : State), exec i s = .next t → t.err = true → s.err = false → t.errcode ≠ 4

/-- 42_vigenere.md R154, which spec/ derives from R150 to R152: for every text, non-letters included, and every key
the check passes, encryption and then decryption of what it wrote, under the same key, give the text upper-cased. -/
def Obligations.VigenereRoundTrip : Prop :=
  ∀ s t u : State, VigKeyGood s → s.inLength ≤ 1024 → exec .vigEnc s = .next t →
    u.keyLen = s.keyLen → (∀ j, j < s.keyLength → u.keyByte j = s.keyByte j) →
    u.inLen = t.outLen → (∀ i, i < t.outLen.toNat → u.textByte i = t.outByte i) →
    ∃ v, exec .vigDec u = .next v ∧ v.err = u.err ∧ v.outLen = s.inLen ∧
      ∀ i, i < s.inLength → v.outByte i = if isLetter (s.textByte i) then upper (s.textByte i) else s.textByte i

/-- 43_playfair.md R179, which spec/ derives from R173, R175, R176: for every text of letters and whitespace and every
key, doubled letters included, decryption of what encryption wrote gives the padded, normalized text. -/
def Obligations.PlayfairRoundTrip : Prop :=
  ∀ s t u : State, s.keyLength ≤ 256 → s.inLength ≤ 1024 → TextClean s → exec .pfEnc s = .next t →
    u.keyLen = s.keyLen → (∀ j, j < s.keyLength → u.keyByte j = s.keyByte j) →
    u.inLen = t.outLen → (∀ i, i < t.outLen.toNat → u.textByte i = t.outByte i) →
    ∃ v, exec .pfDec u = .next v ∧ v.err = u.err ∧
      v.outBytes v.outLen.toNat = paddedTo 2 (textLetters (fun b => foldJ (upper b)) s)

/-- 44_hill.md R213, which spec/ derives from R203, R208 to R210: for every text of letters and whitespace and every
key invertible modulo 26, decryption of what encryption wrote gives the padded, normalized text, where that fits
`TEXT_IN` (for `n = 3` and 1024 letters it has 1026 bytes, and `HILL_DEC` refuses it by R121; log entry 13). -/
def Obligations.HillRoundTrip : Prop :=
  ∀ (s t u : State) (n : Nat), HillDimIs s n → Int.gcd (keyMat s n).det 26 = 1 → s.inLength ≤ 1024 → TextClean s →
    exec .hillEnc s = .next t →
    u.rows = s.rows → u.cols = s.cols → (∀ i j, i < n → j < n → u.matWord i j = s.matWord i j) →
    t.outLen.toNat ≤ 1024 → u.inLen = t.outLen → (∀ i, i < t.outLen.toNat → u.textByte i = t.outByte i) →
    ∃ v, exec .hillDec u = .next v ∧ v.err = u.err ∧ v.outBytes v.outLen.toNat = paddedTo n (textLetters upper s)


/-! ## Hill arithmetic -/

/-- 44_hill.md R204, the standard definition spec/ takes from general knowledge: the cofactor expansion is the
determinant. -/
def Obligations.CofactorExpansionIsTheDeterminant : Prop :=
  ∀ (n : Nat) (a : Mat), 1 ≤ n → det n a = (Matrix.of fun i j : Fin n => a i.val j.val).det

/-- 44_hill.md R206: for each of the twelve units the inverse is the one `x` in [1, 26) with `(d · x) mod26 = 1`, and
it is the table's. -/
def Obligations.ModularInversesAreTheTables : Prop :=
  (∀ d : Nat, d < 26 → Nat.gcd d 26 = 1 → ∀ x : Nat, x < 26 → (d * x % 26 = 1 ↔ modInverse d = x)) ∧
  ([1, 3, 5, 7, 9, 11, 15, 17, 19, 21, 23, 25].map fun d : Nat => modInverse d) =
    [1, 9, 21, 15, 3, 19, 7, 23, 11, 5, 17, 25]

/-- 44_hill.md R208, which spec/ derives: the solver fails exactly on the keys whose determinant shares a factor with
26, and otherwise gives a two-sided inverse modulo 26 with elements in [0, 26). -/
def Obligations.SolverGivesTwoSidedInverse : Prop :=
  ∀ (n : Nat) (k : Mat), 1 ≤ n → n ≤ 4 →
    let m : Matrix (Fin n) (Fin n) ℤ := Matrix.of fun i j => k i.val j.val
    (Int.gcd m.det 26 ≠ 1 → hillInverse n k = .error ⟨.nonInvertibleKey, none⟩) ∧
    (Int.gcd m.det 26 = 1 → ∃ v, hillInverse n k = .ok v ∧ v.d = m.det % 26 ∧
      ∀ i j, i < n → j < n →
        0 ≤ v.kinv i j ∧ v.kinv i j < 26 ∧
        (∑ l ∈ Finset.range n, k i l * v.kinv l j) % 26 = (if i = j then 1 else 0) ∧
        (∑ l ∈ Finset.range n, v.kinv i l * k l j) % 26 = (if i = j then 1 else 0))

/-- 44_hill.md R203, R205, R214: two key matrices that agree modulo 26, element by element, come to the same result in
every command, whatever the elements' sign and size. -/
def Obligations.HillReadsTheMatrixModulo26 : Prop :=
  ∀ (i : Instr) (s : State) (m : Vector Word 16),
    (∀ r c, r < 4 → c < 4 → ({ s with mat := m } : State).keyMatrix r c % 26 = s.keyMatrix r c % 26) →
    SameResult i s { s with mat := m }

/-! ## The lifecycle as a whole -/

/-- 40_command.md R118, which spec/ derives from R110, R111, R122: whatever accesses the host performs while a command
is pending, short of a reset, the command stays pending and every command would come to the result it had before. -/
def Obligations.PendingOperandsAreStable : Prop :=
  ∀ (s : State) (l : List Access), s.busy = true → (∀ a ∈ l, ∀ v : Word, a = .write 0x004 4 v → v[1] = false) →
    (l.foldl (fun u a => hostAccess a u) s).busy = true ∧ (l.foldl (fun u a => hostAccess a u) s).pend = s.pend ∧
      ∀ i, SameResult i s (l.foldl (fun u a => hostAccess a u) s)

/-- 40_command.md R119, which spec/ derives from R110, R112, R114, R115: from acceptance until the commit, whatever the
host does short of a reset, the result elements keep their pre-command values and `ERRPOS` is 0xFFFF_FFFF. -/
def Obligations.ResultsKeepPreCommandValuesUntilCommit : Prop :=
  ∀ (s : State) (w : Word) (l : List Access), s.busy = false →
    (∀ a ∈ l, ∀ v : Word, a = .write 0x004 4 v → v[1] = false) →
    let u := l.foldl (fun u a => hostAccess a u) (hostAccess (.write 0x00C 4 w) s)
    u.busy = true ∧ u.pend = w ∧ u.done = false ∧ u.err = false ∧ u.errpos = 0xFFFFFFFF ∧
      u.outLen = s.outLen ∧ (∀ i, i < 1028 → u.outByte i = s.outByte i) ∧ u.sq = s.sq ∧ KeepsInverse s u

/-- 10_state.md R38, R41, R42, R44, R45, R48: short of a reset, a result element changes only at the completion of a
command that writes it. -/
def Obligations.ResultsChangeOnlyAtTheirCommandsCommit : Prop :=
  ∀ s t : State, step s = .next t → ¬resetsNext s →
    (t.outLen ≠ s.outLen → completesNext s) ∧
    ((∃ i, i < 1028 ∧ t.outByte i ≠ s.outByte i) → completesNext s ∧
      ∃ i ∈ [Instr.vigEnc, .vigDec, .pfEnc, .pfDec, .hillEnc, .hillDec], decode s.pend = .ok i) ∧
    (t.sq ≠ s.sq → completesNext s ∧ ∃ i ∈ [Instr.pfBuild, .pfEnc, .pfDec], decode s.pend = .ok i) ∧
    (¬KeepsInverse s t → completesNext s ∧ ∃ i ∈ [Instr.hillDec, .hillInv], decode s.pend = .ok i)

/-- 10_state.md R28: `BUSY` rises only by acceptance, which latches the word, and falls only by the commit or a reset. -/
def Obligations.BusyRisesByAcceptanceFallsByCommitOrReset : Prop :=
  ∀ s t : State, step s = .next t →
    (s.busy = false → (t.busy = true ↔ ∃ v : Word, nextTurn s = .host (.write 0x00C 4 v))) ∧
    (s.busy = false → ∀ v : Word, nextTurn s = .host (.write 0x00C 4 v) → t.pend = v) ∧
    (s.busy = true → (t.busy = false ↔ completesNext s ∨ resetsNext s)) ∧
    (s.busy = true → t.busy = true → t.pend = s.pend)

/-- 10_state.md R29: `DONE` is set by every commit and by nothing else, and cleared by acceptance, by a write of 1 to
bit 1 of `STATUS` and by reset, and by nothing else. -/
def Obligations.DoneIsSetByCommitsOnly : Prop :=
  ∀ s t : State, step s = .next t →
    (completesNext s → t.done = true) ∧
    (s.done = false → t.done = true → completesNext s) ∧
    (s.done = true → (t.done = false ↔
      resetsNext s ∨ (∃ v : Word, nextTurn s = .host (.write 0x008 4 v) ∧ v[1] = true) ∨
        (s.busy = false ∧ ∃ v : Word, nextTurn s = .host (.write 0x00C 4 v))))

/-- 10_state.md R32: `WERR` is set by a rejected write, cleared by a write of 1 to bit 9 of `STATUS` and by reset, and
changed by nothing else. -/
def Obligations.WerrIsSetByRejectedWritesOnly : Prop :=
  ∀ s t : State, step s = .next t →
    (s.werr = false → (t.werr = true ↔
      s.busy = true ∧ ∃ (off : Offset) (v : Word), nextTurn s = .host (.write off 4 v) ∧ operandOffset off.toNat)) ∧
    (s.werr = true → (t.werr = false ↔
      resetsNext s ∨ ∃ v : Word, nextTurn s = .host (.write 0x008 4 v) ∧ v[9] = true))

/-- 10_state.md R33: `AERR` is set by a malformed access, cleared by a write of 1 to bit 10 of `STATUS` and by reset,
and changed by nothing else. -/
def Obligations.AerrIsSetByMalformedAccessesOnly : Prop :=
  ∀ s t : State, step s = .next t →
    (s.aerr = false → (t.aerr = true ↔ ∃ a : Access, nextTurn s = .host a ∧ a.wf = false)) ∧
    (s.aerr = true → (t.aerr = false ↔
      resetsNext s ∨ ∃ v : Word, nextTurn s = .host (.write 0x008 4 v) ∧ v[10] = true))

/-- 10_state.md R34, 60_exceptions.md R253: `irq` is `IE` and `DONE`, which `STATUS` shows in bit 11; after a commit it
is `IE`, whatever the command and its outcome; it falls at acceptance, at a write of 1 to `DONE` and at either reset, is
low while masked, with `DONE` kept, and rises at once where `IE` is set while `DONE` is 1. -/
def Obligations.IrqFollowsDoneAndEnable : Prop :=
  (∀ s : State, s.irq = (s.ie && s.done) ∧ (hostAccess (.read 0x008 4) s).rdata[11] = s.irq) ∧
  (∀ s t : State, nextTurn s = .rst → step s = .next t → t.irq = false) ∧
  (∀ (i : Instr) (s t : State), exec i s = .next t → t.irq = s.ie) ∧
  (∀ (s : State) (v : Word),
    (s.busy = false → (hostAccess (.write 0x00C 4 v) s).irq = false) ∧
    (v[1] = true → (hostAccess (.write 0x008 4 v) s).irq = false ∧ (hostAccess (.write 0x004 4 v) s).irq = false) ∧
    (v[1] = false → (hostAccess (.write 0x004 4 v) s).irq = (v[0] && s.done) ∧
      (hostAccess (.write 0x004 4 v) s).done = s.done))

/-- The invariant holds after reset. -/
def Obligations.ResetMeetsTheInvariant : Prop := Inv State.reset

/-- Every step keeps the invariant, from every state that meets it: memory in canonical form and inside the buffers;
`ERR` and `ERRCODE` agreeing, with a code of 60_exceptions.md R241 that the spec can produce; nothing reported while a
command is pending; `PEND = CMD_LAST`; result registers in range; the square cells blank or a whole square. -/
def Obligations.EveryStepKeepsTheInvariant : Prop :=
  ∀ s t : State, Inv s → step s = .next t → Inv t

/-- 40_command.md R122, 30_encoding.md R93: a command's result depends on nothing but the elements it reads. -/
def Obligations.ResultsDependOnOperandsOnly : Prop :=
  ∀ (i : Instr) (s u : State), OperandsAgree i s u → SameResult i s u

/-- 41_normalizer.md R139: keys that agree up to the case of their letters come to the same result in every command. -/
def Obligations.KeysAreCaseInsensitive : Prop :=
  ∀ (i : Instr) (s : State) (m : Memory),
    (∀ a, ¬(0x200 ≤ a ∧ a < 0x300) → Memory.read m a = Memory.read s.mem a) →
    (∀ j, j < 256 → upper (Memory.read m (0x200 + j)) = upper (s.keyByte j)) →
    SameResult i s { s with mem := m }

/-! ## The normalizer -/

/-- 41_normalizer.md R131: case folding, and the two inverse bijections between the 26 upper-case letters and
[0, 26). -/
def Obligations.SymbolsAndIndicesCorrespond : Prop :=
  (∀ b : Byte, upper b = if 97 ≤ b.toNat ∧ b.toNat ≤ 122 then b - 32 else b) ∧
  (∀ b : Byte, isUpper b = true → idx b = (b.toNat : ℤ) - 65 ∧ 0 ≤ idx b ∧ idx b < 26 ∧ sym (idx b) = b) ∧
  (∀ v : Nat, v < 26 → (sym v).toNat = 65 + v ∧ isUpper (sym v) = true ∧ idx (sym v) = v)

/-- 41_normalizer.md R138: reduction modulo 26 and modulo 5 is `x` less a multiple of the modulus, in [0, 26) and
[0, 5). -/
def Obligations.ReductionsAreNonNegative : Prop :=
  ∀ x : ℤ, (0 ≤ mod26 x ∧ mod26 x < 26 ∧ ∃ k, x = mod26 x + 26 * k) ∧ (0 ≤ mod5 x ∧ mod5 x < 5 ∧ ∃ k, x = mod5 x + 5 * k)

/-! ## Completion and copying out -/

/-- 40_command.md R112, R113: where no listed turn is a reset, the pending command has its completion step within the
turns on the list and one more; until that step, which is the first one, it stays pending. The step after the last turn
is the model's form of weak fairness (log entry 1). -/
def Obligations.PendingCommandCompletesUnlessReset : Prop :=
  ∀ s : State, s.busy = true → (∀ t ∈ s.turns, t ≠ .rst ∧ ∀ v : Word, t = .host (.write 0x004 4 v) → v[1] = false) →
    ∃ n, n ≤ s.turns.length ∧
      ∀ k, k ≤ n → ∃ u : State, Host.Core.run Sys2Proof.core k s = .next u ∧ u.busy = true ∧ u.pend = s.pend ∧
        (completesNext u ↔ k = n)

/-- 30_encoding.md R98: with no command pending, `copyout` ends on the next line after its transactions, with `IN_LEN`
equal to `OUT_LEN` and every word of `TEXT_IN` that holds an output byte equal to that of `TEXT_OUT`; it changes nothing
else but the word last read. That one of its transactions is the read of `OUT_LEN` is the model's choice (log entry
18). -/
def Obligations.CopyOutMovesTheOutputToTheText : Prop :=
  ∀ s : State, s.busy = false → s.outLen.toNat ≤ 1024 →
    let words := (s.outLen.toNat + 3) / 4
    ∃ t : State,
      hostProgramTurns opCopyOut (2 + 2 * words) { line := 0 } s = (some { line := 1 }, t) ∧
      t = { s with inLen := s.outLen, mem := t.mem, rdata := t.rdata } ∧
      (∀ i, i < 4 * words → t.textByte i = s.outByte i) ∧
      ∀ a, ¬(0x400 ≤ a ∧ a < 0x400 + 4 * words) → Memory.read t.mem a = Memory.read s.mem a
end

