-- ==== Sys2Proof/Laws/Memory.lean ====
section
/-! SUPPORT. The laws of the byte memory: what a read returns after each operation, with no premise on the memory,
and that every operation keeps the canonical form and the offsets it may list. -/

namespace Sys2Proof.Machine

@[simp] theorem Memory.read_nil (a : Nat) : Memory.read [] a = Memory.unlisted := rfl

@[simp] theorem Memory.read_cons (c : Host.Cell) (m : Memory) (a : Nat) :
    Memory.read (c :: m) a = if c.1 = a then c.2 else Memory.read m a := rfl

/-- Removing cells by a test on their offset makes the removed offsets read as unlisted. -/
theorem Memory.read_filter_offset (p : Nat → Bool) (m : Memory) (a : Nat) :
    Memory.read (m.filter fun c => p c.1) a = if p a then Memory.read m a else Memory.unlisted := by
  induction m with
  | nil => simp
  | cons c m ih =>
    by_cases hp : p c.1 = true
    · rw [List.filter_cons_of_pos (by simpa using hp), read_cons, read_cons, ih]
      by_cases hc : c.1 = a
      · subst hc; simp [hp]
      · simp [hc]
    · rw [List.filter_cons_of_neg (by simpa using hp), ih, read_cons]
      by_cases hc : c.1 = a
      · subst hc; simp [hp]
      · simp [hc]

theorem Memory.read_clear (m : Memory) (lo n a : Nat) :
    Memory.read (Memory.clear m lo n) a = if lo ≤ a ∧ a < lo + n then Memory.unlisted else Memory.read m a := by
  unfold Memory.clear
  rw [Memory.read_filter_offset (fun x => !(decide (lo ≤ x) && decide (x < lo + n)))]
  by_cases h : lo ≤ a ∧ a < lo + n
  · simp [h]
  · rw [if_neg h, if_pos]
    simp only [Bool.not_eq_true', Bool.and_eq_false_iff, decide_eq_false_iff_not]
    omega

theorem Memory.read_insertCell (c : Host.Cell) (m : Memory) (a : Nat) (h : ∀ d ∈ m, d.1 ≠ c.1) :
    Memory.read (Memory.insertCell c m) a = if c.1 = a then c.2 else Memory.read m a := by
  induction m with
  | nil => simp [Memory.insertCell]
  | cons d m ih =>
    unfold Memory.insertCell
    split
    · simp
    · have hd : d.1 ≠ c.1 := h d (by simp)
      rw [read_cons, read_cons, ih fun e he => h e (by simp [he])]
      by_cases hda : d.1 = a
      · subst hda; simp [hd.symm]
      · simp [hda]

theorem Memory.mem_clear {m : Memory} {lo n : Nat} {c : Host.Cell} :
    c ∈ Memory.clear m lo n ↔ c ∈ m ∧ ¬(lo ≤ c.1 ∧ c.1 < lo + n) := by
  unfold Memory.clear
  rw [List.mem_filter]
  simp only [Bool.not_eq_true', Bool.and_eq_false_iff, decide_eq_false_iff_not]
  exact and_congr_right fun _ => by omega

/-- A read after a write to one byte, in every memory. -/
theorem Memory.read_write (m : Memory) (a b : Nat) (v : Byte) :
    Memory.read (Memory.write m a v) b = if a = b then v else Memory.read m b := by
  have hclear : Memory.read (Memory.clear m a 1) b = if a = b then Memory.unlisted else Memory.read m b := by
    rw [Memory.read_clear]
    by_cases h : a = b
    · simp [h]
    · rw [if_neg (by omega), if_neg h]
  unfold Memory.write
  split
  · rename_i hv
    rw [hclear, hv]
  · rw [Memory.read_insertCell]
    · simp only
      by_cases h : a = b
      · simp [h]
      · rw [hclear]; simp [h]
    · intro d hd
      have := (Memory.mem_clear.mp hd).2
      simp only
      omega

@[simp] theorem Memory.read_write_same (m : Memory) (a : Nat) (v : Byte) :
    Memory.read (Memory.write m a v) a = v := by simp [Memory.read_write]

theorem Memory.read_write_other (m : Memory) {a b : Nat} (v : Byte) (h : a ≠ b) :
    Memory.read (Memory.write m a v) b = Memory.read m b := by simp [Memory.read_write, h]

/-- A read after a run of byte writes: the byte written there, or what was there before. -/
theorem Memory.read_writeBytes (m : Memory) (a b : Nat) (bs : List Byte) :
    Memory.read (Memory.writeBytes m a bs) b =
      if a ≤ b ∧ b < a + bs.length then bs.getD (b - a) 0 else Memory.read m b := by
  induction bs generalizing m a with
  | nil =>
    rw [if_neg (by simp only [List.length_nil]; omega)]
    rfl
  | cons v bs ih =>
    show Memory.read (Memory.writeBytes (Memory.write m a v) (a + 1) bs) b = _
    rw [ih, Memory.read_write]
    simp only [List.length_cons]
    rcases Nat.lt_trichotomy a b with h | h | h
    · obtain ⟨d, rfl⟩ := Nat.exists_eq_add_of_lt h
      have e1 : a + d + 1 - (a + 1) = d := by omega
      have e2 : a + d + 1 - a = d + 1 := by omega
      rw [e1, e2, List.getD_cons_succ]
      by_cases hl : d < bs.length
      · rw [if_pos (by omega), if_pos (by omega)]
      · rw [if_neg (by omega), if_neg (by omega), if_neg (by omega)]
    · subst h
      rw [if_neg (by omega), if_pos rfl, if_pos (by omega), Nat.sub_self, List.getD_cons_zero]
    · rw [if_neg (by omega), if_neg (by omega), if_neg (by omega)]

/-- The text buffer after `TextOut(out)` (40_command.md R116), and every other byte as before. -/
theorem Memory.read_writeTextOut (m : Memory) (out : List Byte) (a : Nat) (h : out.length ≤ Config.nOut) :
    Memory.read (Memory.writeTextOut m out) a =
      if textOutBase ≤ a ∧ a < textOutBase + Config.nOut then out.getD (a - textOutBase) 0 else Memory.read m a := by
  unfold Memory.writeTextOut
  rw [Memory.read_writeBytes, Memory.read_clear]
  by_cases h1 : textOutBase ≤ a ∧ a < textOutBase + out.length
  · rw [if_pos h1, if_pos (by omega)]
  · rw [if_neg h1]
    by_cases h2 : textOutBase ≤ a ∧ a < textOutBase + Config.nOut
    · rw [if_pos h2, if_pos h2, List.getD_eq_default _ _ (by omega)]
      rfl
    · rw [if_neg h2, if_neg h2]

/-! ## The canonical form -/

theorem Memory.wf_nil : Memory.wf [] := by simp [Memory.wf]

theorem Memory.wf_clear {m : Memory} (h : Memory.wf m) (lo n : Nat) : Memory.wf (Memory.clear m lo n) :=
  ⟨h.1.filter _, fun c hc => h.2 c (Memory.mem_clear.mp hc).1⟩

theorem Memory.mem_insertCell {c d : Host.Cell} {m : Memory} :
    d ∈ Memory.insertCell c m ↔ d = c ∨ d ∈ m := by
  induction m with
  | nil => simp [Memory.insertCell]
  | cons e m ih =>
    unfold Memory.insertCell
    split
    · simp
    · simp only [List.mem_cons, ih]
      tauto

theorem Memory.wf_insertCell {m : Memory} (h : Memory.wf m) {c : Host.Cell} (hc : c.2 ≠ Memory.unlisted)
    (hnew : ∀ d ∈ m, d.1 ≠ c.1) : Memory.wf (Memory.insertCell c m) := by
  refine ⟨?_, fun d hd => ?_⟩
  · obtain ⟨hs, -⟩ := h
    induction m with
    | nil => simp [Memory.insertCell]
    | cons e m ih =>
      rw [List.pairwise_cons] at hs
      unfold Memory.insertCell
      split
      · rename_i hlt
        refine List.pairwise_cons.mpr ⟨fun d hd => ?_, List.pairwise_cons.mpr hs⟩
        rcases List.mem_cons.mp hd with rfl | hd
        · exact hlt
        · exact Nat.lt_trans hlt (hs.1 d hd)
      · rename_i hlt
        have hne := hnew e (by simp)
        refine List.pairwise_cons.mpr ⟨fun d hd => ?_, ih (fun d hd => hnew d (by simp [hd])) hs.2⟩
        rcases Memory.mem_insertCell.mp hd with rfl | hd
        · omega
        · exact hs.1 d hd
  · rcases Memory.mem_insertCell.mp hd with rfl | hd
    · exact hc
    · exact h.2 d hd

theorem Memory.wf_write {m : Memory} (h : Memory.wf m) (a : Nat) (v : Byte) : Memory.wf (Memory.write m a v) := by
  unfold Memory.write
  split
  · exact Memory.wf_clear h a 1
  · rename_i hv
    refine Memory.wf_insertCell (Memory.wf_clear h a 1) hv fun d hd => ?_
    have := (Memory.mem_clear.mp hd).2
    simp only
    omega

theorem Memory.wf_writeBytes {m : Memory} (h : Memory.wf m) (a : Nat) (bs : List Byte) :
    Memory.wf (Memory.writeBytes m a bs) := by
  induction bs generalizing m a with
  | nil => exact h
  | cons b bs ih => exact ih (Memory.wf_write h a b) (a + 1)

theorem Memory.wf_writeWord {m : Memory} (h : Memory.wf m) (a : Nat) (v : Word) : Memory.wf (Memory.writeWord m a v) :=
  Memory.wf_writeBytes h a _

theorem Memory.wf_writeTextOut {m : Memory} (h : Memory.wf m) (out : List Byte) :
    Memory.wf (Memory.writeTextOut m out) :=
  Memory.wf_writeBytes (Memory.wf_clear h _ _) _ _

theorem Memory.read_eq_unlisted_of_forall_lt {m : Memory} {a : Nat} (h : ∀ c ∈ m, a < c.1) :
    Memory.read m a = Memory.unlisted := by
  induction m with
  | nil => rfl
  | cons c m ih =>
    have := h c (by simp)
    rw [Memory.read_cons, if_neg (by omega), ih fun d hd => h d (by simp [hd])]

/-- Two canonical memories that read alike are equal data. -/
theorem Memory.eq_of_read_eq {m m' : Memory} (h : Memory.wf m) (h' : Memory.wf m')
    (hr : ∀ a, Memory.read m a = Memory.read m' a) : m = m' := by
  induction m generalizing m' with
  | nil =>
    cases m' with
    | nil => rfl
    | cons d m' =>
      have := hr d.1
      simp only [Memory.read_nil, Memory.read_cons, if_true] at this
      exact absurd this.symm (h'.2 d (by simp))
  | cons c m ih =>
    cases m' with
    | nil =>
      have := hr c.1
      simp only [Memory.read_nil, Memory.read_cons, if_true] at this
      exact absurd this (h.2 c (by simp))
    | cons d m' =>
      have hs := List.pairwise_cons.mp h.1
      have hs' := List.pairwise_cons.mp h'.1
      have hoff : c.1 = d.1 := by
        rcases Nat.lt_trichotomy c.1 d.1 with hlt | heq | hlt
        · have hz := Memory.read_eq_unlisted_of_forall_lt (m := d :: m') (a := c.1) fun e he => by
            rcases List.mem_cons.mp he with rfl | he
            · exact hlt
            · exact Nat.lt_trans hlt (hs'.1 e he)
          have := (hr c.1).trans hz
          simp only [Memory.read_cons, if_true] at this
          exact absurd this (h.2 c (by simp))
        · exact heq
        · have hz := Memory.read_eq_unlisted_of_forall_lt (m := c :: m) (a := d.1) fun e he => by
            rcases List.mem_cons.mp he with rfl | he
            · exact hlt
            · exact Nat.lt_trans hlt (hs.1 e he)
          have := (hr d.1).symm.trans hz
          simp only [Memory.read_cons, if_true] at this
          exact absurd this (h'.2 d (by simp))
      have hval : c.2 = d.2 := by
        have := hr c.1
        simpa [hoff] using this
      have hcd : c = d := Prod.ext hoff hval
      subst hcd
      congr 1
      refine ih ⟨hs.2, fun e he => h.2 e (by simp [he])⟩ ⟨hs'.2, fun e he => h'.2 e (by simp [he])⟩ fun a => ?_
      by_cases ha : c.1 = a
      · subst ha
        rw [Memory.read_eq_unlisted_of_forall_lt hs.1, Memory.read_eq_unlisted_of_forall_lt hs'.1]
      · have := hr a
        simpa [Memory.read_cons, ha] using this

/-! ## The offsets a memory lists -/

theorem Memory.mem_write_offset {m : Memory} {a : Nat} {v : Byte} {c : Host.Cell} (h : c ∈ Memory.write m a v) :
    c.1 = a ∨ c ∈ m := by
  unfold Memory.write at h
  split at h
  · exact .inr (Memory.mem_clear.mp h).1
  · rcases Memory.mem_insertCell.mp h with rfl | h
    · exact .inl rfl
    · exact .inr (Memory.mem_clear.mp h).1

theorem Memory.mem_writeBytes_offset {m : Memory} {a : Nat} {bs : List Byte} {c : Host.Cell}
    (h : c ∈ Memory.writeBytes m a bs) : (a ≤ c.1 ∧ c.1 < a + bs.length) ∨ c ∈ m := by
  induction bs generalizing m a with
  | nil => exact .inr h
  | cons b bs ih =>
    have h' : c ∈ Memory.writeBytes (Memory.write m a b) (a + 1) bs := h
    simp only [List.length_cons]
    rcases ih h' with h1 | h1
    · exact .inl (by omega)
    · rcases Memory.mem_write_offset h1 with h2 | h2
      · exact .inl (by omega)
      · exact .inr h2

/-! ## Words -/

@[simp] theorem wordBytes_length (v : Word) : (wordBytes v).length = 4 := rfl

/-- The four bytes of a word put together again (20_memory.md R75). -/
theorem wordBytes_append (v : Word) :
    v.extractLsb' 24 8 ++ v.extractLsb' 16 8 ++ v.extractLsb' 8 8 ++ v.extractLsb' 0 8 = v := by
  apply BitVec.eq_of_getLsbD_eq
  intro i hi
  simp only [BitVec.getLsbD_append, BitVec.getLsbD_extractLsb']
  rcases Nat.lt_or_ge i 8 with h | h
  · simp [h]
  · rcases Nat.lt_or_ge i 16 with h2 | h2
    · have e : 8 + (i - 8) = i := by omega
      simp [show ¬ i < 8 by omega, show i - 8 < 8 by omega, e]
    · rcases Nat.lt_or_ge i 24 with h3 | h3
      · have e : 16 + (i - 8 - 8) = i := by omega
        simp [show ¬ i < 8 by omega, show ¬ i - 8 < 8 by omega, show i - 8 - 8 < 8 by omega, e]
      · have e : 24 + (i - 8 - 8 - 8) = i := by omega
        simp [show ¬ i < 8 by omega, show ¬ i - 8 < 8 by omega, show ¬ i - 8 - 8 < 8 by omega,
          show i - 8 - 8 - 8 < 8 by omega, e]

/-- A byte read after a word write (20_memory.md R75). -/
theorem Memory.read_writeWord (m : Memory) (a b : Nat) (v : Word) :
    Memory.read (Memory.writeWord m a v) b =
      if a ≤ b ∧ b < a + 4 then (wordBytes v).getD (b - a) 0 else Memory.read m b := by
  unfold Memory.writeWord
  rw [Memory.read_writeBytes, wordBytes_length]

/-- A word read after it was written. -/
theorem Memory.readWord_writeWord (m : Memory) (a : Nat) (v : Word) :
    Memory.readWord (Memory.writeWord m a v) a = v := by
  unfold Memory.readWord
  simp only [Memory.read_writeWord]
  rw [if_pos (by omega), if_pos (by omega), if_pos (by omega), if_pos (by omega)]
  have e3 : a + 3 - a = 3 := by omega
  have e2 : a + 2 - a = 2 := by omega
  have e1 : a + 1 - a = 1 := by omega
  rw [e3, e2, e1, Nat.sub_self]
  exact wordBytes_append v

end Sys2Proof.Machine
end

