-- ==== Sys2Proof/Laws/State.lean ====
section
/-! SUPPORT. One lemma per field per update, so that no later proof unfolds a record update. -/

namespace Sys2Proof.Machine

/-! Acceptance (40_command.md R110). -/

@[simp] theorem accept_ie (v : Word) (s : State) : (accept v s).ie = s.ie := rfl
@[simp] theorem accept_keyMin (v : Word) (s : State) : (accept v s).keyMin = s.keyMin := rfl
@[simp] theorem accept_busy (v : Word) (s : State) : (accept v s).busy = true := rfl
@[simp] theorem accept_done (v : Word) (s : State) : (accept v s).done = false := rfl
@[simp] theorem accept_err (v : Word) (s : State) : (accept v s).err = false := rfl
@[simp] theorem accept_errcode (v : Word) (s : State) : (accept v s).errcode = 0 := rfl
@[simp] theorem accept_werr (v : Word) (s : State) : (accept v s).werr = s.werr := rfl
@[simp] theorem accept_aerr (v : Word) (s : State) : (accept v s).aerr = s.aerr := rfl
@[simp] theorem accept_cmdLast (v : Word) (s : State) : (accept v s).cmdLast = v := rfl
@[simp] theorem accept_inLen (v : Word) (s : State) : (accept v s).inLen = s.inLen := rfl
@[simp] theorem accept_keyLen (v : Word) (s : State) : (accept v s).keyLen = s.keyLen := rfl
@[simp] theorem accept_outLen (v : Word) (s : State) : (accept v s).outLen = s.outLen := rfl
@[simp] theorem accept_errpos (v : Word) (s : State) : (accept v s).errpos = 0xFFFFFFFF := rfl
@[simp] theorem accept_rows (v : Word) (s : State) : (accept v s).rows = s.rows := rfl
@[simp] theorem accept_cols (v : Word) (s : State) : (accept v s).cols = s.cols := rfl
@[simp] theorem accept_hillDet (v : Word) (s : State) : (accept v s).hillDet = s.hillDet := rfl
@[simp] theorem accept_hillDinv (v : Word) (s : State) : (accept v s).hillDinv = s.hillDinv := rfl
@[simp] theorem accept_mat (v : Word) (s : State) : (accept v s).mat = s.mat := rfl
@[simp] theorem accept_inv (v : Word) (s : State) : (accept v s).inv = s.inv := rfl
@[simp] theorem accept_sq (v : Word) (s : State) : (accept v s).sq = s.sq := rfl
@[simp] theorem accept_mem (v : Word) (s : State) : (accept v s).mem = s.mem := rfl
@[simp] theorem accept_pend (v : Word) (s : State) : (accept v s).pend = v := rfl
@[simp] theorem accept_rdata (v : Word) (s : State) : (accept v s).rdata = s.rdata := rfl
@[simp] theorem accept_turns (v : Word) (s : State) : (accept v s).turns = s.turns := rfl

/-! A rejected write (40_command.md R111). -/

@[simp] theorem rejectWrite_ie (s : State) : (rejectWrite s).ie = s.ie := rfl
@[simp] theorem rejectWrite_keyMin (s : State) : (rejectWrite s).keyMin = s.keyMin := rfl
@[simp] theorem rejectWrite_busy (s : State) : (rejectWrite s).busy = s.busy := rfl
@[simp] theorem rejectWrite_done (s : State) : (rejectWrite s).done = s.done := rfl
@[simp] theorem rejectWrite_err (s : State) : (rejectWrite s).err = s.err := rfl
@[simp] theorem rejectWrite_errcode (s : State) : (rejectWrite s).errcode = s.errcode := rfl
@[simp] theorem rejectWrite_werr (s : State) : (rejectWrite s).werr = true := rfl
@[simp] theorem rejectWrite_aerr (s : State) : (rejectWrite s).aerr = s.aerr := rfl
@[simp] theorem rejectWrite_cmdLast (s : State) : (rejectWrite s).cmdLast = s.cmdLast := rfl
@[simp] theorem rejectWrite_inLen (s : State) : (rejectWrite s).inLen = s.inLen := rfl
@[simp] theorem rejectWrite_keyLen (s : State) : (rejectWrite s).keyLen = s.keyLen := rfl
@[simp] theorem rejectWrite_outLen (s : State) : (rejectWrite s).outLen = s.outLen := rfl
@[simp] theorem rejectWrite_errpos (s : State) : (rejectWrite s).errpos = s.errpos := rfl
@[simp] theorem rejectWrite_rows (s : State) : (rejectWrite s).rows = s.rows := rfl
@[simp] theorem rejectWrite_cols (s : State) : (rejectWrite s).cols = s.cols := rfl
@[simp] theorem rejectWrite_hillDet (s : State) : (rejectWrite s).hillDet = s.hillDet := rfl
@[simp] theorem rejectWrite_hillDinv (s : State) : (rejectWrite s).hillDinv = s.hillDinv := rfl
@[simp] theorem rejectWrite_mat (s : State) : (rejectWrite s).mat = s.mat := rfl
@[simp] theorem rejectWrite_inv (s : State) : (rejectWrite s).inv = s.inv := rfl
@[simp] theorem rejectWrite_sq (s : State) : (rejectWrite s).sq = s.sq := rfl
@[simp] theorem rejectWrite_mem (s : State) : (rejectWrite s).mem = s.mem := rfl
@[simp] theorem rejectWrite_pend (s : State) : (rejectWrite s).pend = s.pend := rfl
@[simp] theorem rejectWrite_rdata (s : State) : (rejectWrite s).rdata = s.rdata := rfl
@[simp] theorem rejectWrite_turns (s : State) : (rejectWrite s).turns = s.turns := rfl

/-! Error entry (40_command.md R115). -/

@[simp] theorem errorEntry_ie (e : CmdError) (s : State) : (errorEntry e s).ie = s.ie := rfl
@[simp] theorem errorEntry_keyMin (e : CmdError) (s : State) : (errorEntry e s).keyMin = s.keyMin := rfl
@[simp] theorem errorEntry_busy (e : CmdError) (s : State) : (errorEntry e s).busy = false := rfl
@[simp] theorem errorEntry_done (e : CmdError) (s : State) : (errorEntry e s).done = true := rfl
@[simp] theorem errorEntry_err (e : CmdError) (s : State) : (errorEntry e s).err = true := rfl
@[simp] theorem errorEntry_errcode (e : CmdError) (s : State) : (errorEntry e s).errcode = e.kind.code := rfl
@[simp] theorem errorEntry_werr (e : CmdError) (s : State) : (errorEntry e s).werr = s.werr := rfl
@[simp] theorem errorEntry_aerr (e : CmdError) (s : State) : (errorEntry e s).aerr = s.aerr := rfl
@[simp] theorem errorEntry_cmdLast (e : CmdError) (s : State) : (errorEntry e s).cmdLast = s.cmdLast := rfl
@[simp] theorem errorEntry_inLen (e : CmdError) (s : State) : (errorEntry e s).inLen = s.inLen := rfl
@[simp] theorem errorEntry_keyLen (e : CmdError) (s : State) : (errorEntry e s).keyLen = s.keyLen := rfl
@[simp] theorem errorEntry_outLen (e : CmdError) (s : State) : (errorEntry e s).outLen = 0 := rfl
@[simp] theorem errorEntry_errpos (e : CmdError) (s : State) : (errorEntry e s).errpos = errposWord e.pos := rfl
@[simp] theorem errorEntry_rows (e : CmdError) (s : State) : (errorEntry e s).rows = s.rows := rfl
@[simp] theorem errorEntry_cols (e : CmdError) (s : State) : (errorEntry e s).cols = s.cols := rfl
@[simp] theorem errorEntry_hillDet (e : CmdError) (s : State) : (errorEntry e s).hillDet = s.hillDet := rfl
@[simp] theorem errorEntry_hillDinv (e : CmdError) (s : State) : (errorEntry e s).hillDinv = s.hillDinv := rfl
@[simp] theorem errorEntry_mat (e : CmdError) (s : State) : (errorEntry e s).mat = s.mat := rfl
@[simp] theorem errorEntry_inv (e : CmdError) (s : State) : (errorEntry e s).inv = s.inv := rfl
@[simp] theorem errorEntry_sq (e : CmdError) (s : State) : (errorEntry e s).sq = s.sq := rfl
@[simp] theorem errorEntry_mem (e : CmdError) (s : State) : (errorEntry e s).mem = s.mem := rfl
@[simp] theorem errorEntry_pend (e : CmdError) (s : State) : (errorEntry e s).pend = s.pend := rfl
@[simp] theorem errorEntry_rdata (e : CmdError) (s : State) : (errorEntry e s).rdata = s.rdata := rfl
@[simp] theorem errorEntry_turns (e : CmdError) (s : State) : (errorEntry e s).turns = s.turns := rfl

/-! Clearing an error report (60_exceptions.md R251). -/

@[simp] theorem clearError_ie (s : State) : (clearError s).ie = s.ie := rfl
@[simp] theorem clearError_keyMin (s : State) : (clearError s).keyMin = s.keyMin := rfl
@[simp] theorem clearError_busy (s : State) : (clearError s).busy = s.busy := rfl
@[simp] theorem clearError_done (s : State) : (clearError s).done = s.done := rfl
@[simp] theorem clearError_err (s : State) : (clearError s).err = false := rfl
@[simp] theorem clearError_errcode (s : State) : (clearError s).errcode = 0 := rfl
@[simp] theorem clearError_werr (s : State) : (clearError s).werr = s.werr := rfl
@[simp] theorem clearError_aerr (s : State) : (clearError s).aerr = s.aerr := rfl
@[simp] theorem clearError_cmdLast (s : State) : (clearError s).cmdLast = s.cmdLast := rfl
@[simp] theorem clearError_inLen (s : State) : (clearError s).inLen = s.inLen := rfl
@[simp] theorem clearError_keyLen (s : State) : (clearError s).keyLen = s.keyLen := rfl
@[simp] theorem clearError_outLen (s : State) : (clearError s).outLen = s.outLen := rfl
@[simp] theorem clearError_errpos (s : State) : (clearError s).errpos = s.errpos := rfl
@[simp] theorem clearError_rows (s : State) : (clearError s).rows = s.rows := rfl
@[simp] theorem clearError_cols (s : State) : (clearError s).cols = s.cols := rfl
@[simp] theorem clearError_hillDet (s : State) : (clearError s).hillDet = s.hillDet := rfl
@[simp] theorem clearError_hillDinv (s : State) : (clearError s).hillDinv = s.hillDinv := rfl
@[simp] theorem clearError_mat (s : State) : (clearError s).mat = s.mat := rfl
@[simp] theorem clearError_inv (s : State) : (clearError s).inv = s.inv := rfl
@[simp] theorem clearError_sq (s : State) : (clearError s).sq = s.sq := rfl
@[simp] theorem clearError_mem (s : State) : (clearError s).mem = s.mem := rfl
@[simp] theorem clearError_pend (s : State) : (clearError s).pend = s.pend := rfl
@[simp] theorem clearError_rdata (s : State) : (clearError s).rdata = s.rdata := rfl
@[simp] theorem clearError_turns (s : State) : (clearError s).turns = s.turns := rfl

/-! Successful commit (40_command.md R114). -/

@[simp] theorem commitOk_ie (w : Writes) (s : State) : (commitOk w s).ie = s.ie := rfl
@[simp] theorem commitOk_keyMin (w : Writes) (s : State) : (commitOk w s).keyMin = s.keyMin := rfl
@[simp] theorem commitOk_busy (w : Writes) (s : State) : (commitOk w s).busy = false := rfl
@[simp] theorem commitOk_done (w : Writes) (s : State) : (commitOk w s).done = true := rfl
@[simp] theorem commitOk_err (w : Writes) (s : State) : (commitOk w s).err = s.err := rfl
@[simp] theorem commitOk_errcode (w : Writes) (s : State) : (commitOk w s).errcode = s.errcode := rfl
@[simp] theorem commitOk_werr (w : Writes) (s : State) : (commitOk w s).werr = s.werr := rfl
@[simp] theorem commitOk_aerr (w : Writes) (s : State) : (commitOk w s).aerr = s.aerr := rfl
@[simp] theorem commitOk_cmdLast (w : Writes) (s : State) : (commitOk w s).cmdLast = s.cmdLast := rfl
@[simp] theorem commitOk_inLen (w : Writes) (s : State) : (commitOk w s).inLen = s.inLen := rfl
@[simp] theorem commitOk_keyLen (w : Writes) (s : State) : (commitOk w s).keyLen = s.keyLen := rfl
@[simp] theorem commitOk_outLen (w : Writes) (s : State) : (commitOk w s).outLen = (match w.text with | some out => BitVec.ofNat 16 out.length | none => s.outLen) := rfl
@[simp] theorem commitOk_errpos (w : Writes) (s : State) : (commitOk w s).errpos = s.errpos := rfl
@[simp] theorem commitOk_rows (w : Writes) (s : State) : (commitOk w s).rows = s.rows := rfl
@[simp] theorem commitOk_cols (w : Writes) (s : State) : (commitOk w s).cols = s.cols := rfl
@[simp] theorem commitOk_hillDet (w : Writes) (s : State) : (commitOk w s).hillDet = (match w.inverse with | some v => v.det | none => s.hillDet) := rfl
@[simp] theorem commitOk_hillDinv (w : Writes) (s : State) : (commitOk w s).hillDinv = (match w.inverse with | some v => v.dinv | none => s.hillDinv) := rfl
@[simp] theorem commitOk_mat (w : Writes) (s : State) : (commitOk w s).mat = s.mat := rfl
@[simp] theorem commitOk_inv (w : Writes) (s : State) : (commitOk w s).inv = (match w.inverse with | some v => v.inv | none => s.inv) := rfl
@[simp] theorem commitOk_sq (w : Writes) (s : State) : (commitOk w s).sq = (match w.square with | some cells => cells | none => s.sq) := rfl
@[simp] theorem commitOk_mem (w : Writes) (s : State) : (commitOk w s).mem = (match w.text with | some out => Memory.writeTextOut s.mem out | none => s.mem) := rfl
@[simp] theorem commitOk_pend (w : Writes) (s : State) : (commitOk w s).pend = s.pend := rfl
@[simp] theorem commitOk_rdata (w : Writes) (s : State) : (commitOk w s).rdata = s.rdata := rfl
@[simp] theorem commitOk_turns (w : Writes) (s : State) : (commitOk w s).turns = s.turns := rfl

/-! A store into `MAT` (10_state.md R43). -/

@[simp] theorem storeMat_ie (i j : Fin 4) (v : Word) (s : State) : (storeMat i j v s).ie = s.ie := rfl
@[simp] theorem storeMat_keyMin (i j : Fin 4) (v : Word) (s : State) : (storeMat i j v s).keyMin = s.keyMin := rfl
@[simp] theorem storeMat_busy (i j : Fin 4) (v : Word) (s : State) : (storeMat i j v s).busy = s.busy := rfl
@[simp] theorem storeMat_done (i j : Fin 4) (v : Word) (s : State) : (storeMat i j v s).done = s.done := rfl
@[simp] theorem storeMat_err (i j : Fin 4) (v : Word) (s : State) : (storeMat i j v s).err = s.err := rfl
@[simp] theorem storeMat_errcode (i j : Fin 4) (v : Word) (s : State) : (storeMat i j v s).errcode = s.errcode := rfl
@[simp] theorem storeMat_werr (i j : Fin 4) (v : Word) (s : State) : (storeMat i j v s).werr = s.werr := rfl
@[simp] theorem storeMat_aerr (i j : Fin 4) (v : Word) (s : State) : (storeMat i j v s).aerr = s.aerr := rfl
@[simp] theorem storeMat_cmdLast (i j : Fin 4) (v : Word) (s : State) : (storeMat i j v s).cmdLast = s.cmdLast := rfl
@[simp] theorem storeMat_inLen (i j : Fin 4) (v : Word) (s : State) : (storeMat i j v s).inLen = s.inLen := rfl
@[simp] theorem storeMat_keyLen (i j : Fin 4) (v : Word) (s : State) : (storeMat i j v s).keyLen = s.keyLen := rfl
@[simp] theorem storeMat_outLen (i j : Fin 4) (v : Word) (s : State) : (storeMat i j v s).outLen = s.outLen := rfl
@[simp] theorem storeMat_errpos (i j : Fin 4) (v : Word) (s : State) : (storeMat i j v s).errpos = s.errpos := rfl
@[simp] theorem storeMat_rows (i j : Fin 4) (v : Word) (s : State) : (storeMat i j v s).rows = s.rows := rfl
@[simp] theorem storeMat_cols (i j : Fin 4) (v : Word) (s : State) : (storeMat i j v s).cols = s.cols := rfl
@[simp] theorem storeMat_hillDet (i j : Fin 4) (v : Word) (s : State) : (storeMat i j v s).hillDet = s.hillDet := rfl
@[simp] theorem storeMat_hillDinv (i j : Fin 4) (v : Word) (s : State) : (storeMat i j v s).hillDinv = s.hillDinv := rfl
@[simp] theorem storeMat_mat (i j : Fin 4) (v : Word) (s : State) : (storeMat i j v s).mat = s.mat.setIfInBounds (4 * i.val + j.val) v := rfl
@[simp] theorem storeMat_inv (i j : Fin 4) (v : Word) (s : State) : (storeMat i j v s).inv = s.inv := rfl
@[simp] theorem storeMat_sq (i j : Fin 4) (v : Word) (s : State) : (storeMat i j v s).sq = s.sq := rfl
@[simp] theorem storeMat_mem (i j : Fin 4) (v : Word) (s : State) : (storeMat i j v s).mem = s.mem := rfl
@[simp] theorem storeMat_pend (i j : Fin 4) (v : Word) (s : State) : (storeMat i j v s).pend = s.pend := rfl
@[simp] theorem storeMat_rdata (i j : Fin 4) (v : Word) (s : State) : (storeMat i j v s).rdata = s.rdata := rfl
@[simp] theorem storeMat_turns (i j : Fin 4) (v : Word) (s : State) : (storeMat i j v s).turns = s.turns := rfl

/-! A write to `STATUS` (10_state.md R27). -/

@[simp] theorem writeStatus_ie (v : Word) (s : State) : (writeStatus v s).ie = s.ie := by
  unfold writeStatus clearError; cases v[1] <;> cases v[2] <;> cases v[9] <;> cases v[10] <;> simp
@[simp] theorem writeStatus_keyMin (v : Word) (s : State) : (writeStatus v s).keyMin = s.keyMin := by
  unfold writeStatus clearError; cases v[1] <;> cases v[2] <;> cases v[9] <;> cases v[10] <;> simp
@[simp] theorem writeStatus_busy (v : Word) (s : State) : (writeStatus v s).busy = s.busy := by
  unfold writeStatus clearError; cases v[1] <;> cases v[2] <;> cases v[9] <;> cases v[10] <;> simp
@[simp] theorem writeStatus_done (v : Word) (s : State) : (writeStatus v s).done = (s.done && !v[1]) := by
  unfold writeStatus clearError; cases v[1] <;> cases v[2] <;> cases v[9] <;> cases v[10] <;> simp
@[simp] theorem writeStatus_err (v : Word) (s : State) : (writeStatus v s).err = (s.err && !v[2]) := by
  unfold writeStatus clearError; cases v[1] <;> cases v[2] <;> cases v[9] <;> cases v[10] <;> simp
@[simp] theorem writeStatus_errcode (v : Word) (s : State) : (writeStatus v s).errcode = (if v[2] then 0 else s.errcode) := by
  unfold writeStatus clearError; cases v[1] <;> cases v[2] <;> cases v[9] <;> cases v[10] <;> simp
@[simp] theorem writeStatus_werr (v : Word) (s : State) : (writeStatus v s).werr = (s.werr && !v[9]) := by
  unfold writeStatus clearError; cases v[1] <;> cases v[2] <;> cases v[9] <;> cases v[10] <;> simp
@[simp] theorem writeStatus_aerr (v : Word) (s : State) : (writeStatus v s).aerr = (s.aerr && !v[10]) := by
  unfold writeStatus clearError; cases v[1] <;> cases v[2] <;> cases v[9] <;> cases v[10] <;> simp
@[simp] theorem writeStatus_cmdLast (v : Word) (s : State) : (writeStatus v s).cmdLast = s.cmdLast := by
  unfold writeStatus clearError; cases v[1] <;> cases v[2] <;> cases v[9] <;> cases v[10] <;> simp
@[simp] theorem writeStatus_inLen (v : Word) (s : State) : (writeStatus v s).inLen = s.inLen := by
  unfold writeStatus clearError; cases v[1] <;> cases v[2] <;> cases v[9] <;> cases v[10] <;> simp
@[simp] theorem writeStatus_keyLen (v : Word) (s : State) : (writeStatus v s).keyLen = s.keyLen := by
  unfold writeStatus clearError; cases v[1] <;> cases v[2] <;> cases v[9] <;> cases v[10] <;> simp
@[simp] theorem writeStatus_outLen (v : Word) (s : State) : (writeStatus v s).outLen = s.outLen := by
  unfold writeStatus clearError; cases v[1] <;> cases v[2] <;> cases v[9] <;> cases v[10] <;> simp
@[simp] theorem writeStatus_errpos (v : Word) (s : State) : (writeStatus v s).errpos = s.errpos := by
  unfold writeStatus clearError; cases v[1] <;> cases v[2] <;> cases v[9] <;> cases v[10] <;> simp
@[simp] theorem writeStatus_rows (v : Word) (s : State) : (writeStatus v s).rows = s.rows := by
  unfold writeStatus clearError; cases v[1] <;> cases v[2] <;> cases v[9] <;> cases v[10] <;> simp
@[simp] theorem writeStatus_cols (v : Word) (s : State) : (writeStatus v s).cols = s.cols := by
  unfold writeStatus clearError; cases v[1] <;> cases v[2] <;> cases v[9] <;> cases v[10] <;> simp
@[simp] theorem writeStatus_hillDet (v : Word) (s : State) : (writeStatus v s).hillDet = s.hillDet := by
  unfold writeStatus clearError; cases v[1] <;> cases v[2] <;> cases v[9] <;> cases v[10] <;> simp
@[simp] theorem writeStatus_hillDinv (v : Word) (s : State) : (writeStatus v s).hillDinv = s.hillDinv := by
  unfold writeStatus clearError; cases v[1] <;> cases v[2] <;> cases v[9] <;> cases v[10] <;> simp
@[simp] theorem writeStatus_mat (v : Word) (s : State) : (writeStatus v s).mat = s.mat := by
  unfold writeStatus clearError; cases v[1] <;> cases v[2] <;> cases v[9] <;> cases v[10] <;> simp
@[simp] theorem writeStatus_inv (v : Word) (s : State) : (writeStatus v s).inv = s.inv := by
  unfold writeStatus clearError; cases v[1] <;> cases v[2] <;> cases v[9] <;> cases v[10] <;> simp
@[simp] theorem writeStatus_sq (v : Word) (s : State) : (writeStatus v s).sq = s.sq := by
  unfold writeStatus clearError; cases v[1] <;> cases v[2] <;> cases v[9] <;> cases v[10] <;> simp
@[simp] theorem writeStatus_mem (v : Word) (s : State) : (writeStatus v s).mem = s.mem := by
  unfold writeStatus clearError; cases v[1] <;> cases v[2] <;> cases v[9] <;> cases v[10] <;> simp
@[simp] theorem writeStatus_pend (v : Word) (s : State) : (writeStatus v s).pend = s.pend := by
  unfold writeStatus clearError; cases v[1] <;> cases v[2] <;> cases v[9] <;> cases v[10] <;> simp
@[simp] theorem writeStatus_rdata (v : Word) (s : State) : (writeStatus v s).rdata = s.rdata := by
  unfold writeStatus clearError; cases v[1] <;> cases v[2] <;> cases v[9] <;> cases v[10] <;> simp
@[simp] theorem writeStatus_turns (v : Word) (s : State) : (writeStatus v s).turns = s.turns := by
  unfold writeStatus clearError; cases v[1] <;> cases v[2] <;> cases v[9] <;> cases v[10] <;> simp

/-! Reset (70_reset_and_hazards.md R271): the environment's two fields stay, all others are those of `State.reset`. -/

@[simp] theorem resetCcu_ie (s : State) : (resetCcu s).ie = State.reset.ie := rfl
@[simp] theorem resetCcu_keyMin (s : State) : (resetCcu s).keyMin = State.reset.keyMin := rfl
@[simp] theorem resetCcu_busy (s : State) : (resetCcu s).busy = State.reset.busy := rfl
@[simp] theorem resetCcu_done (s : State) : (resetCcu s).done = State.reset.done := rfl
@[simp] theorem resetCcu_err (s : State) : (resetCcu s).err = State.reset.err := rfl
@[simp] theorem resetCcu_errcode (s : State) : (resetCcu s).errcode = State.reset.errcode := rfl
@[simp] theorem resetCcu_werr (s : State) : (resetCcu s).werr = State.reset.werr := rfl
@[simp] theorem resetCcu_aerr (s : State) : (resetCcu s).aerr = State.reset.aerr := rfl
@[simp] theorem resetCcu_cmdLast (s : State) : (resetCcu s).cmdLast = State.reset.cmdLast := rfl
@[simp] theorem resetCcu_inLen (s : State) : (resetCcu s).inLen = State.reset.inLen := rfl
@[simp] theorem resetCcu_keyLen (s : State) : (resetCcu s).keyLen = State.reset.keyLen := rfl
@[simp] theorem resetCcu_outLen (s : State) : (resetCcu s).outLen = State.reset.outLen := rfl
@[simp] theorem resetCcu_errpos (s : State) : (resetCcu s).errpos = State.reset.errpos := rfl
@[simp] theorem resetCcu_rows (s : State) : (resetCcu s).rows = State.reset.rows := rfl
@[simp] theorem resetCcu_cols (s : State) : (resetCcu s).cols = State.reset.cols := rfl
@[simp] theorem resetCcu_hillDet (s : State) : (resetCcu s).hillDet = State.reset.hillDet := rfl
@[simp] theorem resetCcu_hillDinv (s : State) : (resetCcu s).hillDinv = State.reset.hillDinv := rfl
@[simp] theorem resetCcu_mat (s : State) : (resetCcu s).mat = State.reset.mat := rfl
@[simp] theorem resetCcu_inv (s : State) : (resetCcu s).inv = State.reset.inv := rfl
@[simp] theorem resetCcu_sq (s : State) : (resetCcu s).sq = State.reset.sq := rfl
@[simp] theorem resetCcu_mem (s : State) : (resetCcu s).mem = State.reset.mem := rfl
@[simp] theorem resetCcu_pend (s : State) : (resetCcu s).pend = State.reset.pend := rfl
@[simp] theorem resetCcu_rdata (s : State) : (resetCcu s).rdata = s.rdata := rfl
@[simp] theorem resetCcu_turns (s : State) : (resetCcu s).turns = s.turns := rfl

/-! The reset values (10_state.md R51). -/

@[simp] theorem reset_ie : State.reset.ie = false := rfl
@[simp] theorem reset_keyMin : State.reset.keyMin = 12 := rfl
@[simp] theorem reset_busy : State.reset.busy = false := rfl
@[simp] theorem reset_done : State.reset.done = false := rfl
@[simp] theorem reset_err : State.reset.err = false := rfl
@[simp] theorem reset_errcode : State.reset.errcode = 0 := rfl
@[simp] theorem reset_werr : State.reset.werr = false := rfl
@[simp] theorem reset_aerr : State.reset.aerr = false := rfl
@[simp] theorem reset_cmdLast : State.reset.cmdLast = 0 := rfl
@[simp] theorem reset_inLen : State.reset.inLen = 0 := rfl
@[simp] theorem reset_keyLen : State.reset.keyLen = 0 := rfl
@[simp] theorem reset_outLen : State.reset.outLen = 0 := rfl
@[simp] theorem reset_errpos : State.reset.errpos = 0xFFFFFFFF := rfl
@[simp] theorem reset_rows : State.reset.rows = 2 := rfl
@[simp] theorem reset_cols : State.reset.cols = 2 := rfl
@[simp] theorem reset_hillDet : State.reset.hillDet = 0 := rfl
@[simp] theorem reset_hillDinv : State.reset.hillDinv = 0 := rfl
@[simp] theorem reset_mat : State.reset.mat = Vector.replicate 16 0 := rfl
@[simp] theorem reset_inv : State.reset.inv = Vector.replicate 16 0 := rfl
@[simp] theorem reset_sq : State.reset.sq = Vector.replicate 25 0 := rfl
@[simp] theorem reset_mem : State.reset.mem = [] := rfl
@[simp] theorem reset_pend : State.reset.pend = 0 := rfl
@[simp] theorem reset_rdata : State.reset.rdata = 0 := rfl
@[simp] theorem reset_turns : State.reset.turns = [] := rfl

/-- A write that is not rejected. -/
theorem writeUnlessBusy_of_idle {store : State → State} {s : State} (h : s.busy = false) :
    writeUnlessBusy store s = store s := by simp [writeUnlessBusy, h]

/-- A write that is rejected (40_command.md R111). -/
theorem writeUnlessBusy_of_busy {store : State → State} {s : State} (h : s.busy = true) :
    writeUnlessBusy store s = rejectWrite s := by simp [writeUnlessBusy, h]

/-- A reset restores every element, whatever stood before (10_state.md R51). -/
theorem resetCcu_eq (s : State) : resetCcu s = { State.reset with rdata := s.rdata, turns := s.turns } := rfl

/-- A read of `CTRL` with `SRST` 0 written before (10_state.md R26). -/
theorem writeCtrl_of_no_reset {v : Word} {s : State} (h : v[1] = false) :
    writeCtrl v s = { s with ie := v[0], keyMin := v.extractLsb' 8 8 } := by simp [writeCtrl, h]

/-- A write of 1 to `SRST` (10_state.md R26). -/
theorem writeCtrl_of_reset {v : Word} {s : State} (h : v[1] = true) : writeCtrl v s = resetCcu s := by
  simp [writeCtrl, h]

end Sys2Proof.Machine
end

