-- ==== Sys2Proof/Laws/Lifecycle.lean ====
section
/-! SUPPORT. What the shared operations of the lifecycle can do, said once: `exec`, `step` by whose turn it is, a
performed write by its register, and the checks that open a command. -/

namespace Sys2Proof.Machine

/-! ## Commands and steps -/

/-- Every command commits its result: the only outcome of `exec` is a next state (40_command.md R112, R122). -/
theorem exec_eq (i : Instr) (s : State) : exec i s = .next (commit (commandResult i s) s) := by
  cases i <;> rfl

theorem exec_next {i : Instr} {s t : State} (h : exec i s = .next t) : t = commit (commandResult i s) s := by
  rw [exec_eq] at h
  exact (Host.Outcome.next.inj h).symm

@[simp] theorem commit_ok (w : Writes) (s : State) : commit (.ok w) s = commitOk w s := rfl

@[simp] theorem commit_error (e : CmdError) (s : State) : commit (.error e) s = errorEntry e s := rfl

/-- An error commit is the error state of its code and position (40_command.md R115). -/
theorem errorEntry_eq (e : CmdError) (s : State) : errorEntry e s = errorState e.kind.code (errposWord e.pos) s := rfl

/-- A step by whose turn it is. -/
theorem step_eq (s : State) :
    step s =
      match nextTurn s with
      | .host a => .next (hostAccess a (popTurn s))
      | .rst => .next (resetCcu (popTurn s))
      | .sequencer => sequencerTurn (popTurn s) := by
  obtain ⟨ts, hts⟩ : ∃ ts, s.turns = ts := ⟨_, rfl⟩
  unfold step takeTurn nextTurn popTurn
  rw [hts]
  cases ts with
  | nil =>
    have hs : ({ s with turns := [] } : State) = s := by rw [← hts]
    simp [hs]
  | cons t ts => cases t <;> rfl

/-- The sequencer's turn: a commit where a command is pending, nothing otherwise (40_command.md R112). -/
theorem sequencerTurn_eq (s : State) :
    sequencerTurn s =
      if s.busy then
        match decode s.pend with
        | .ok i => .next (commit (commandResult i s) s)
        | .error _ => .next (errorEntry ⟨.illegalCommand, none⟩ s)
      else .next s := by
  unfold sequencerTurn
  split
  · cases h : decode s.pend with
    | ok i => exact exec_eq i s
    | error _ => rfl
  · rfl

/-- A run whose first step answers a next state goes on from there. -/
theorem run_succ {M : Host.Core} {s t : M.State} (h : M.step s = .next t) (k : Nat) : M.run (k + 1) s = M.run k t := by
  rw [Host.Core.run, h]

@[simp] theorem popTurn_turns (s : State) : (popTurn s).turns = s.turns.tail := rfl
@[simp] theorem popTurn_busy (s : State) : (popTurn s).busy = s.busy := rfl
@[simp] theorem popTurn_pend (s : State) : (popTurn s).pend = s.pend := rfl
@[simp] theorem popTurn_mem (s : State) : (popTurn s).mem = s.mem := rfl

/-! ## Host accesses -/

/-- The registers whose writes are rejected while a command is pending (40_command.md R111). -/
def regIsOperand : Reg → Bool
  | .cmd => true
  | .inLen => true
  | .keyLen => true
  | .hillDim => true
  | .mat _ _ => true
  | .key _ => true
  | .textIn _ => true
  | _ => false

/-- What a performed store to an operand may change: the operand elements, and bytes of `KEY` and `TEXT_IN` only. -/
structure OperandStore (s t : State) : Prop where
  rest : t = { s with
    inLen := t.inLen
    keyLen := t.keyLen
    rows := t.rows
    cols := t.cols
    mat := t.mat
    mem := t.mem }
  bytes : ∀ a, ¬(keyBase ≤ a ∧ a < keyBase + Config.nKey) → ¬(textInBase ≤ a ∧ a < textInBase + Config.nBuf) →
    Memory.read t.mem a = Memory.read s.mem a
  wf : Memory.wf s.mem → Memory.wf t.mem
  inBuffers : (∀ c ∈ s.mem, inBuffer c.1 = true) → ∀ c ∈ t.mem, inBuffer c.1 = true

/-- Everything a performed write can do, by the register at its offset (20_memory.md R74; 40_command.md R110, R111). -/
theorem writeReg_cases (r : Reg) (v : Word) (s : State) :
    (regIsOperand r = true ∧ s.busy = true ∧ writeReg r v s = rejectWrite s) ∨
    (r = .ctrl ∧ writeReg r v s = writeCtrl v s) ∨
    (r = .status ∧ writeReg r v s = writeStatus v s) ∨
    (r = .cmd ∧ s.busy = false ∧ writeReg r v s = accept v s) ∨
    (regIsOperand r = true ∧ r ≠ .cmd ∧ s.busy = false ∧ OperandStore s (writeReg r v s)) ∨
    (regIsOperand r = false ∧ r ≠ .ctrl ∧ r ≠ .status ∧ writeReg r v s = s) := by
  have hword : ∀ (base lo n : Nat), base + 4 ≤ lo + n → lo ≤ base →
      (lo = keyBase ∧ n = Config.nKey ∨ lo = textInBase ∧ n = Config.nBuf) →
      OperandStore s { s with mem := Memory.writeWord s.mem base v } := by
    intro base lo n h1 h2 h3
    refine ⟨rfl, fun a ha hb => ?_, fun h => Memory.wf_writeWord h _ _, fun h c hc => ?_⟩
    · show Memory.read (Memory.writeWord s.mem base v) a = _
      rw [Memory.read_writeWord, if_neg]
      rcases h3 with ⟨rfl, rfl⟩ | ⟨rfl, rfl⟩ <;> omega
    · rcases Memory.mem_writeBytes_offset hc with h4 | h4
      · rw [wordBytes_length] at h4
        have hlo : lo ≤ c.1 ∧ c.1 < lo + n := by omega
        unfold inBuffer
        rcases h3 with ⟨rfl, rfl⟩ | ⟨rfl, rfl⟩ <;> simp [hlo.1, hlo.2]
      · exact h c h4
  cases hb : s.busy with
  | true => cases r <;> simp [writeReg, regIsOperand, writeUnlessBusy_of_busy hb]
  | false =>
    cases r with
    | inLen => exact .inr (.inr (.inr (.inr (.inl ⟨rfl, nofun, rfl, by
        rw [writeReg, writeUnlessBusy_of_idle hb]; exact ⟨rfl, fun _ _ _ => rfl, id, id⟩⟩))))
    | keyLen => exact .inr (.inr (.inr (.inr (.inl ⟨rfl, nofun, rfl, by
        rw [writeReg, writeUnlessBusy_of_idle hb]; exact ⟨rfl, fun _ _ _ => rfl, id, id⟩⟩))))
    | hillDim => exact .inr (.inr (.inr (.inr (.inl ⟨rfl, nofun, rfl, by
        rw [writeReg, writeUnlessBusy_of_idle hb]; exact ⟨rfl, fun _ _ _ => rfl, id, id⟩⟩))))
    | mat i j => exact .inr (.inr (.inr (.inr (.inl ⟨rfl, nofun, rfl, by
        rw [writeReg, writeUnlessBusy_of_idle hb]; exact ⟨rfl, fun _ _ _ => rfl, id, id⟩⟩))))
    | key w => exact .inr (.inr (.inr (.inr (.inl ⟨rfl, nofun, rfl, by
        rw [writeReg, writeUnlessBusy_of_idle hb]
        have := w.isLt
        refine hword _ keyBase Config.nKey ?_ (by omega) (.inl ⟨rfl, rfl⟩)
        simp only [Config.nKey]
        omega⟩))))
    | textIn w => exact .inr (.inr (.inr (.inr (.inl ⟨rfl, nofun, rfl, by
        rw [writeReg, writeUnlessBusy_of_idle hb]
        have := w.isLt
        refine hword _ textInBase Config.nBuf ?_ (by omega) (.inr ⟨rfl, rfl⟩)
        simp only [Config.nBuf]
        omega⟩))))
    | _ => simp [writeReg, regIsOperand, writeUnlessBusy_of_idle hb]

/-- A host access that is performed on no register (20_memory.md R73). -/
theorem hostAccess_of_malformed {a : Access} {s : State} (h : a.wf = false) :
    (hostAccess a s = { s with aerr := true }) ∨ (hostAccess a s = { s with rdata := 0, aerr := true }) := by
  cases a <;> simp [hostAccess, h]

/-- A performed read (20_memory.md R72, R78). -/
theorem hostAccess_read {off : Offset} {width : Nat} {s : State} (h : (Access.read off width).wf = true) :
    hostAccess (.read off width) s = { s with rdata := readAt off s } := by simp [hostAccess, h]

/-- A performed write (20_memory.md R72). -/
theorem hostAccess_write {off : Offset} {width : Nat} {v : Word} {s : State} (h : (Access.write off width v).wf = true) :
    hostAccess (.write off width v) s = writeAt off v s := by simp [hostAccess, h]

/-- No host access touches the turns to come. -/
@[simp] theorem hostAccess_turns (a : Access) (s : State) : (hostAccess a s).turns = s.turns := by
  cases hwf : a.wf with
  | false => rcases hostAccess_of_malformed hwf with h | h <;> rw [h]
  | true =>
    cases a with
    | read off width => rw [hostAccess_read hwf]
    | write off width v =>
      rw [hostAccess_write hwf]
      unfold writeAt
      split
      · rename_i r _
        rcases writeReg_cases r v s with ⟨-, -, h⟩ | ⟨-, h⟩ | ⟨-, h⟩ | ⟨-, -, h⟩ | ⟨-, -, -, h⟩ | ⟨-, -, -, h⟩
        · rw [h]; rfl
        · rw [h]; unfold writeCtrl; split <;> rfl
        · rw [h, writeStatus_turns]
        · rw [h]; rfl
        · rw [h.rest]
        · rw [h]
      · rfl

@[simp] theorem commit_turns (r : Eval Writes) (s : State) : (commit r s).turns = s.turns := by cases r <;> rfl

@[simp] theorem commit_busy (r : Eval Writes) (s : State) : (commit r s).busy = false := by cases r <;> rfl

@[simp] theorem commit_done (r : Eval Writes) (s : State) : (commit r s).done = true := by cases r <;> rfl

/-! ## The checks that open a command -/

theorem checkKeyLen_eq (s : State) :
    checkKeyLen s = if 256 < s.keyLength then .error ⟨.invalidKey, none⟩ else .ok () := rfl

theorem checkInLen_eq (s : State) :
    checkInLen s = if 1024 < s.inLength then .error ⟨.invalidInput, none⟩ else .ok () := rfl

theorem hillDim_eq (s : State) :
    hillDim s =
      if s.rows.toNat ≠ s.cols.toNat then .error ⟨.invalidKey, none⟩
      else if s.rows.toNat = 0 ∨ 4 < s.rows.toNat then .error ⟨.invalidKey, none⟩
      else .ok s.rows.toNat := rfl

end Sys2Proof.Machine
end

