-- ==== Sys2Proof/Laws/Access.lean ====
section
/-! SUPPORT. What a host access and a step can do, said once, in the offsets of 20_memory.md R71: a performed access
by the class of its offset, and a step by whose turn it is. -/

namespace Sys2Proof.Machine

/-! ## Offsets -/

/-- Every aligned offset falls into one of the five access classes of 20_memory.md R71. -/
theorem offset_classes (off : Offset) (h : off.toNat % 4 = 0) :
    operandOffset off.toNat ∨ readOnlyOffset off.toNat ∨ reservedOffset off.toNat ∨ off = 0x004 ∨ off = 0x008 := by
  unfold operandOffset readOnlyOffset reservedOffset
  have hlt := off.isLt
  by_cases h4 : off.toNat = 4
  · have h4' : off = 4#12 := by bv_omega
    simp [h4']
  by_cases h8 : off.toNat = 8
  · have h8' : off = 8#12 := by bv_omega
    simp [h8']
  omega

/-- An operand offset holds an operand register, `CMD` at 0x00C only (40_command.md R111). -/
theorem regAt_of_operandOffset {off : Offset} (h : operandOffset off.toNat) :
    ∃ r, regAt off = some r ∧ regIsOperand r = true ∧ (r = .cmd → off = 0x00C) := by
  obtain ⟨h4, h⟩ := h
  have hlt := off.isLt
  have h3 : off.toNat / 4 = 3 → off = 0x00C := fun _ => by bv_omega
  unfold regAt
  simp only
  have hd : off.toNat = 4 * (off.toNat / 4) := by omega
  generalize off.toNat / 4 = w at *
  rcases h with h | h | h | h | h | h | h
  · obtain rfl : w = 3 := by omega
    exact ⟨_, rfl, rfl, fun _ => h3 rfl⟩
  · obtain rfl : w = 4 := by omega
    exact ⟨_, rfl, rfl, nofun⟩
  · obtain rfl : w = 5 := by omega
    exact ⟨_, rfl, rfl, nofun⟩
  · obtain rfl : w = 8 := by omega
    exact ⟨_, rfl, rfl, nofun⟩
  · rw [if_neg (by omega), if_pos (by omega)]
    exact ⟨_, rfl, rfl, nofun⟩
  · iterate 6 rw [if_neg (by omega)]
    rw [if_pos (by omega)]
    exact ⟨_, rfl, rfl, nofun⟩
  · iterate 8 rw [if_neg (by omega)]
    rw [if_pos (by omega)]
    exact ⟨_, rfl, rfl, nofun⟩

/-- A read-only offset holds a register that no write changes (20_memory.md R74). -/
theorem regAt_of_readOnlyOffset {off : Offset} (h : readOnlyOffset off.toNat) :
    ∃ r, regAt off = some r ∧ ∀ v s, writeReg r v s = s := by
  obtain ⟨h4, h⟩ := h
  unfold regAt
  simp only
  have hd : off.toNat = 4 * (off.toNat / 4) := by omega
  generalize off.toNat / 4 = w at *
  rcases h with h | h | h | h | h | h | h | h
  · obtain rfl : w = 0 := by omega
    exact ⟨_, rfl, fun _ _ => rfl⟩
  · obtain rfl : w = 6 := by omega
    exact ⟨_, rfl, fun _ _ => rfl⟩
  · obtain rfl : w = 7 := by omega
    exact ⟨_, rfl, fun _ _ => rfl⟩
  · obtain rfl : w = 9 := by omega
    exact ⟨_, rfl, fun _ _ => rfl⟩
  · obtain rfl : w = 10 := by omega
    exact ⟨_, rfl, fun _ _ => rfl⟩
  · iterate 2 rw [if_neg (by omega)]
    rw [if_pos (by omega)]
    exact ⟨_, rfl, fun _ _ => rfl⟩
  · iterate 4 rw [if_neg (by omega)]
    rw [if_pos (by omega)]
    exact ⟨_, rfl, fun _ _ => rfl⟩
  · iterate 9 rw [if_neg (by omega)]
    rw [if_pos (by omega)]
    exact ⟨_, rfl, fun _ _ => rfl⟩

/-- A reserved offset holds no register (20_memory.md R74). -/
theorem regAt_of_reservedOffset {off : Offset} (h : reservedOffset off.toNat) : regAt off = none := by
  obtain ⟨h4, h⟩ := h
  unfold regAt
  simp only
  have hd : off.toNat = 4 * (off.toNat / 4) := by omega
  generalize off.toNat / 4 = w at *
  rcases h with h | h | h | h | h
  · have hw : w = 11 ∨ w = 12 ∨ w = 13 ∨ w = 14 ∨ w = 15 := by omega
    rcases hw with rfl | rfl | rfl | rfl | rfl <;> rfl
  · iterate 3 rw [if_neg (by omega)]
    rw [if_pos (by omega)]
  · iterate 5 rw [if_neg (by omega)]
    rw [if_pos (by omega)]
  · iterate 7 rw [if_neg (by omega)]
    rw [if_pos (by omega)]
  · iterate 10 rw [if_neg (by omega)]

/-- A 32-bit aligned write is well formed (20_memory.md R72). -/
theorem wf_write_iff {off : Offset} {width : Nat} {v : Word} :
    (Access.write off width v).wf = true ↔ width = 4 ∧ off.toNat % 4 = 0 := by simp [Access.wf]

/-- A 32-bit aligned read is well formed (20_memory.md R72). -/
theorem wf_read_iff {off : Offset} {width : Nat} :
    (Access.read off width).wf = true ↔ width = 4 ∧ off.toNat % 4 = 0 := by simp [Access.wf]

/-! ## Accesses -/

/-- Everything a host access can do: malformed, a read, a rejected write, a write to `CTRL`, to `STATUS`, an accepted
command, an operand store, or a write that is ignored (20_memory.md R72 to R74; 40_command.md R110, R111). -/
theorem hostAccess_cases (a : Access) (s : State) :
    (a.wf = false ∧ (hostAccess a s = { s with aerr := true } ∨ hostAccess a s = { s with rdata := 0, aerr := true })) ∨
    (a.wf = true ∧ (∀ off v, a ≠ .write off 4 v) ∧ ∃ w, hostAccess a s = { s with rdata := w }) ∨
    (∃ off v, a = .write off 4 v ∧ operandOffset off.toNat ∧ s.busy = true ∧ hostAccess a s = rejectWrite s) ∨
    (∃ v, a = .write 0x004 4 v ∧ hostAccess a s = writeCtrl v s) ∨
    (∃ v, a = .write 0x008 4 v ∧ hostAccess a s = writeStatus v s) ∨
    (∃ v, a = .write 0x00C 4 v ∧ s.busy = false ∧ hostAccess a s = accept v s) ∨
    (∃ off v, a = .write off 4 v ∧ off ≠ 0x00C ∧ operandOffset off.toNat ∧ s.busy = false ∧
      OperandStore s (hostAccess a s)) ∨
    (∃ off v, a = .write off 4 v ∧ (readOnlyOffset off.toNat ∨ reservedOffset off.toNat) ∧ hostAccess a s = s) := by
  cases hwf : a.wf with
  | false => exact .inl ⟨rfl, hostAccess_of_malformed hwf⟩
  | true =>
    cases a with
    | read off width => exact .inr (.inl ⟨rfl, nofun, _, hostAccess_read hwf⟩)
    | write off width v =>
      obtain ⟨rfl, h4⟩ := wf_write_iff.mp hwf
      rw [hostAccess_write hwf]
      unfold writeAt
      rcases offset_classes off h4 with ho | ho | ho | rfl | rfl
      · obtain ⟨r, hr, hop, hcmd⟩ := regAt_of_operandOffset ho
        rw [hr]
        simp only
        rcases writeReg_cases r v s with ⟨-, hb, h⟩ | ⟨rfl, h⟩ | ⟨rfl, h⟩ | ⟨rfl, hb, h⟩ | ⟨-, hc, hb, h⟩ | ⟨h, -⟩
        · exact .inr (.inr (.inl ⟨off, v, rfl, ho, hb, h⟩))
        · cases hop
        · cases hop
        · obtain rfl := hcmd rfl
          exact .inr (.inr (.inr (.inr (.inr (.inl ⟨v, rfl, hb, h⟩)))))
        · refine .inr (.inr (.inr (.inr (.inr (.inr (.inl ⟨off, v, rfl, ?_, ho, hb, h⟩))))))
          rintro rfl
          cases hr
          exact hc rfl
        · rw [hop] at h
          cases h
      · obtain ⟨r, hr, h⟩ := regAt_of_readOnlyOffset ho
        rw [hr]
        exact .inr (.inr (.inr (.inr (.inr (.inr (.inr ⟨off, v, rfl, .inl ho, h v s⟩))))))
      · rw [regAt_of_reservedOffset ho]
        exact .inr (.inr (.inr (.inr (.inr (.inr (.inr ⟨off, v, rfl, .inr ho, rfl⟩))))))
      · exact .inr (.inr (.inr (.inl ⟨v, rfl, rfl⟩)))
      · exact .inr (.inr (.inr (.inr (.inl ⟨v, rfl, rfl⟩))))

/-! ## Steps -/

/-- Everything a step can do, by whose turn it is: a host access, `rst`, the sequencer with nothing pending, or a
commit (20_memory.md R79; 40_command.md R112, R117). -/
theorem step_next_cases {s t : State} (h : step s = .next t) :
    (∃ a, nextTurn s = .host a ∧ t = hostAccess a (popTurn s)) ∨
    (nextTurn s = .rst ∧ t = resetCcu (popTurn s)) ∨
    (nextTurn s = .sequencer ∧ s.busy = false ∧ t = popTurn s) ∨
    (completesNext s ∧
      ((∃ i, decode s.pend = .ok i ∧ t = commit (commandResult i (popTurn s)) (popTurn s)) ∨
       (∃ e, decode s.pend = .error e ∧ t = errorEntry ⟨.illegalCommand, none⟩ (popTurn s)))) := by
  rw [step_eq] at h
  cases hn : nextTurn s with
  | host a =>
    rw [hn] at h
    exact .inl ⟨a, rfl, (Host.Outcome.next.inj h).symm⟩
  | rst =>
    rw [hn] at h
    exact .inr (.inl ⟨rfl, (Host.Outcome.next.inj h).symm⟩)
  | sequencer =>
    rw [hn] at h
    simp only [sequencerTurn_eq] at h
    by_cases hb : (popTurn s).busy = true
    · rw [if_pos hb] at h
      refine .inr (.inr (.inr ⟨⟨hn, hb⟩, ?_⟩))
      cases hd : decode (popTurn s).pend with
      | ok i =>
        rw [hd] at h
        exact .inl ⟨i, hd, (Host.Outcome.next.inj h).symm⟩
      | error e =>
        rw [hd] at h
        exact .inr ⟨e, hd, (Host.Outcome.next.inj h).symm⟩
    · rw [if_neg hb] at h
      exact .inr (.inr (.inl ⟨rfl, by simpa using hb, (Host.Outcome.next.inj h).symm⟩))

end Sys2Proof.Machine
end

