-- ==== Sys2Proof/Laws/Commit.lean ====
section
/-! SUPPORT. What a successful commit leaves unchanged, and what it writes where (40_command.md R114, R116), in the
terms of Safety.lean: the parts that every command's statement shares. -/

namespace Sys2Proof.Machine

/-- Every successful commit keeps the control fields and the operands (30_encoding.md R93). -/
theorem commitOk_frame (w : Writes) (s : State) : CommitFrame s (commitOk w s) := by constructor <;> rfl

/-- A result without inverse values keeps `HILL_DET`, `HILL_DINV` and `INV`. -/
theorem commitOk_keepsInverse {w : Writes} (h : w.inverse = none) (s : State) : KeepsInverse s (commitOk w s) := by
  simp [KeepsInverse, commitOk, h]

/-- A result without square cells keeps `SQ`. -/
theorem commitOk_keepsSquare {w : Writes} (h : w.square = none) (s : State) : (commitOk w s).sq = s.sq := by
  simp [commitOk, h]

/-- A result without text keeps every byte and `OUT_LEN`. -/
theorem commitOk_keepsBytes {w : Writes} (h : w.text = none) (s : State) :
    KeepsBytes s (commitOk w s) ∧ (commitOk w s).outLen = s.outLen := by
  simp [KeepsBytes, commitOk, h]

/-- A result with text that fits `TEXT_OUT` changes no byte outside it. -/
theorem commitOk_keepsBytesOutside {w : Writes} (h : ∀ out, w.text = some out → out.length ≤ 1028) (s : State) :
    KeepsBytesOutsideTextOut s (commitOk w s) := by
  intro a ha
  rw [commitOk_mem]
  cases hw : w.text with
  | none => rfl
  | some out =>
    simp only
    rw [Memory.read_writeTextOut _ _ _ (h out hw), if_neg]
    simpa [textOutBase, Config.nOut, Config.nBuf, Config.nMax] using ha

/-- The bytes of `TEXT_OUT` after `TextOut(out)`: those of `out`, then 0x00 (40_command.md R116). -/
theorem commitOk_outByte {w : Writes} {out : List Byte} (hw : w.text = some out) (h : out.length ≤ 1028) (s : State)
    {i : Nat} (hi : i < 1028) : (commitOk w s).outByte i = out.getD i 0 := by
  unfold State.outByte
  rw [commitOk_mem, hw]
  simp only
  rw [Memory.read_writeTextOut _ _ _ h, if_pos]
  · simp
  · simp [Config.nOut, Config.nBuf, Config.nMax]
    omega

/-- `OUT_LEN` after `TextOut(out)` (40_command.md R116). -/
theorem commitOk_outputLength {w : Writes} {out : List Byte} (hw : w.text = some out) (h : out.length ≤ 1028)
    (s : State) : OutputLength (commitOk w s) out.length := by
  refine ⟨?_, h, fun i h1 h2 => ?_⟩
  · rw [commitOk_outLen, hw]
    simp only [BitVec.toNat_ofNat]
    omega
  · rw [commitOk_outByte hw h s h2, List.getD_eq_default _ _ h1]

end Sys2Proof.Machine
end

