-- ==== Sys2Proof/Laws/HostProgram.lean ====
section
/-! SUPPORT. What the transactions of `copyout` do (30_encoding.md R98): the offsets it names, and one turn of it. -/

namespace Sys2Proof.Machine

/-- Word `w` of `TEXT_IN` stands at 0x400 + 4 w (20_memory.md R71). -/
theorem regAt_textIn {w : Nat} (h : w < 256) :
    regAt (BitVec.ofNat 12 (textInBase + 4 * w)) = some (.textIn ⟨w, h⟩) := by
  have hd : (BitVec.ofNat 12 (textInBase + 4 * w)).toNat / 4 = 0x100 + w := by
    rw [BitVec.toNat_ofNat]
    simp only [textInBase]
    omega
  unfold regAt
  simp only [hd]
  iterate 8 rw [if_neg (by omega)]
  rw [if_pos (by omega)]
  exact congrArg (fun k => some (Reg.textIn k)) (Fin.ext (by simp only [Fin.ofNat]; omega))

/-- Word `w` of `TEXT_OUT` stands at 0x800 + 4 w (20_memory.md R71). -/
theorem regAt_textOut {w : Nat} (h : w < 257) :
    regAt (BitVec.ofNat 12 (textOutBase + 4 * w)) = some (.textOut ⟨w, h⟩) := by
  have hd : (BitVec.ofNat 12 (textOutBase + 4 * w)).toNat / 4 = 0x200 + w := by
    rw [BitVec.toNat_ofNat]
    simp only [textOutBase]
    omega
  unfold regAt
  simp only [hd]
  iterate 9 rw [if_neg (by omega)]
  rw [if_pos (by omega)]
  exact congrArg (fun k => some (Reg.textOut k)) (Fin.ext (by simp only [Fin.ofNat]; omega))

/-- A read of word `w` of `TEXT_OUT` (10_state.md R48). -/
theorem hostAccess_read_textOut {w : Nat} (h : w < 257) (s : State) :
    hostAccess (.read (BitVec.ofNat 12 (textOutBase + 4 * w)) 4) s =
      { s with rdata := Memory.readWord s.mem (textOutBase + 4 * w) } := by
  rw [hostAccess_read (wf_read_iff.mpr ⟨rfl, by rw [BitVec.toNat_ofNat]; simp only [textOutBase]; omega⟩)]
  unfold readAt
  rw [regAt_textOut h]
  rfl

/-- A write of word `w` of `TEXT_IN` while idle (10_state.md R47). -/
theorem hostAccess_write_textIn {w : Nat} (h : w < 256) (v : Word) {s : State} (hb : s.busy = false) :
    hostAccess (.write (BitVec.ofNat 12 (textInBase + 4 * w)) 4 v) s =
      { s with mem := Memory.writeWord s.mem (textInBase + 4 * w) v } := by
  rw [hostAccess_write (wf_write_iff.mpr ⟨rfl, by rw [BitVec.toNat_ofNat]; simp only [textInBase]; omega⟩)]
  unfold writeAt
  rw [regAt_textIn h]
  simp only [writeReg]
  rw [writeUnlessBusy_of_idle hb]

/-- One turn of a `copyout`: its next transaction, and its place after the value that read. -/
theorem hostProgramTurn_copyout (copy : CopyOut) (s : State) :
    hostProgramTurn opCopyOut { line := 0, copy := copy } s =
      (some
        (match copyOutNext copy (hostAccess (copyOutAccess copy) s).rdata with
          | some copy' => { line := 0, copy := copy' }
          | none => { line := 1 }),
       hostAccess (copyOutAccess copy) s) := rfl

end Sys2Proof.Machine
end

