-- ==== Sys2Proof/Laws/Normalizer.lean ====
section
/-! SUPPORT. The normalizer's laws: the byte classes are disjoint, and the `NormText` loop in the form proofs use. -/

namespace Sys2Proof.Machine

/-- No letter is whitespace (41_normalizer.md R130). -/
theorem isWS_of_isLetter {b : Byte} (h : isLetter b = true) : isWS b = false := by
  revert b; decide

/-- A folded letter is upper case (41_normalizer.md R131). -/
theorem isUpper_upper {b : Byte} (h : isLetter b = true) : isUpper (upper b) = true := by
  revert b; decide

/-- Case folding keeps the class of a byte. -/
theorem isLetter_upper (b : Byte) : isLetter (upper b) = isLetter b := by
  revert b; decide

/-- A folded letter without 'J' is one of the 25 symbols (41_normalizer.md R133). -/
theorem foldJ_upper_mem_a25 {b : Byte} (h : isLetter b = true) : foldJ (upper b) ∈ a25 := by
  revert b; decide

/-- The loop of `NormText` (41_normalizer.md R135): the first byte that is neither a letter nor whitespace is the
error, and without one the result is the letters, folded, in order. -/
theorem normTextFrom_eq (jmap : Bool) (i : Nat) (bs : List Byte) :
    normTextFrom jmap i bs =
      match bs.findIdx? (fun b => !isLetter b && !isWS b) with
      | some k => .error ⟨.invalidInput, some (i + k)⟩
      | none => .ok ((bs.filter isLetter).map (foldSymbol jmap)) := by
  induction bs generalizing i with
  | nil => rfl
  | cons b bs ih =>
    rw [normTextFrom, List.findIdx?_cons, ih]
    by_cases hl : isLetter b = true
    · have hw := isWS_of_isLetter hl
      simp only [hl, hw, Bool.not_true, Bool.false_and]
      cases hf : bs.findIdx? (fun b => !isLetter b && !isWS b) with
      | none => simp [hl]
      | some k => simp [Nat.add_comm, Nat.add_left_comm]
    · have hl' : isLetter b = false := by simpa using hl
      by_cases hw : isWS b = true
      · simp only [hl', hw, Bool.not_true, Bool.and_false]
        cases hf : bs.findIdx? (fun b => !isLetter b && !isWS b) with
        | none => simp [hl']
        | some k => simp [Nat.add_comm, Nat.add_left_comm]
      · have hw' : isWS b = false := by simpa using hw
        simp [hl', hw', raise]

/-- The Vigenère key check (42_vigenere.md R153) in the form proofs use. -/
theorem vigKeyCheck_ok {s : State} {n : Nat} (h0 : 0 < n) (h : ∀ j, j < n → isLetter (s.keyByte j) = true) :
    vigKeyCheck s n = .ok () := by
  have hf : (List.range n).find? (fun j => !isLetter (s.keyByte j)) = none := by
    rw [List.find?_eq_none]
    intro j hj
    simp [h j (List.mem_range.mp hj)]
  unfold vigKeyCheck
  rw [if_neg (by omega), hf]

/-- Appending to a square a symbol that is there changes nothing (43_playfair.md R171). -/
theorem appendNew_of_mem {seq : List Byte} {s : Byte} (h : s ∈ seq) : appendNew seq s = seq := by
  simp [appendNew, h]

theorem appendNew_of_not_mem {seq : List Byte} {s : Byte} (h : s ∉ seq) : appendNew seq s = seq ++ [s] := by
  simp [appendNew, h]

end Sys2Proof.Machine
end

