-- ==== Sys2Proof/Laws/PerInstr.lean ====
section
/-! SUPPORT. A fact of every command as syntax, one lemma per constructor: its encoding is a word the field tables
allow (30_encoding.md R90, R92), and the table row's word of 32 bits. -/

namespace Sys2Proof.Laws.EncodesLegal

/-- The command's word is legal by the field tables, which the encoder is not written from. -/
def Statement (i : Instr) : Prop := i.wf = true ∧ legalCommandWord (encode i) = true

theorem vigEnc : Statement .vigEnc := ⟨rfl, by decide⟩
theorem vigDec : Statement .vigDec := ⟨rfl, by decide⟩
theorem pfBuild : Statement .pfBuild := ⟨rfl, by decide⟩
theorem pfEnc : Statement .pfEnc := ⟨rfl, by decide⟩
theorem pfDec : Statement .pfDec := ⟨rfl, by decide⟩
theorem hillEnc : Statement .hillEnc := ⟨rfl, by decide⟩
theorem hillDec : Statement .hillDec := ⟨rfl, by decide⟩
theorem hillInv : Statement .hillInv := ⟨rfl, by decide⟩

end Sys2Proof.Laws.EncodesLegal
end

