-- ==== Sys2Proof/Tests/Slice0.lean ====
section
/-! SUPPORT. Tests: the encodings written out bit by bit, the well-formedness smoke, at most two steps per command with
results from 95_test_vectors.md, and for every statement of Obligations.lean that has hypotheses a state that meets
them, at a boundary value of each clause. -/

namespace Sys2Proof.Tests

open Sys2Proof Sys2Proof.Machine

/-! ## Helpers -/

/-- The bytes of a text. -/
def ascii (cs : List Char) : List Byte := cs.map fun c => BitVec.ofNat 8 c.toNat

/-- The reset state with a key and a text loaded. -/
def loaded (key text : List Byte) : State :=
  { State.reset with
    keyLen := BitVec.ofNat 16 key.length
    inLen := BitVec.ofNat 16 text.length
    mem := Memory.writeBytes (Memory.writeBytes [] keyBase key) textInBase text }

/-- The reset state with a matrix of dimension `n` and a text loaded. -/
def hillLoaded (n : BitVec 4) (mat : Vector Word 16) (text : List Byte) : State :=
  { loaded [] text with rows := n, cols := n, mat := mat }

/-- The state a command leaves. -/
def after (i : Instr) (s : State) : State :=
  match exec i s with
  | .next t => t
  | .fault _ => s
  | .refused _ => s

/-- The state a step leaves. -/
def stepped (s : State) : State :=
  match step s with
  | .next t => t
  | .fault _ => s
  | .refused _ => s

/-- The reset state with turns to come. -/
def withTurns (ts : List Turn) : State := { State.reset with turns := ts }

/-- The reset state with a word accepted and turns to come. -/
def pendingWith (w : Word) (ts : List Turn) : State := { accept w State.reset with turns := ts }

theorem exec_after (i : Instr) (s : State) : exec i s = .next (after i s) := by
  unfold after
  rw [exec_eq]

theorem step_stepped_of {s t : State} (h : step s = .next t) : step s = .next (stepped s) := by
  unfold stepped
  rw [h]

/-- "KEY". -/
def keyKEY : List Byte := ascii ['K', 'E', 'Y']

/-- "PLAYFAIREXAMPLE". -/
def keyPLAYFAIR : List Byte := ascii ['P', 'L', 'A', 'Y', 'F', 'A', 'I', 'R', 'E', 'X', 'A', 'M', 'P', 'L', 'E']

/-- The matrix `M2` of 95_test_vectors.md. -/
def matM2 : Vector Word 16 := #v[3, 3, 0, 0, 2, 5, 0, 0, 0, 0, 0, 0, 0, 0, 0, 0]

/-- The matrix `BIG` of 95_test_vectors.md. -/
def matBIG : Vector Word 16 := #v[0x7FFFFFFF, 0x80000000, 0, 0, 1, 1, 0, 0, 0, 0, 0, 0, 0, 0, 0, 0]

/-- The 4 × 4 identity. -/
def matId : Vector Word 16 := #v[1, 0, 0, 0, 0, 1, 0, 0, 0, 0, 1, 0, 0, 0, 0, 1]

/-! ## Decoding, the words written out as `RSV`, `ENG`, `FN` (30_encoding.md R90, R92) -/

theorem test_decode_vigEnc : decode (0b000000000000000000000000#24 ++ 0b0000#4 ++ 0b0001#4) = .ok .vigEnc := by decide
theorem test_decode_vigDec : decode (0b000000000000000000000000#24 ++ 0b0000#4 ++ 0b0010#4) = .ok .vigDec := by decide
theorem test_decode_pfBuild : decode (0b000000000000000000000000#24 ++ 0b0001#4 ++ 0b0000#4) = .ok .pfBuild := by decide
theorem test_decode_pfEnc : decode (0b000000000000000000000000#24 ++ 0b0001#4 ++ 0b0001#4) = .ok .pfEnc := by decide
theorem test_decode_pfDec : decode (0b000000000000000000000000#24 ++ 0b0001#4 ++ 0b0010#4) = .ok .pfDec := by decide
theorem test_decode_hillEnc : decode (0b000000000000000000000000#24 ++ 0b0010#4 ++ 0b0000#4) = .ok .hillEnc := by decide
theorem test_decode_hillDec : decode (0b000000000000000000000000#24 ++ 0b0010#4 ++ 0b0001#4) = .ok .hillDec := by decide
theorem test_decode_hillInv : decode (0b000000000000000000000000#24 ++ 0b0010#4 ++ 0b0010#4) = .ok .hillInv := by decide

/-- C-3 and C-4 of 95_test_vectors.md: the unassigned opcodes. -/
theorem test_decode_unassigned :
    decode 0x00 = .error .unassignedOpcode ∧ decode 0x03 = .error .unassignedOpcode ∧
    decode 0x0F = .error .unassignedOpcode ∧ decode 0x13 = .error .unassignedOpcode ∧
    decode 0x23 = .error .unassignedOpcode ∧ decode 0x30 = .error .unassignedOpcode ∧
    decode 0xFF = .error .unassignedOpcode := by decide

/-- C-5 of 95_test_vectors.md: a nonzero `RSV`. -/
theorem test_decode_rsv :
    decode 0x00000101 = .error .reservedFieldNotZero ∧ decode 0x80000001 = .error .reservedFieldNotZero := by decide

theorem test_decodeTableWord_rows :
    ∀ p ∈ [(0x01, Instr.vigEnc), (0x02, .vigDec), (0x10, .pfBuild), (0x11, .pfEnc), (0x12, .pfDec), (0x20, .hillEnc),
        (0x21, .hillDec), (0x22, .hillInv)], decodeTableWord 32 p.1 = some p.2 := by decide +kernel

theorem test_decodeTableWord_others :
    decodeTableWord 32 0x03 = none ∧ decodeTableWord 8 0x01 = some .vigEnc ∧ decodeTableWord 40 0x100000001 = none := by
  decide +kernel

/-! ## Well-formedness: one ill-formed term for each check -/

theorem test_wf_access_width : (Access.read 0x010 2).wf = false ∧ (Access.write 0x010 2 5).wf = false := by decide
theorem test_wf_access_alignment : (Access.read 0x402 4).wf = false ∧ (Access.write 0x402 4 5).wf = false := by decide
theorem test_wf_access_good : (Access.read 0xFFC 4).wf = true ∧ (Access.write 0x000 4 5).wf = true := by decide
theorem test_legal_rsv : legalCommandWord 0x00000101 = false ∧ legalCommandWord 0x80000001 = false := by decide
theorem test_legal_eng : legalCommandWord 0x30 = false ∧ legalCommandWord 0xF1 = false := by decide
theorem test_legal_fn :
    legalCommandWord 0x00 = false ∧ legalCommandWord 0x03 = false ∧ legalCommandWord 0x13 = false ∧
    legalCommandWord 0x23 = false := by decide
theorem test_wf_hostOp_offset :
    (HostOp.wr 0x402 1).wf 1 = false ∧ (HostOp.rd 0x001).wf 1 = false ∧ (HostOp.poll 0x00A 2 2).wf 1 = false ∧
    (HostOp.bz 0x00B 2 0).wf 1 = false := by decide
theorem test_wf_hostOp_line : (HostOp.bz 0x008 2 5).wf 5 = false ∧ (HostOp.bz 0x008 2 4).wf 5 = true := by decide

/-! ## Commands, results from 95_test_vectors.md -/

/-- V-3: the space consumes a key position. -/
theorem test_vigEnc_absolute_index :
    (after .vigEnc (loaded keyKEY (ascii ['H', 'E', 'L', 'L', 'O', ' ', 'W', 'O', 'R', 'L', 'D']))).outBytes 12 =
      ascii ['R', 'I', 'J', 'V', 'S', ' ', 'G', 'S', 'P', 'V', 'H'] ++ [0] := by decide +kernel

/-- V-10: the index of the bad key byte. -/
theorem test_vigEnc_bad_key :
    let t := after .vigEnc (loaded (ascii ['K', '3', 'Y']) (ascii ['H', 'E', 'L', 'L', 'O']))
    (t.err, t.errcode, t.errpos, t.outLen) = (true, 1, 1, 0) := by decide +kernel

/-- V-6: 0 - 1 reduces to 25. -/
theorem test_vigDec_wraps : (after .vigDec (loaded (ascii ['B']) (ascii ['A']))).outByte 0 = 0x5A := by decide +kernel

/-- V-5: the round trip with an interior space. -/
theorem test_vigDec_inverts :
    (after .vigDec (loaded keyKEY (ascii ['R', 'I', 'J', 'V', 'S', ' ', 'G', 'S', 'P', 'V', 'H']))).outBytes 11 =
      ascii ['H', 'E', 'L', 'L', 'O', ' ', 'W', 'O', 'R', 'L', 'D'] := by decide +kernel

/-- S-5: other bytes are skipped and repeated letters dropped. -/
theorem test_pfBuild_skips :
    (after .pfBuild (loaded (ascii ['Z', 'e', 'b', 'r', 'a', '-', '9', ' ', 'z', 'z']) [])).sq.toList =
      ascii ['Z', 'E', 'B', 'R', 'A', 'C', 'D', 'F', 'G', 'H', 'I', 'K', 'L', 'M', 'N', 'O', 'P', 'Q', 'S', 'T',
        'U', 'V', 'W', 'X', 'Y'] := by decide +kernel

/-- S-3: 'J' becomes 'I', once. -/
theorem test_pfBuild_folds_j :
    (after .pfBuild (loaded (ascii ['J', 'J']) [])).sq.toList =
      ascii ['I', 'A', 'B', 'C', 'D', 'E', 'F', 'G', 'H', 'K', 'L', 'M', 'N', 'O', 'P', 'Q', 'R', 'S', 'T', 'U',
        'V', 'W', 'X', 'Y', 'Z'] := by decide +kernel

/-- P-1: rectangles, one same column, one same row, and the pad. -/
theorem test_pfEnc_all_cases :
    (after .pfEnc (loaded keyPLAYFAIR (ascii ['I', 'N', 'S', 'T', 'R', 'U', 'M', 'E', 'N', 'T', 'S']))).outBytes 12 =
      ascii ['R', 'K', 'K', 'Z', 'C', 'L', 'I', 'X', 'K', 'U', 'Q', 'M'] := by decide +kernel

/-- P-7: the row wraps from 4 to 0. -/
theorem test_pfEnc_wraps :
    (after .pfEnc (loaded keyPLAYFAIR (ascii ['P', 'T']))).outBytes 2 = ascii ['I', 'P'] := by decide +kernel

/-- P-2. -/
theorem test_pfDec_inverts :
    (after .pfDec (loaded keyPLAYFAIR
      (ascii ['R', 'K', 'K', 'Z', 'C', 'L', 'I', 'X', 'K', 'U', 'Q', 'M']))).outBytes 12 =
      ascii ['I', 'N', 'S', 'T', 'R', 'U', 'M', 'E', 'N', 'T', 'S', 'X'] := by decide +kernel

/-- P-23: three letters once the space is stripped. -/
theorem test_pfDec_odd :
    let t := after .pfDec (loaded keyPLAYFAIR (ascii ['A', 'B', ' ', 'C']))
    (t.err, t.errcode, t.errpos, t.sq) = (true, 3, 0xFFFFFFFF, State.reset.sq) := by decide +kernel

/-- H-3: the pad. -/
theorem test_hillEnc_pads :
    (after .hillEnc (hillLoaded 2 matM2 (ascii ['H', 'E', 'L']))).outBytes 5 = ascii ['D', 'P', 'B', 'S'] ++ [0] := by
  decide +kernel

/-- H-17: a negative element. -/
theorem test_hillEnc_negative :
    (after .hillEnc (hillLoaded 2 #v[0xFFFFFFE9, 3, 0, 0, 2, 5, 0, 0, 0, 0, 0, 0, 0, 0, 0, 0]
      (ascii ['H', 'E', 'L', 'P']))).outBytes 4 = ascii ['D', 'P', 'L', 'E'] := by decide +kernel

/-- H-22: dimension 3. -/
theorem test_hillDec_three :
    let t := after .hillDec (hillLoaded 3 #v[6, 24, 1, 0, 13, 16, 10, 0, 20, 17, 15, 0, 0, 0, 0, 0]
      (ascii ['Q', 'R', 'T']))
    t.outBytes 3 = ascii ['A', 'C', 'T'] ∧ t.hillDet = 25 ∧ t.hillDinv = 25 ∧
      t.inv = #v[8, 5, 10, 0, 21, 8, 21, 0, 21, 12, 8, 0, 0, 0, 0, 0] := by decide +kernel

/-- H-14: a singular key. -/
theorem test_hillDec_singular :
    let t := after .hillDec (hillLoaded 2 #v[2, 4, 0, 0, 1, 2, 0, 0, 0, 0, 0, 0, 0, 0, 0, 0] (ascii ['B', 'C']))
    (t.err, t.errcode, t.errpos, t.outLen) = (true, 2, 0xFFFFFFFF, 0) := by decide +kernel

/-- H-25: exact arithmetic on the largest elements. -/
theorem test_hillInv_exact :
    let t := after .hillInv (hillLoaded 2 matBIG [])
    t.hillDet = 21 ∧ t.hillDinv = 5 ∧ t.inv = #v[5, 16, 0, 0, 21, 11, 0, 0, 0, 0, 0, 0, 0, 0, 0, 0] := by
  decide +kernel

/-- H-37: elements outside the block become 0. -/
theorem test_hillInv_zeroes_rest :
    let t := after .hillInv { hillLoaded 1 #v[1, 0, 0, 0, 0, 0, 0, 0, 0, 0, 0, 0, 0, 0, 0, 0] [] with
      inv := Vector.replicate 16 7 }
    t.inv = #v[1, 0, 0, 0, 0, 0, 0, 0, 0, 0, 0, 0, 0, 0, 0, 0] := by decide +kernel

/-! ## Lifecycle and bus, results from 95_test_vectors.md -/

/-- C-3: the word 0 is illegal. -/
theorem test_illegal_zero :
    readAt 0x008 (stepped (hostAccess (.write 0x00C 4 0) State.reset)) = 0x56 := by decide

/-- C-6. -/
theorem test_busy_before_completion :
    let s := hostAccess (.write 0x00C 4 1) State.reset
    readAt 0x008 s = 0x1 ∧ readAt 0x00C s = 0x1 := by decide

/-- PROG-4, steps 8 to 10: the write that comes too early, before and after the completion, with `IE` set. -/
theorem test_rejected_write :
    let s := hostAccess (.write 0x400 4 0x41414141)
      (accept 1 { loaded keyKEY (ascii ['H', 'E', 'L', 'L', 'O']) with ie := true })
    readAt 0x008 s = 0x201 ∧ readAt 0x008 (stepped s) = 0xA02 ∧ readAt 0x800 (stepped s) = 0x564A4952 := by
  decide +kernel

/-- C-13 and C-14. -/
theorem test_malformed :
    readAt 0x008 (hostAccess (.write 0x010 2 5) State.reset) = 0x400 ∧
    readAt 0x010 (hostAccess (.write 0x010 2 5) State.reset) = 0 ∧
    readAt 0x008 (hostAccess (.read 0x402 4) State.reset) = 0x400 := by decide

/-- C-20. -/
theorem test_soft_reset_discards :
    hostAccess (.write 0x004 4 0x2) (accept 1 (loaded keyKEY keyKEY)) = State.reset := by decide +kernel

/-- C-23. -/
theorem test_hillDim_reserved_bits : readAt 0x020 (hostAccess (.write 0x020 4 0xF3F2) State.reset) = 0x302 := by decide

/-- The example of 20_memory.md R75. -/
theorem test_hello_words :
    readAt 0x400 (loaded [] (ascii ['H', 'E', 'L', 'L', 'O'])) = 0x4C4C4548 ∧
    readAt 0x404 (loaded [] (ascii ['H', 'E', 'L', 'L', 'O'])) = 0x4F := by decide +kernel

/-- C-12 and R253: the level of `irq`. -/
theorem test_irq_level :
    (stepped { accept 1 State.reset with ie := true }).irq = true ∧ (stepped (accept 1 State.reset)).irq = false := by
  decide

/-- Each table row's word, placed where the sequencer takes its next one, is completed by the next step as that row's
command. -/
theorem test_withFetchWord :
    ∀ p ∈ [(0x01, Instr.vigEnc), (0x02, .vigDec), (0x10, .pfBuild), (0x11, .pfEnc), (0x12, .pfDec), (0x20, .hillEnc),
        (0x21, .hillDec), (0x22, .hillInv)],
      stepped (State.reset.withFetchWord 32 p.1) = after p.2 (accept (BitVec.ofNat 32 p.1) State.reset) ∧
      (stepped (State.reset.withFetchWord 32 p.1)).done = true := by decide +kernel

/-- 70_reset_and_hazards.md R274: from reset `PF_ENC` uses the canonical square, and `HILL_INV` fails. -/
theorem test_first_commands :
    (stepped (State.reset.withFetchWord 32 0x11)).sq.toList = a25 ∧
    (stepped (State.reset.withFetchWord 32 0x22)).errcode = 2 := by decide +kernel

/-! ## The host notation (30_encoding.md R97, R98; PROG-1, PROG-3 and PROG-5 of 95_test_vectors.md) -/

theorem test_ldtext :
    opLdText (ascii ['H', 'E', 'L', 'L', 'O']) =
      [.wr 0x400 0x4C4C4548, .wr 0x404 0x0000004F, .wr 0x010 0x00000005] := by decide

theorem test_ldkey :
    opLdKey (ascii ['K', 'E', 'Y', 'K', 'E', 'Y', 'K', 'E', 'Y']) =
      [.wr 0x200 0x4B59454B, .wr 0x204 0x454B5945, .wr 0x208 0x00000059, .wr 0x014 0x00000009] := by decide

theorem test_ldmat :
    opLdMat 2 [[3, 3], [2, 5]] =
      [.wr 0x020 0x00000202, .wr 0x040 3, .wr 0x044 3, .wr 0x050 2, .wr 0x054 5] := by decide

theorem test_cmd_ack :
    opCmd .hillDec = [.wr 0x00C 0x00000021] ∧ opAck = [.wr 0x008 0x00000006] ∧ opAckAll = [.wr 0x008 0x00000606] := by
  decide

theorem test_branch_and_poll :
    (hostProgramTurn [.bz 0x008 0x1 7] { line := 0 } State.reset).1 = some { line := 7 } ∧
    (hostProgramTurn opWait { line := 0 } (accept 1 State.reset)).1 = some { line := 0 } ∧
    (hostProgramTurn opWait { line := 0 } (stepped (accept 1 State.reset))).1 = some { line := 1 } ∧
    (hostProgramTurn [.halt] { line := 0 } State.reset).1 = none := by decide

/-- The state of PROG-1 before its `copyout`: `OUT_LEN` 5 and "RIJVS". -/
def beforeCopyOut : State :=
  { State.reset with
    outLen := 5
    mem := Memory.writeBytes [] textOutBase (ascii ['R', 'I', 'J', 'V', 'S']) }

/-- PROG-1, steps 11 to 16: the six transactions of `copyout`, each write with the value its read returned. -/
theorem test_copyout_transactions :
    ((List.range 6).map fun k =>
      (hostProgramTurns opCopyOut k { line := 0 } beforeCopyOut).1.map fun pos => copyOutAccess pos.copy) =
      [some (.read 0x018 4), some (.read 0x800 4), some (.write 0x400 4 0x564A4952), some (.read 0x804 4),
        some (.write 0x404 4 0x00000053), some (.write 0x010 4 0x00000005)] := by decide +kernel

/-- PROG-1 after step 16. -/
theorem test_copyout_result :
    let r := hostProgramTurns opCopyOut 6 { line := 0 } beforeCopyOut
    r.1 = some { line := 1 } ∧ r.2.inLen = 5 ∧ r.2.textBytes 5 = ascii ['R', 'I', 'J', 'V', 'S'] := by decide +kernel

/-! ## Witnesses: states and operands that meet the hypotheses of each statement

The big buffers are filled with one byte, and their bytes are read through the memory laws. -/

theorem loaded_keyByte {key text : List Byte} (j : Nat) (hj : j < 256) :
    (loaded key text).keyByte j = key.getD j 0 := by
  show Memory.read (Memory.writeBytes (Memory.writeBytes [] keyBase key) textInBase text) (keyBase + j) = _
  rw [Memory.read_writeBytes, if_neg (by simp only [keyBase, textInBase]; omega), Memory.read_writeBytes]
  by_cases h : j < key.length
  · rw [if_pos (by omega), Nat.add_sub_cancel_left]
  · rw [if_neg (by omega), List.getD_eq_default _ _ (by omega)]
    rfl

theorem loaded_textByte {key text : List Byte} (hk : key.length ≤ 512) (i : Nat) :
    (loaded key text).textByte i = text.getD i 0 := by
  show Memory.read (Memory.writeBytes (Memory.writeBytes [] keyBase key) textInBase text) (textInBase + i) = _
  rw [Memory.read_writeBytes]
  by_cases h : i < text.length
  · rw [if_pos (by omega), Nat.add_sub_cancel_left]
  · rw [if_neg (by omega), Memory.read_writeBytes, if_neg (by simp only [keyBase, textInBase]; omega),
      List.getD_eq_default _ _ (by omega)]
    rfl

/-- `n` letters 'A', then `tail`. -/
def fill (n : Nat) (tail : List Byte) : List Byte := List.replicate n 0x41 ++ tail

theorem fill_length (n : Nat) (tail : List Byte) : (fill n tail).length = n + tail.length := by simp [fill]

theorem fill_getD_lt {n : Nat} (tail : List Byte) {j : Nat} (h : j < n) : (fill n tail).getD j 0 = 0x41 := by
  unfold fill
  rw [List.getD_append _ _ _ _ (by simpa using h), List.getD_replicate _ h]

theorem fill_getD_eq (n : Nat) (b : Byte) (tail : List Byte) : (fill n (b :: tail)).getD n 0 = b := by
  simp [fill]

theorem loaded_keyLength {key : List Byte} (text : List Byte) (h : key.length < 65536) :
    (loaded key text).keyLength = key.length := Nat.mod_eq_of_lt h

theorem loaded_inLength (key : List Byte) {text : List Byte} (h : text.length < 65536) :
    (loaded key text).inLength = text.length := Nat.mod_eq_of_lt h

/-- The lengths of filled buffers. -/
theorem filled_lengths {n m : Nat} (ktail ttail : List Byte) (hn : n + ktail.length < 65536)
    (hm : m + ttail.length < 65536) :
    (loaded (fill n ktail) (fill m ttail)).keyLength = n + ktail.length ∧
    (loaded (fill n ktail) (fill m ttail)).inLength = m + ttail.length := by
  rw [loaded_keyLength _ (by rwa [fill_length]), loaded_inLength _ (by rwa [fill_length]), fill_length, fill_length]
  exact ⟨rfl, rfl⟩

theorem hill_length (n : BitVec 4) (mat : Vector Word 16) {m : Nat} (tail : List Byte) (h : m + tail.length < 65536) :
    (hillLoaded n mat (fill m tail)).inLength = m + tail.length :=
  (filled_lengths (n := 0) [] tail (by simp) h).2

theorem hill_textByte (n : BitVec 4) (mat : Vector Word 16) (text : List Byte) (i : Nat) :
    (hillLoaded n mat text).textByte i = text.getD i 0 := loaded_textByte (key := []) (by simp) i

theorem isLetter_A : isLetter 0x41 = true := by decide

/-! ### Host accesses and resets -/

theorem witness_BothResets :
    nextTurn (pendingWith 1 [.rst]) = .rst ∧ (0x2#32)[1] = true ∧
    nextTurn (pendingWith 1 [.host (.write 0x004 4 0x2)]) = .host (.write 0x004 4 0x2) := by decide

theorem witness_RegisterMap :
    regAt 0xC00 = some (.textOut 256) ∧ regAt 0x160 = some (.sq 24) ∧ regAt 0x0BC = some (.inv 3 3) ∧
    reservedOffset 0x02C ∧ reservedOffset 0xFFC := by decide

theorem witness_CtrlWrite : (0x00000C02#32)[1] = true ∧ (0xFFFFFFFD#32)[1] = false := by decide

theorem witness_IdleCmdWrite : State.reset.busy = false := by decide

theorem witness_PendingRejects_operand :
    (pendingWith 1 []).busy = true ∧ operandOffset 0x00C ∧ operandOffset 0x010 ∧ operandOffset 0x014 ∧
    operandOffset 0x020 ∧ operandOffset 0x040 ∧ operandOffset 0x07C ∧ operandOffset 0x200 ∧ operandOffset 0x2FC ∧
    operandOffset 0x400 ∧ operandOffset 0x7FC := by
  refine ⟨rfl, ?_, ?_, ?_, ?_, ?_, ?_, ?_, ?_, ?_, ?_⟩ <;> decide

theorem witness_PendingRejects_ignored :
    readOnlyOffset 0x000 ∧ readOnlyOffset 0x0BC ∧ readOnlyOffset 0x160 ∧ readOnlyOffset 0xC00 ∧
    reservedOffset 0x02C ∧ reservedOffset 0x0FC ∧ reservedOffset 0x1FC ∧ reservedOffset 0x3FC ∧ reservedOffset 0xC04 ∧
    reservedOffset 0xFFC := by
  refine ⟨?_, ?_, ?_, ?_, ?_, ?_, ?_, ?_, ?_, ?_⟩ <;> decide

theorem witness_PendingRejects_performed :
    (pendingWith 1 []).busy = true ∧ (0xFFFFFFFD#32)[1] = false ∧ (0xFFC#12).toNat % 4 = 0 := by decide

/-- No aligned offset falls into two of the classes that have different outcomes. -/
theorem witness_classes_exclusive :
    ∀ off : Fin 4096, ¬(operandOffset off.val ∧ readOnlyOffset off.val) ∧
      ¬(operandOffset off.val ∧ reservedOffset off.val) ∧ ¬(readOnlyOffset off.val ∧ reservedOffset off.val) ∧
      ¬operandOffset 0x004 ∧ ¬readOnlyOffset 0x004 ∧ ¬reservedOffset 0x004 := by
  intro off
  refine ⟨?_, ?_, ?_, by decide, by decide, by decide⟩ <;> (rintro ⟨⟨h1, h2⟩, ⟨h3, h4⟩⟩; omega)

theorem witness_Malformed :
    ¬((2 : Nat) = 4 ∧ (0x010#12).toNat % 4 = 0) ∧ ¬((4 : Nat) = 4 ∧ (0xFFD#12).toNat % 4 = 0) ∧
    ¬((8 : Nat) = 4 ∧ (0xFF8#12).toNat % 4 = 0) := by decide

theorem witness_ReadsMayBeRepeated : (0x000#12).toNat % 4 = 0 ∧ (0xFFC#12).toNat % 4 = 0 := by decide

/-- The last byte of each buffer, stored and found by the statement's own expression. -/
theorem witness_LittleEndian :
    let s := { State.reset with mem := [(0x2FF, 0x5A), (0x7FF, 0x5B), (0xC03, 0x5C)] }
    s.keyByte 255 = 0x5A ∧ s.textByte 1023 = 0x5B ∧ s.outByte 1027 = 0x5C ∧
    (hostAccess (.read (BitVec.ofNat 12 (0x800 + 4 * (1027 / 4))) 4) s).rdata.extractLsb' (8 * (1027 % 4)) 8 = 0x5C := by
  decide

theorem witness_BufferWrite :
    let s := hostAccess (.write (BitVec.ofNat 12 (0x200 + 4 * 63)) 4 0x44332211) State.reset
    let t := hostAccess (.write (BitVec.ofNat 12 (0x400 + 4 * 255)) 4 0x44332211) State.reset
    State.reset.busy = false ∧ s.keyByte 252 = 0x11 ∧ s.keyByte 255 = 0x44 ∧ t.textByte 1020 = 0x11 ∧
    t.textByte 1023 = 0x44 := by decide

theorem witness_LengthAndDimension :
    State.reset.busy = false ∧ (hostAccess (.write 0x010 4 0xFFFFFFFF) State.reset).inLen = 0xFFFF ∧
    (hostAccess (.write 0x014 4 0xFFFFFFFF) State.reset).keyLen = 0xFFFF := by decide

theorem witness_MatrixWrite :
    State.reset.busy = false ∧ (3 : Nat) < 4 ∧
    (hostAccess (.write (BitVec.ofNat 12 (0x040 + 16 * 3 + 4 * 3)) 4 0xFFFFFFFF) State.reset).matWord 3 3 =
      0xFFFFFFFF := by decide

theorem witness_ResultRegisters :
    let s := { State.reset with inv := Vector.replicate 16 25, sq := Vector.replicate 25 0x5A }
    (hostAccess (.read (BitVec.ofNat 12 (0x080 + 16 * 3 + 4 * 3)) 4) s).rdata = 25 ∧
    (hostAccess (.read (BitVec.ofNat 12 (0x100 + 4 * 24)) 4) s).rdata = 0x5A := by decide

/-! ### Steps -/

theorem witness_StepRuns :
    let s := pendingWith 0x22 []
    let u := pendingWith 0x01 [.sequencer, .rst]
    s.busy = true ∧ nextTurn s = .sequencer ∧ decode s.pend = .ok .hillInv ∧ Instr.wf .hillInv = true ∧
    u.busy = true ∧ nextTurn u = .sequencer ∧ decode u.pend = .ok .vigEnc ∧ Instr.wf .vigEnc = true := by decide

theorem witness_StepPerforms :
    nextTurn (withTurns [.host (.read 0x000 4)]) = .host (.read 0x000 4) ∧
    nextTurn (withTurns [.sequencer]) = .sequencer ∧ (withTurns [.sequencer]).busy = false := by decide

theorem witness_IllegalWord :
    (pendingWith 0x100 []).busy = true ∧ nextTurn (pendingWith 0x100 []) = .sequencer ∧
    legalCommandWord 0x100 = false ∧ legalCommandWord 0 = false ∧ legalCommandWord 0x23 = false := by decide

/-! ### Vigenère and Playfair -/

/-- Every byte of a key of 'A's is a letter. -/
theorem keyGood_fill {n : Nat} (h0 : 0 < n) (h : n ≤ 256) (text : List Byte) : VigKeyGood (loaded (fill n []) text) := by
  have hl : (loaded (fill n []) text).keyLength = n := by
    rw [loaded_keyLength _ (by rw [fill_length]; simp only [List.length_nil]; omega), fill_length]
    rfl
  refine ⟨by omega, by omega, fun j hj => ?_⟩
  rw [loaded_keyByte j (by omega), fill_getD_lt _ (by omega)]
  exact isLetter_A

/-- A text of 'A's, then spaces, is clean. -/
theorem textClean_fill {key : List Byte} (hk : key.length ≤ 512) (n m : Nat) :
    TextClean (loaded key (fill n (List.replicate m 0x20))) := by
  have hc : ∀ b ∈ fill n (List.replicate m (0x20 : Byte)), isLetter b = true ∨ isWS b = true := by
    intro b hb
    rcases List.mem_append.mp hb with hb | hb
    · rw [List.eq_of_mem_replicate hb]
      decide
    · rw [List.eq_of_mem_replicate hb]
      decide
  intro i hi
  have hi' : i < (fill n (List.replicate m (0x20 : Byte))).length :=
    Nat.lt_of_lt_of_le hi (by
      show (BitVec.ofNat 16 _).toNat ≤ _
      rw [BitVec.toNat_ofNat]
      exact Nat.mod_le _ _)
  rw [loaded_textByte hk, List.getD_eq_getElem _ _ hi']
  exact hc _ (List.getElem_mem hi')

theorem textClean_hill (n : BitVec 4) (mat : Vector Word 16) (k m : Nat) :
    TextClean (hillLoaded n mat (fill k (List.replicate m 0x20))) := textClean_fill (key := []) (by simp) k m

/-- The letters of a text of 'A's and spaces. -/
theorem textLetters_fill {key : List Byte} (hk : key.length ≤ 512) (f : Byte → Byte) {n m : Nat} (h : n + m < 65536) :
    textLetters f (loaded key (fill n (List.replicate m 0x20))) = List.replicate n (f 0x41) := by
  have hl : (loaded key (fill n (List.replicate m (0x20 : Byte)))).inLength = n + m := by
    rw [loaded_inLength _ (by rwa [fill_length, List.length_replicate]), fill_length, List.length_replicate]
  have hb : (loaded key (fill n (List.replicate m (0x20 : Byte)))).textBytes (n + m) =
      fill n (List.replicate m (0x20 : Byte)) := by
    refine List.ext_getElem (by simp [State.textBytes, fill]) fun i h1 h2 => ?_
    rw [← List.getD_eq_getElem _ 0 h2, ← loaded_textByte hk]
    simp [State.textBytes]
  have hs : isLetter 0x20 = false := by decide
  unfold textLetters
  rw [hl, hb]
  rw [fill, List.filter_append, List.filter_replicate, List.filter_replicate, if_pos isLetter_A,
    if_neg (by rw [hs]; decide), List.append_nil, List.map_replicate]

theorem textLetters_hill (n : BitVec 4) (mat : Vector Word 16) (f : Byte → Byte) {k m : Nat} (h : k + m < 65536) :
    textLetters f (hillLoaded n mat (fill k (List.replicate m 0x20))) = List.replicate k (f 0x41) :=
  textLetters_fill (key := []) (by simp) f h

theorem witness_Vig_key_too_long : 256 < (loaded (fill 257 []) (fill 0 [])).keyLength := by
  rw [(filled_lengths [] [] (by simp) (by simp)).1]
  decide

theorem witness_Vig_key_empty : (loaded [] []).keyLength = 0 := by decide

/-- The last of 256 key bytes is the first bad one. -/
theorem witness_Vig_bad_key :
    (loaded (fill 255 [0x20]) (fill 0 [])).keyLength ≤ 256 ∧ FirstBadKey (loaded (fill 255 [0x20]) (fill 0 [])) 255 := by
  have hl := (filled_lengths (n := 255) (m := 0) [0x20] [] (by simp) (by simp)).1
  refine ⟨by rw [hl]; decide, by rw [hl]; decide, ?_, fun k hk => ?_⟩
  · rw [loaded_keyByte _ (by omega), fill_getD_eq]
    decide
  · rw [loaded_keyByte _ (by omega), fill_getD_lt _ hk]
    exact isLetter_A

theorem witness_Vig_text_too_long :
    VigKeyGood (loaded (fill 1 []) (fill 1025 [])) ∧ 1024 < (loaded (fill 1 []) (fill 1025 [])).inLength :=
  ⟨keyGood_fill (by omega) (by omega) _, by rw [(filled_lengths [] [] (by simp) (by simp)).2]; decide⟩

theorem witness_Vig_good :
    VigKeyGood (loaded (fill 256 []) (fill 1024 [])) ∧ (loaded (fill 256 []) (fill 1024 [])).inLength ≤ 1024 :=
  ⟨keyGood_fill (by omega) (by omega) _, by rw [(filled_lengths [] [] (by simp) (by simp)).2]; decide⟩

theorem witness_PfBuild :
    256 < (loaded (fill 257 []) (fill 0 [])).keyLength ∧ (loaded (fill 256 []) (fill 0 [])).keyLength ≤ 256 := by
  rw [(filled_lengths [] [] (by simp) (by simp)).1, (filled_lengths [] [] (by simp) (by simp)).1]
  decide

theorem witness_Pf_text_too_long :
    (loaded (fill 256 []) (fill 1025 [])).keyLength ≤ 256 ∧ 1024 < (loaded (fill 256 []) (fill 1025 [])).inLength := by
  rw [(filled_lengths [] [] (by simp) (by simp)).1, (filled_lengths [] [] (by simp) (by simp)).2]
  decide

/-- The last of 1024 text bytes is the first bad one. -/
theorem witness_Pf_bad_text :
    let s := loaded (fill 256 []) (fill 1023 [0x31])
    s.keyLength ≤ 256 ∧ s.inLength ≤ 1024 ∧ FirstBadText s 1023 := by
  have hk : (fill 256 []).length ≤ 512 := by rw [fill_length]; decide
  have hl := filled_lengths (n := 256) (m := 1023) [] [0x31] (by simp) (by simp)
  refine ⟨by rw [hl.1]; decide, by rw [hl.2]; decide, by rw [hl.2]; decide, ?_, ?_, fun k h => .inl ?_⟩
  · rw [loaded_textByte hk, fill_getD_eq]
    decide
  · rw [loaded_textByte hk, fill_getD_eq]
    decide
  · rw [loaded_textByte hk, fill_getD_lt _ h]
    exact isLetter_A

theorem witness_Pf_good :
    let s := loaded (fill 256 []) (fill 1024 (List.replicate 0 0x20))
    s.keyLength ≤ 256 ∧ s.inLength ≤ 1024 ∧ TextClean s ∧
      (textLetters (fun b => foldJ (upper b)) s).length % 2 = 0 := by
  have hk : (fill 256 []).length ≤ 512 := by rw [fill_length]; decide
  have hl := filled_lengths (n := 256) (m := 1024) [] (List.replicate 0 0x20) (by simp) (by simp)
  refine ⟨by rw [hl.1]; decide, by rw [hl.2]; decide, textClean_fill hk 1024 0, ?_⟩
  rw [textLetters_fill hk _ (by omega), List.length_replicate]

theorem witness_Pf_odd :
    let s := loaded (fill 256 []) (fill 1023 (List.replicate 1 0x20))
    s.keyLength ≤ 256 ∧ s.inLength ≤ 1024 ∧ TextClean s ∧
      (textLetters (fun b => foldJ (upper b)) s).length % 2 = 1 := by
  have hk : (fill 256 []).length ≤ 512 := by rw [fill_length]; decide
  have hl := filled_lengths (n := 256) (m := 1023) [] (List.replicate 1 0x20) (by simp) (by simp)
  refine ⟨by rw [hl.1]; decide, by rw [hl.2]; decide, textClean_fill hk 1023 1, ?_⟩
  rw [textLetters_fill hk _ (by omega), List.length_replicate]

/-! ### Hill -/

theorem keyMat_identity (text : List Byte) : keyMat (hillLoaded 4 matId text) 4 = 1 := by
  ext i j
  fin_cases i <;> fin_cases j <;> rfl

theorem det_identity (text : List Byte) : Int.gcd (keyMat (hillLoaded 4 matId text) 4).det 26 = 1 := by
  rw [keyMat_identity, Matrix.det_one]
  rfl

theorem witness_Hill_not_square :
    ({ State.reset with rows := 4, cols := 3 } : State).rows ≠ ({ State.reset with rows := 4, cols := 3 } : State).cols := by
  decide

theorem witness_Hill_dimension :
    (hillLoaded 0 matId []).rows.toNat = 0 ∧ 4 < (hillLoaded 5 matId []).rows.toNat ∧
    4 < (hillLoaded 15 matId []).rows.toNat ∧ HillDimIs (hillLoaded 1 matId []) 1 ∧ HillDimIs (hillLoaded 4 matId []) 4 := by
  decide

/-- Determinant 0 at dimension 2, and 13 at dimension 1. -/
theorem witness_Hill_singular :
    HillDimIs State.reset 2 ∧ Int.gcd (keyMat State.reset 2).det 26 ≠ 1 ∧
    HillDimIs (hillLoaded 1 (Vector.replicate 16 13) []) 1 ∧
    Int.gcd (keyMat (hillLoaded 1 (Vector.replicate 16 13) []) 1).det 26 ≠ 1 := by
  refine ⟨by decide, ?_, by decide, ?_⟩
  · rw [Matrix.det_fin_two]
    decide
  · rw [Matrix.det_fin_one]
    decide

theorem witness_Hill_invertible (text : List Byte) :
    HillDimIs (hillLoaded 4 matId text) 4 ∧ Int.gcd (keyMat (hillLoaded 4 matId text) 4).det 26 = 1 :=
  ⟨⟨rfl, rfl, by omega, by omega⟩, det_identity text⟩

theorem witness_Hill_text_too_long : 1024 < (hillLoaded 4 matId (fill 1025 [])).inLength := by
  rw [hill_length _ _ _ (by simp)]
  decide

theorem witness_Hill_bad_text :
    (hillLoaded 4 matId (fill 1023 [0x31])).inLength ≤ 1024 ∧ FirstBadText (hillLoaded 4 matId (fill 1023 [0x31])) 1023 := by
  have hl := hill_length 4 matId (m := 1023) [0x31] (by simp)
  refine ⟨by rw [hl]; decide, by rw [hl]; decide, ?_, ?_, fun k h => .inl ?_⟩
  · rw [hill_textByte, fill_getD_eq]
    decide
  · rw [hill_textByte, fill_getD_eq]
    decide
  · rw [hill_textByte, fill_getD_lt _ h]
    exact isLetter_A

theorem witness_Hill_good :
    let s := hillLoaded 4 matId (fill 1024 (List.replicate 0 0x20))
    s.inLength ≤ 1024 ∧ TextClean s ∧ (textLetters upper s).length % 4 = 0 := by
  refine ⟨by rw [hill_length _ _ _ (by simp)]; decide, textClean_hill 4 matId 1024 0, ?_⟩
  rw [textLetters_hill _ _ _ (by omega), List.length_replicate]

theorem witness_Hill_partial_block :
    let s := hillLoaded 4 matId (fill 1023 (List.replicate 1 0x20))
    s.inLength ≤ 1024 ∧ TextClean s ∧ (textLetters upper s).length % 4 ≠ 0 := by
  refine ⟨by rw [hill_length _ _ _ (by simp)]; decide, textClean_hill 4 matId 1023 1, ?_⟩
  rw [textLetters_hill _ _ _ (by omega), List.length_replicate]
  decide

theorem witness_Solver :
    (Int.gcd (Matrix.of fun i j : Fin 1 => (fun _ _ => 13 : Mat) i.val j.val).det 26 ≠ 1) ∧
    Int.gcd (Matrix.of fun i j : Fin 4 => (fun i j => if i = j then 1 else 0 : Mat) i.val j.val).det 26 = 1 := by
  constructor
  · rw [Matrix.det_fin_one]
    decide
  · have h : (Matrix.of fun i j : Fin 4 => (fun i j => if i = j then 1 else 0 : Mat) i.val j.val) = 1 := by
      ext i j
      fin_cases i <;> fin_cases j <;> rfl
    rw [h, Matrix.det_one]
    rfl

/-- -2^31 and the residue it stands for. -/
theorem witness_MatrixModulo26 :
    let s := { State.reset with mat := Vector.replicate 16 0x80000000 }
    ∀ r < 4, ∀ c < 4,
      ({ s with mat := Vector.replicate 16 (BitVec.ofInt 32 (-2147483648 % 26)) } : State).keyMatrix r c % 26 =
        s.keyMatrix r c % 26 := by decide

/-! ### Round trips -/

/-- The state in which the output of a command has become the text, as `copyout` leaves it. -/
def copiedOut (t : State) : State :=
  { t with inLen := t.outLen, mem := Memory.writeBytes t.mem textInBase (t.outBytes t.outLen.toNat) }

theorem witness_VigenereRoundTrip :
    let s := loaded (ascii ['B', 'c']) (ascii ['z', '-', 'A'])
    let t := after .vigEnc s
    let u := copiedOut t
    VigKeyGood s ∧ s.inLength ≤ 1024 ∧ exec .vigEnc s = .next t ∧ u.keyLen = s.keyLen ∧
      (∀ j, j < s.keyLength → u.keyByte j = s.keyByte j) ∧ u.inLen = t.outLen ∧
      ∀ i, i < t.outLen.toNat → u.textByte i = t.outByte i :=
  ⟨by decide +kernel, by decide +kernel, exec_after _ _, rfl, by decide +kernel, rfl, by decide +kernel⟩

theorem witness_PlayfairRoundTrip :
    let s := loaded (ascii ['J']) (ascii ['j', ' ', 'E', 'e'])
    let t := after .pfEnc s
    let u := copiedOut t
    s.keyLength ≤ 256 ∧ s.inLength ≤ 1024 ∧ TextClean s ∧ exec .pfEnc s = .next t ∧ u.keyLen = s.keyLen ∧
      (∀ j, j < s.keyLength → u.keyByte j = s.keyByte j) ∧ u.inLen = t.outLen ∧ t.outLen = 4 ∧
      ∀ i, i < t.outLen.toNat → u.textByte i = t.outByte i :=
  ⟨by decide +kernel, by decide +kernel, by decide +kernel, exec_after _ _, rfl, by decide +kernel, rfl,
    by decide +kernel, by decide +kernel⟩

theorem witness_HillRoundTrip :
    let s := hillLoaded 4 matId (ascii ['h', ' ', 'E', 'l'])
    let t := after .hillEnc s
    let u := copiedOut t
    HillDimIs s 4 ∧ Int.gcd (keyMat s 4).det 26 = 1 ∧ s.inLength ≤ 1024 ∧ TextClean s ∧ exec .hillEnc s = .next t ∧
      u.rows = s.rows ∧ u.cols = s.cols ∧ (∀ i j, i < 4 → j < 4 → u.matWord i j = s.matWord i j) ∧
      t.outLen.toNat ≤ 1024 ∧ u.inLen = t.outLen ∧ ∀ i, i < t.outLen.toNat → u.textByte i = t.outByte i :=
  ⟨by decide +kernel, det_identity _, by decide +kernel, by decide +kernel, exec_after _ _, rfl, rfl,
    fun _ _ _ _ => rfl, by decide +kernel, rfl, by decide +kernel⟩

/-! ### The lifecycle as a whole -/

theorem witness_InvalidState :
    exec .vigEnc State.reset = .next (after .vigEnc State.reset) ∧ (after .vigEnc State.reset).err = true ∧
    State.reset.err = false := ⟨exec_after _ _, by decide, by decide⟩

/-- Accesses of every kind short of a reset, among them a write to `CTRL`. -/
def busyAccesses : List Access :=
  [.write 0x400 4 0x41414141, .write 0x00C 4 0x2, .write 0x004 4 0xC01, .write 0x008 4 0xFFFFFFFF, .read 0x800 4,
    .write 0x004 2 0x2, .write 0x005 4 0x2]

theorem witness_PendingOperandsAreStable :
    (pendingWith 1 []).busy = true ∧ State.reset.busy = false ∧
    ∀ a ∈ busyAccesses, ∀ v : Word, a = .write 0x004 4 v → v[1] = false := by
  refine ⟨by decide, by decide, fun a ha v h => ?_⟩
  subst h
  simp only [busyAccesses, List.mem_cons, List.not_mem_nil, Access.write.injEq, reduceCtorEq, or_false, false_or] at ha
  rcases ha with ⟨h, -⟩ | ⟨h, -⟩ | ⟨-, -, rfl⟩ | ⟨h, -⟩ | ⟨-, h, -⟩ | ⟨h, -⟩ <;> first | rfl | simp at h

theorem not_resets_of_sequencer {s : State} (h : nextTurn s = .sequencer) : ¬resetsNext s := by
  rintro (h' | ⟨v, h', -⟩) <;> rw [h] at h' <;> cases h'

/-- A completion that changes the text, the square and `OUT_LEN`. -/
theorem witness_ResultsChange_text :
    let s := accept 0x11 (loaded [] (ascii ['H', 'I']))
    step s = .next (stepped s) ∧ ¬resetsNext s ∧ (stepped s).outLen ≠ s.outLen ∧
    (∃ i, i < 1028 ∧ (stepped s).outByte i ≠ s.outByte i) ∧ (stepped s).sq ≠ s.sq :=
  ⟨rfl, not_resets_of_sequencer rfl, by decide +kernel, ⟨0, by omega, by decide +kernel⟩, by decide +kernel⟩

/-- A completion that changes the inverse. -/
theorem witness_ResultsChange_inverse :
    let s := accept 0x22 (hillLoaded 2 matM2 [])
    step s = .next (stepped s) ∧ ¬resetsNext s ∧ ¬KeepsInverse s (stepped s) :=
  ⟨rfl, not_resets_of_sequencer rfl, fun h => absurd h.1 (by decide +kernel)⟩

/-- A pending command behind two accesses, one of them a `CTRL` write short of a reset. -/
theorem witness_PendingCompletes :
    let s := pendingWith 0x22 [.host (.write 0x004 4 0x1), .host (.read 0x008 4)]
    s.busy = true ∧ ∀ t ∈ s.turns, t ≠ .rst ∧ ∀ v : Word, t = .host (.write 0x004 4 v) → v[1] = false := by
  refine ⟨rfl, fun t ht => ?_⟩
  rcases List.mem_cons.mp ht with rfl | ht
  · refine ⟨nofun, fun v h => ?_⟩
    cases h
    decide
  · obtain rfl := List.mem_singleton.mp ht
    exact ⟨nofun, fun v h => by cases h⟩

theorem witness_CopyOut :
    ({ State.reset with outLen := 1024 } : State).busy = false ∧
    ({ State.reset with outLen := 1024 } : State).outLen.toNat ≤ 1024 ∧ beforeCopyOut.outLen.toNat ≤ 1024 := by decide

theorem witness_Busy_rises :
    let s := withTurns [.host (.write 0x00C 4 0xFFFFFFFF)]
    step s = .next (stepped s) ∧ s.busy = false ∧ (stepped s).busy = true := ⟨rfl, rfl, by decide⟩

theorem witness_Busy_falls :
    let s := pendingWith 0 []
    step s = .next (stepped s) ∧ s.busy = true ∧ (stepped s).busy = false := ⟨rfl, rfl, by decide⟩

theorem witness_Busy_stays :
    let s := pendingWith 0 [.host (.write 0x00C 4 1)]
    step s = .next (stepped s) ∧ s.busy = true ∧ (stepped s).busy = true := ⟨rfl, rfl, by decide⟩

theorem witness_Done_set :
    let s := pendingWith 0 []
    step s = .next (stepped s) ∧ completesNext s ∧ s.done = false ∧ (stepped s).done = true :=
  ⟨rfl, ⟨rfl, rfl⟩, rfl, by decide⟩

theorem witness_Done_cleared :
    let s := { withTurns [.host (.write 0x008 4 0x2)] with done := true }
    let u := { withTurns [.host (.write 0x00C 4 0x2)] with done := true }
    step s = .next (stepped s) ∧ s.done = true ∧ (stepped s).done = false ∧
    step u = .next (stepped u) ∧ u.done = true ∧ (stepped u).done = false := ⟨rfl, rfl, by decide, rfl, rfl, by decide⟩

theorem witness_Werr_set :
    let s := pendingWith 0 [.host (.write 0x7FC 4 1)]
    step s = .next (stepped s) ∧ s.werr = false ∧ (stepped s).werr = true ∧ s.busy = true ∧ operandOffset 0x7FC :=
  ⟨rfl, rfl, by decide, rfl, by decide⟩

theorem witness_Werr_cleared :
    let s := { withTurns [.host (.write 0x008 4 0x200)] with werr := true }
    step s = .next (stepped s) ∧ s.werr = true ∧ (stepped s).werr = false := ⟨rfl, rfl, by decide⟩

theorem witness_Aerr_set :
    let s := withTurns [.host (.read 0xFFF 4)]
    step s = .next (stepped s) ∧ s.aerr = false ∧ (stepped s).aerr = true := ⟨rfl, rfl, by decide⟩

theorem witness_Aerr_cleared :
    let s := { withTurns [.host (.write 0x008 4 0x400)] with aerr := true }
    step s = .next (stepped s) ∧ s.aerr = true ∧ (stepped s).aerr = false := ⟨rfl, rfl, by decide⟩

theorem witness_Cofactor : 1 ≤ 1 ∧ det 1 (fun _ _ => 7) = 7 := by decide

theorem witness_Irq_rst :
    let s := { withTurns [.rst] with ie := true, done := true }
    nextTurn s = .rst ∧ step s = .next (stepped s) ∧ s.irq = true := ⟨rfl, rfl, rfl⟩

theorem witness_Irq :
    let s := { State.reset with ie := true }
    exec .hillInv s = .next (after .hillInv s) ∧ s.ie = true ∧ s.busy = false ∧ (0x2#32)[1] = true ∧
    (0x1#32)[1] = false := ⟨exec_after _ _, rfl, rfl, by decide, by decide⟩

/-- The invariant in a state with a pending command, and a step from it. -/
theorem witness_Invariant :
    let s := accept 0x11 (loaded [] (ascii ['H', 'I']))
    Inv s ∧ step s = .next (stepped s) :=
  ⟨⟨by decide +kernel, by decide +kernel, by decide, by decide, rfl, by decide, .inl (by decide)⟩, rfl⟩

/-- Two states that differ in everything command `VIG_ENC` does not read. -/
theorem witness_OperandsAgree :
    let s := loaded (ascii ['K']) (ascii ['A'])
    let u := { loaded (ascii ['K', 'X']) (ascii ['A', 'Y']) with keyLen := 1, inLen := 1, ie := true, mat := matM2 }
    OperandsAgree .vigEnc s u ∧ s ≠ u := by
  refine ⟨⟨⟨rfl, fun j _ h => ?_⟩, rfl, fun k _ h => ?_⟩, by decide +kernel⟩
  · obtain rfl : j = 0 := Nat.lt_one_iff.mp h
    decide +kernel
  · obtain rfl : k = 0 := Nat.lt_one_iff.mp h
    decide +kernel

/-- The same key in the other case, the first and the last of 256 bytes. -/
theorem witness_KeysAreCaseInsensitive :
    let s := { State.reset with keyLen := 256, mem := [(0x200, 0x4B), (0x2FF, 0x79)] }
    let m : Memory := [(0x200, 0x6B), (0x2FF, 0x59)]
    (∀ a, ¬(0x200 ≤ a ∧ a < 0x300) → Memory.read m a = Memory.read s.mem a) ∧
    ∀ j, j < 256 → upper (Memory.read m (0x200 + j)) = upper (s.keyByte j) := by
  refine ⟨fun a ha => ?_, by decide +kernel⟩
  simp only [Memory.read_cons, Memory.read_nil]
  rw [if_neg (by omega), if_neg (by omega), if_neg (by omega), if_neg (by omega)]

theorem witness_Symbols : isUpper 0x41 = true ∧ isUpper 0x5A = true ∧ (25 : Nat) < 26 := by decide

theorem witness_ModularInverses : Nat.gcd 25 26 = 1 ∧ modInverse 25 = 25 ∧ Nat.gcd 1 26 = 1 ∧ modInverse 1 = 1 := by decide

theorem witness_DoubledLetters : (4 : Nat) < 5 ∧ (buildSquare keyPLAYFAIR).getD (5 * 4 + 4) 0 = 0x5A := by
  decide +kernel

end Sys2Proof.Tests
end

section
/-! SUPPORT. The statements of 10_state.md: the flags of `STATUS`, `CTRL`, `ID`, the interrupt output and reset. What a
host access does to the flags is said once (`hostAccess_flags`), and what a step does by whose turn it is
(`step_flags_cases`); the statements on single flags are read off these two. -/

namespace Sys2Proof

open Machine

/-! ## The accesses that the flags of `STATUS` answer to -/

/-- A write of 1 to `SRST` (10_state.md R26). -/
def Access.SoftReset (a : Access) : Prop := ∃ v : Word, a = .write 0x004 4 v ∧ v[1] = true

/-- A write of 1 to bit `n` of `STATUS` (10_state.md R27). -/
def Access.ClearsStatus (a : Access) (n : Nat) (hn : n < 32 := by decide) : Prop :=
  ∃ v : Word, a = .write 0x008 4 v ∧ v[n] = true

/-- A write to `CMD`, which is accepted while idle (40_command.md R110). -/
def Access.WritesCmd (a : Access) : Prop := ∃ v : Word, a = .write 0x00C 4 v

/-- A write that is rejected while a command is pending (40_command.md R111). -/
def Access.WritesOperand (a : Access) : Prop :=
  ∃ (off : Offset) (v : Word), a = .write off 4 v ∧ operandOffset off.toNat

/-- None of the four. -/
structure Access.Inert (a : Access) : Prop where
  softReset : ¬a.SoftReset
  clearsStatus : ∀ (n : Nat) (hn : n < 32), ¬a.ClearsStatus n hn
  writesCmd : ¬a.WritesCmd
  writesOperand : ¬a.WritesOperand

@[simp] theorem Access.softReset_write (off : Offset) (v : Word) :
    (Access.write off 4 v).SoftReset ↔ off = 0x004 ∧ v[1] = true := by simp [Access.SoftReset]

@[simp] theorem Access.clearsStatus_write (n : Nat) (hn : n < 32) (off : Offset) (v : Word) :
    (Access.write off 4 v).ClearsStatus n hn ↔ off = 0x008 ∧ v[n] = true := by simp [Access.ClearsStatus]

@[simp] theorem Access.writesCmd_write (off : Offset) (v : Word) :
    (Access.write off 4 v).WritesCmd ↔ off = 0x00C := by simp [Access.WritesCmd]

@[simp] theorem Access.writesOperand_write (off : Offset) (v : Word) :
    (Access.write off 4 v).WritesOperand ↔ operandOffset off.toNat := by simp [Access.WritesOperand]

@[simp] theorem Access.wf_write_eq_false (off : Offset) (v : Word) :
    (Access.write off 4 v).wf = false ↔ off.toNat % 4 ≠ 0 := by simp [Access.wf]

/-- The four are performed on registers, a malformed access on none (20_memory.md R73). -/
theorem Access.Inert.of_malformed {a : Access} (h : a.wf = false) : a.Inert := by
  refine ⟨?_, fun n hn => ?_, ?_, ?_⟩
  · rintro ⟨v, rfl, -⟩; simp at h
  · rintro ⟨v, rfl, -⟩; simp at h
  · rintro ⟨v, rfl⟩; simp at h
  · rintro ⟨off, v, rfl, ho⟩; simp [ho.1] at h

/-- The four are writes. -/
theorem Access.Inert.of_not_write {a : Access} (h : ∀ off v, a ≠ .write off 4 v) : a.Inert := by
  constructor <;> simp [SoftReset, ClearsStatus, WritesCmd, WritesOperand, h]

/-- `CTRL` and `STATUS` are no operands (40_command.md R111). -/
theorem operandOffset_ne {off : Offset} (h : operandOffset off.toNat) : off ≠ 4#12 ∧ off ≠ 8#12 := by
  constructor <;> rintro rfl <;> revert h <;> decide

theorem Access.WritesOperand.not_softReset {a : Access} (h : a.WritesOperand) : ¬a.SoftReset := by
  obtain ⟨off, v, rfl, ho⟩ := h
  simp [operandOffset_ne ho]

theorem Access.WritesOperand.not_clearsStatus {a : Access} (h : a.WritesOperand) {n : Nat} (hn : n < 32) :
    ¬a.ClearsStatus n hn := by
  obtain ⟨off, v, rfl, ho⟩ := h
  simp [operandOffset_ne ho]

theorem Access.WritesCmd.writesOperand {a : Access} (h : a.WritesCmd) : a.WritesOperand := by
  obtain ⟨v, rfl⟩ := h
  exact ⟨_, v, rfl, by decide⟩

/-- A write to a read-only or a reserved offset (20_memory.md R74). -/
theorem Access.Inert.of_ignoredOffset {off : Offset} (h : readOnlyOffset off.toNat ∨ reservedOffset off.toNat)
    (v : Word) : (Access.write off 4 v).Inert := by
  have hne : off ≠ 4#12 ∧ off ≠ 8#12 ∧ off ≠ 12#12 := by
    refine ⟨?_, ?_, ?_⟩ <;> rintro rfl <;> revert h <;> decide
  have hop : ¬operandOffset off.toNat := by
    unfold readOnlyOffset reservedOffset at h
    unfold operandOffset
    omega
  constructor <;> simp [hne, hop]

namespace Machine

/-! ## The turn taken off the list, and a commit, field by field -/

@[simp] theorem popTurn_done (s : State) : (popTurn s).done = s.done := rfl
@[simp] theorem popTurn_werr (s : State) : (popTurn s).werr = s.werr := rfl
@[simp] theorem popTurn_aerr (s : State) : (popTurn s).aerr = s.aerr := rfl

@[simp] theorem commit_ie (r : Eval Writes) (s : State) : (commit r s).ie = s.ie := by cases r <;> rfl
@[simp] theorem commit_werr (r : Eval Writes) (s : State) : (commit r s).werr = s.werr := by cases r <;> rfl
@[simp] theorem commit_aerr (r : Eval Writes) (s : State) : (commit r s).aerr = s.aerr := by cases r <;> rfl

/-! ## What a host access does to the flags -/

/-- `BUSY`, the word it is for, `DONE`, `WERR` and `AERR` after the host access `a` has led from `s` to `t`
(10_state.md R28, R29, R32, R33). -/
structure FlagsAfter (a : Access) (s t : State) : Prop where
  busy : t.busy = true ↔ a.WritesCmd ∨ s.busy = true ∧ ¬a.SoftReset
  pend : s.busy = true → t.busy = true → t.pend = s.pend
  done : t.done = true ↔ s.done = true ∧ ¬a.SoftReset ∧ ¬a.ClearsStatus 1 ∧ ¬(s.busy = false ∧ a.WritesCmd)
  werr : t.werr = true ↔ s.busy = true ∧ a.WritesOperand ∨ s.werr = true ∧ ¬a.SoftReset ∧ ¬a.ClearsStatus 9
  aerr : t.aerr = true ↔ a.wf = false ∨ s.aerr = true ∧ ¬a.SoftReset ∧ ¬a.ClearsStatus 10

/-- An inert access keeps them all, but for `AERR` where it is malformed. -/
theorem FlagsAfter.of_inert {a : Access} {s t : State} (ha : a.Inert) (hbusy : t.busy = s.busy) (hpend : t.pend = s.pend)
    (hdone : t.done = s.done) (hwerr : t.werr = s.werr) (haerr : t.aerr = true ↔ a.wf = false ∨ s.aerr = true) :
    FlagsAfter a s t := by
  obtain ⟨hreset, hclear, hcmd, hop⟩ := ha
  constructor <;> simp [*]

theorem hostAccess_flags (a : Access) (s : State) : FlagsAfter a s (hostAccess a s) := by
  rcases hostAccess_cases a s with ⟨hwf, h | h⟩ | ⟨hwf, hr, w, h⟩ | ⟨off, v, rfl, ho, hb, h⟩ | ⟨v, rfl, h⟩ |
    ⟨v, rfl, h⟩ | ⟨v, rfl, hb, h⟩ | ⟨off, v, rfl, hc, ho, hb, h⟩ | ⟨off, v, rfl, ho, h⟩
  · rw [h]
    exact .of_inert (.of_malformed hwf) rfl rfl rfl rfl (by simp [hwf])
  · rw [h]
    exact .of_inert (.of_malformed hwf) rfl rfl rfl rfl (by simp [hwf])
  · rw [h]
    exact .of_inert (.of_not_write hr) rfl rfl rfl rfl (by simp [hwf])
  · rw [h]
    constructor <;> simp [operandOffset_ne ho, eq_true ho, ho.1, hb]
  · rw [h]
    cases hv : v[1] with
    | true => rw [writeCtrl_of_reset hv]; constructor <;> simp [hv]
    | false => rw [writeCtrl_of_no_reset hv]; constructor <;> simp [hv]
  · rw [h]
    constructor <;> simp
  · rw [h]
    constructor <;> simp [hb]
  · have hoff : ¬off = 12#12 := hc
    rw [h.rest]
    constructor <;> simp [hoff, operandOffset_ne ho, ho.1, hb]
  · rw [h]
    have hwf : (Access.write off 4 v).wf = true := wf_write_iff.mpr ⟨rfl, ho.elim And.left And.left⟩
    exact .of_inert (.of_ignoredOffset ho v) rfl rfl rfl rfl (by simp [hwf])

/-- The turn taken off the list is no element that the flags depend on. -/
theorem FlagsAfter.of_popTurn {a : Access} {s t : State} (h : FlagsAfter a (popTurn s) t) : FlagsAfter a s t :=
  ⟨h.busy, h.pend, h.done, h.werr, h.aerr⟩

/-! ## Steps -/

/-- A step by whose turn it is, as far as the flags go: a host access, `rst`, the sequencer with nothing pending, or a
commit, whatever its result (20_memory.md R79; 40_command.md R112). -/
theorem step_flags_cases {s t : State} (h : step s = .next t) :
    (∃ a, nextTurn s = .host a ∧ FlagsAfter a s t) ∨
    (nextTurn s = .rst ∧ t = resetCcu (popTurn s)) ∨
    (nextTurn s = .sequencer ∧ s.busy = false ∧ t = popTurn s) ∨
    (nextTurn s = .sequencer ∧ s.busy = true ∧ ∃ r, t = commit r (popTurn s)) := by
  rcases step_next_cases h with ⟨a, hn, rfl⟩ | ⟨hn, ht⟩ | ⟨hn, hb, ht⟩ | ⟨⟨hn, hb⟩, ⟨i, -, ht⟩ | ⟨e, -, ht⟩⟩
  · exact .inl ⟨a, hn, (hostAccess_flags a _).of_popTurn⟩
  · exact .inr (.inl ⟨hn, ht⟩)
  · exact .inr (.inr (.inl ⟨hn, hb, ht⟩))
  · exact .inr (.inr (.inr ⟨hn, hb, _, ht⟩))
  · exact .inr (.inr (.inr ⟨hn, hb, .error ⟨.illegalCommand, none⟩, ht⟩))

/-- A write to `CMD` while idle (40_command.md R110). -/
theorem hostAccess_write_cmd {s : State} (v : Word) (hb : s.busy = false) :
    hostAccess (.write 0x00C 4 v) s = accept v s := writeUnlessBusy_of_idle hb

/-- A write to `CMD` while idle latches its word in `PEND` (40_command.md R110). -/
theorem pend_of_accepted {s t : State} {v : Word} (h : step s = .next t) (hb : s.busy = false)
    (hn : nextTurn s = .host (.write 0x00C 4 v)) : t.pend = v := by
  rw [step_eq, hn] at h
  obtain rfl := Host.Outcome.next.inj h
  rw [hostAccess_write_cmd (s := popTurn s) v hb, accept_pend]

section HostTurn

variable {s : State} {a : Access}

theorem resetsNext_iff_of_host (h : nextTurn s = .host a) : resetsNext s ↔ a.SoftReset := by
  simp [resetsNext, h, Access.SoftReset]

theorem not_completesNext_of_host (h : nextTurn s = .host a) : ¬completesNext s := by
  simp [completesNext, h]

theorem clearsStatus_iff_of_host (h : nextTurn s = .host a) (n : Nat) (hn : n < 32) :
    (∃ v : Word, nextTurn s = .host (.write 0x008 4 v) ∧ v[n] = true) ↔ a.ClearsStatus n hn := by
  simp [h, Access.ClearsStatus]

theorem writesCmd_iff_of_host (h : nextTurn s = .host a) :
    (∃ v : Word, nextTurn s = .host (.write 0x00C 4 v)) ↔ a.WritesCmd := by
  simp [h, Access.WritesCmd]

theorem writesOperand_iff_of_host (h : nextTurn s = .host a) :
    (∃ (off : Offset) (v : Word), nextTurn s = .host (.write off 4 v) ∧ operandOffset off.toNat) ↔ a.WritesOperand := by
  simp [h, Access.WritesOperand]

theorem malformed_iff_of_host (h : nextTurn s = .host a) :
    (∃ b : Access, nextTurn s = .host b ∧ b.wf = false) ↔ a.wf = false := by
  simp [h]

end HostTurn

/-! ## Accesses to `CTRL` and `STATUS`, and the words they read as (10_state.md R25, R27) -/

theorem hostAccess_read_ctrl (s : State) : hostAccess (.read 0x004 4) s = { s with rdata := ctrlWord s } := rfl

theorem hostAccess_read_status (s : State) :
    hostAccess (.read 0x008 4) s = { s with rdata := statusWord s } := rfl

theorem hostAccess_write_ctrl (v : Word) (s : State) : hostAccess (.write 0x004 4 v) s = writeCtrl v s := rfl

theorem hostAccess_write_status (v : Word) (s : State) :
    hostAccess (.write 0x008 4 v) s = writeStatus v s := rfl

/-- Concatenation as arithmetic: the low part keeps its place value. -/
theorem toNat_append_eq_add {m n : Nat} (x : BitVec m) (y : BitVec n) : (x ++ y).toNat = 2 ^ n * x.toNat + y.toNat := by
  rw [BitVec.toNat_append, ← Nat.shiftLeft_add_eq_or_of_lt y.isLt, Nat.shiftLeft_eq, Nat.mul_comm]

theorem ctrlWord_toNat (s : State) : (ctrlWord s).toNat = s.ie.toNat + 256 * s.keyMin.toNat := by
  unfold ctrlWord
  simp only [toNat_append_eq_add, BitVec.toNat_ofBool, BitVec.toNat_ofNat]
  omega

theorem statusWord_toNat (s : State) :
    (statusWord s).toNat =
      s.busy.toNat + 2 * s.done.toNat + 4 * s.err.toNat + 16 * s.errcode.toNat + 256 * s.keyOk.toNat +
        512 * s.werr.toNat + 1024 * s.aerr.toNat + 2048 * s.irq.toNat := by
  unfold statusWord
  simp only [toNat_append_eq_add, BitVec.toNat_ofBool, BitVec.toNat_ofNat]
  omega

/-- `STATUS` shows `irq` in bit 11 (10_state.md R34). -/
theorem statusWord_irq (s : State) : (statusWord s)[11] = s.irq := by
  rw [← BitVec.getLsbD_eq_getElem]
  unfold statusWord
  simp only [BitVec.getLsbD_append]
  simp

/-! ## The cells after reset (10_state.md R51) -/

theorem reset_matWord (i j : Nat) : State.reset.matWord i j = 0 := by
  unfold State.matWord
  rw [reset_mat, Vector.getElem?_replicate]
  split <;> rfl

theorem reset_invCell (i j : Nat) : State.reset.invCell i j = 0 := by
  unfold State.invCell
  rw [reset_inv, Vector.getElem?_replicate]
  split <;> rfl

theorem reset_sqCell (k : Nat) : State.reset.sqCell k = 0 := by
  unfold State.sqCell
  rw [reset_sq, Vector.getElem?_replicate]
  split <;> rfl

end Machine

/-! ## The statements of 10_state.md -/

/-- Settles O5, by the place value of each field of the word. -/
theorem statusReadsFieldsAtTheirBits : Obligations.StatusReadsFieldsAtTheirBits := by
  unfold Obligations.StatusReadsFieldsAtTheirBits
  intro s
  have hkey : s.keyOk.toNat = if s.keyMin.toNat ≤ s.keyLen.toNat then 1 else 0 := by
    by_cases h : s.keyMin.toNat ≤ s.keyLen.toNat <;> simp [State.keyOk, h]
  have hirq : s.irq.toNat = s.ie.toNat * s.done.toNat := by
    unfold State.irq
    cases s.ie <;> cases s.done <;> rfl
  rw [hostAccess_read_status, statusWord_toNat, hkey, hirq]

/-- Settles O48: an access sets `BUSY` by a write to `CMD` and clears it by a soft reset; a commit clears it. -/
theorem busyRisesByAcceptanceFallsByCommitOrReset : Obligations.BusyRisesByAcceptanceFallsByCommitOrReset := by
  unfold Obligations.BusyRisesByAcceptanceFallsByCommitOrReset
  intro s t h
  rcases step_flags_cases h with ⟨a, hn, hf⟩ | ⟨hn, rfl⟩ | ⟨hn, hb, rfl⟩ | ⟨hn, hb, r, rfl⟩
  · have hcmd : a.WritesCmd → ¬a.SoftReset := fun h => h.writesOperand.not_softReset
    have hc := not_completesNext_of_host hn
    refine ⟨fun hb => ?_, fun hb v hv => pend_of_accepted h hb hv, fun hb => ?_, hf.pend⟩
    · rw [writesCmd_iff_of_host hn, hf.busy]
      simp [hb]
    · rw [resetsNext_iff_of_host hn, ← Bool.not_eq_true, hf.busy]
      grind
  · simp [completesNext, resetsNext, hn]
  · simp [hn, hb]
  · simp [completesNext, hn, hb]

/-- Settles O49: a commit sets `DONE`, and an access can only clear it. -/
theorem doneIsSetByCommitsOnly : Obligations.DoneIsSetByCommitsOnly := by
  unfold Obligations.DoneIsSetByCommitsOnly
  intro s t h
  rcases step_flags_cases h with ⟨a, hn, hf⟩ | ⟨hn, rfl⟩ | ⟨hn, hb, rfl⟩ | ⟨hn, hb, r, rfl⟩
  · have hc := not_completesNext_of_host hn
    rw [resetsNext_iff_of_host hn, clearsStatus_iff_of_host hn 1, writesCmd_iff_of_host hn, ← Bool.not_eq_true t.done,
      hf.done]
    grind
  · simp [completesNext, resetsNext, hn]
  · simp +contextual [completesNext, resetsNext, hn, hb]
  · simp [completesNext, resetsNext, hn, hb]

/-- Settles O50: only an access changes `WERR`, and the write that is rejected clears nothing. -/
theorem werrIsSetByRejectedWritesOnly : Obligations.WerrIsSetByRejectedWritesOnly := by
  unfold Obligations.WerrIsSetByRejectedWritesOnly
  intro s t h
  rcases step_flags_cases h with ⟨a, hn, hf⟩ | ⟨hn, rfl⟩ | ⟨hn, hb, rfl⟩ | ⟨hn, hb, r, rfl⟩
  · rw [resetsNext_iff_of_host hn, clearsStatus_iff_of_host hn 9, writesOperand_iff_of_host hn,
      ← Bool.not_eq_true t.werr, hf.werr]
    have hop : a.WritesOperand → ¬a.SoftReset ∧ ¬a.ClearsStatus 9 := fun h => ⟨h.not_softReset, h.not_clearsStatus _⟩
    grind
  · simp [resetsNext, hn]
  · simp [resetsNext, hn]
  · simp [resetsNext, hn]

/-- Settles O51: only an access changes `AERR`, and a malformed one clears nothing. -/
theorem aerrIsSetByMalformedAccessesOnly : Obligations.AerrIsSetByMalformedAccessesOnly := by
  unfold Obligations.AerrIsSetByMalformedAccessesOnly
  intro s t h
  rcases step_flags_cases h with ⟨a, hn, hf⟩ | ⟨hn, rfl⟩ | ⟨hn, hb, rfl⟩ | ⟨hn, hb, r, rfl⟩
  · rw [resetsNext_iff_of_host hn, clearsStatus_iff_of_host hn 10, malformed_iff_of_host hn, ← Bool.not_eq_true t.aerr,
      hf.aerr]
    have hinert : a.wf = false → ¬a.SoftReset ∧ ¬a.ClearsStatus 10 := fun h =>
      ⟨(Access.Inert.of_malformed h).softReset, (Access.Inert.of_malformed h).clearsStatus _ _⟩
    grind
  · simp [resetsNext, hn]
  · simp [resetsNext, hn]
  · simp [resetsNext, hn]

/-- Settles O1: single fields by their reset values, arrays and buffers cell by cell. -/
theorem resetLeavesSpecValues : Obligations.ResetLeavesSpecValues := by
  unfold Obligations.ResetLeavesSpecValues
  refine ⟨⟨rfl, rfl, by decide⟩, ⟨rfl, rfl, rfl, rfl, rfl, rfl, by decide⟩, ⟨rfl, rfl⟩, ⟨rfl, rfl, rfl⟩, rfl,
    ⟨rfl, rfl, by decide⟩, ⟨rfl, rfl⟩, ?_, ?_, fun _ _ => rfl, fun _ _ => rfl, fun _ _ => rfl⟩
  · exact fun i j _ _ => ⟨reset_matWord i j, reset_invCell i j⟩
  · exact fun k _ => reset_sqCell k

/-- Settles O4: no access type of `ID` but read, and its word is a constant. -/
theorem idIsConstant : Obligations.IdIsConstant := by
  unfold Obligations.IdIsConstant
  exact fun s v => ⟨rfl, rfl⟩

/-- Settles O7, by bit 1 of the word written. -/
theorem ctrlWriteResetsOrStores : Obligations.CtrlWriteResetsOrStores := by
  unfold Obligations.CtrlWriteResetsOrStores
  intro s v
  simp only [hostAccess_read_ctrl, hostAccess_write_ctrl]
  refine ⟨fun hv => ?_, fun hv => writeCtrl_of_no_reset hv, ctrlWord_toNat s⟩
  rw [writeCtrl_of_reset hv]
  exact ⟨⟨_, _, resetCcu_eq s⟩, ctrlWord_toNat (resetCcu s)⟩

/-- Settles O52: `IE` and `DONE` after each of the events that change one of them. -/
theorem irqFollowsDoneAndEnable : Obligations.IrqFollowsDoneAndEnable := by
  unfold Obligations.IrqFollowsDoneAndEnable
  refine ⟨fun s => ⟨rfl, statusWord_irq s⟩, fun s t hn h => ?_, fun i s t h => ?_,
    fun s v => ⟨fun hb => ?_, fun hv => ?_, fun hv => ?_⟩⟩
  · rw [step_eq, hn] at h
    obtain rfl := Host.Outcome.next.inj h
    rfl
  · rw [exec_next h]
    simp [State.irq]
  · rw [hostAccess_write_cmd v hb]
    simp [State.irq]
  · rw [hostAccess_write_ctrl, hostAccess_write_status, writeCtrl_of_reset hv]
    simp [State.irq, hv]
  · rw [hostAccess_write_ctrl, writeCtrl_of_no_reset hv]
    exact ⟨rfl, rfl⟩

end Sys2Proof
end

section
/-! SUPPORT. The statements of 20_memory.md: malformed accesses, reserved and read-only offsets, the bits of a register
that no writable field holds, repeated reads and the byte order of the buffers. Each is read off what an access at an
offset does, said once here where Laws/ does not say it. -/

namespace Sys2Proof

open Machine

namespace Machine

/-! ## Malformed accesses (20_memory.md R73) -/

theorem hostAccess_read_of_malformed {off : Offset} {width : Nat} (h : ¬(width = 4 ∧ off.toNat % 4 = 0)) (s : State) :
    hostAccess (.read off width) s = { s with rdata := 0, aerr := true } :=
  if_neg (mt wf_read_iff.mp h)

theorem hostAccess_write_of_malformed {off : Offset} {width : Nat} (h : ¬(width = 4 ∧ off.toNat % 4 = 0)) (v : Word)
    (s : State) : hostAccess (.write off width v) s = { s with aerr := true } :=
  if_neg (mt wf_write_iff.mp h)

/-! ## Performed accesses by what stands at their offset (20_memory.md R71, R74) -/

theorem hostAccess_read_aligned {off : Offset} (h : off.toNat % 4 = 0) (s : State) :
    hostAccess (.read off 4) s = { s with rdata := readAt off s } :=
  hostAccess_read (wf_read_iff.mpr ⟨rfl, h⟩)

theorem hostAccess_write_aligned {off : Offset} (h : off.toNat % 4 = 0) (v : Word) (s : State) :
    hostAccess (.write off 4 v) s = writeAt off v s :=
  hostAccess_write (wf_write_iff.mpr ⟨rfl, h⟩)

theorem readAt_of_regAt {off : Offset} {r : Reg} (h : regAt off = some r) (s : State) : readAt off s = readReg r s := by
  rw [readAt, h]

theorem writeAt_of_regAt {off : Offset} {r : Reg} (h : regAt off = some r) (v : Word) (s : State) :
    writeAt off v s = writeReg r v s := by rw [writeAt, h]

theorem hostAccess_read_reserved {off : Offset} (h : reservedOffset off.toNat) (s : State) :
    hostAccess (.read off 4) s = { s with rdata := 0 } := by
  rw [hostAccess_read_aligned h.1, readAt, regAt_of_reservedOffset h]

theorem hostAccess_write_reserved {off : Offset} (h : reservedOffset off.toNat) (v : Word) (s : State) :
    hostAccess (.write off 4 v) s = s := by
  rw [hostAccess_write_aligned h.1, writeAt, regAt_of_reservedOffset h]

theorem hostAccess_write_readOnly {off : Offset} (h : readOnlyOffset off.toNat) (v : Word) (s : State) :
    hostAccess (.write off 4 v) s = s := by
  obtain ⟨r, hr, hkeep⟩ := regAt_of_readOnlyOffset h
  rw [hostAccess_write_aligned h.1, writeAt_of_regAt hr, hkeep]

/-! ## The bits of a written word that no writable field holds (10_state.md R25, R27, R36, R37, R40) -/

/-- A mask that covers a field does not change it. -/
theorem extractLsb'_and_of_covers {n lo len : Nat} {m : BitVec n} (h : m.extractLsb' lo len = BitVec.allOnes len)
    (v : BitVec n) : (v &&& m).extractLsb' lo len = v.extractLsb' lo len := by
  rw [BitVec.extractLsb'_and, h, BitVec.and_allOnes]

theorem setWidth_and_of_covers {n len : Nat} {m : BitVec n} (h : m.setWidth len = BitVec.allOnes len) (v : BitVec n) :
    (v &&& m).setWidth len = v.setWidth len := by
  rw [BitVec.setWidth_and, h, BitVec.and_allOnes]

theorem getElem_and_of_covers {n i : Nat} {m : BitVec n} (hi : i < n) (h : m[i] = true) (v : BitVec n) :
    (v &&& m)[i] = v[i] := by
  rw [BitVec.getElem_and, h, Bool.and_true]

theorem writeReg_ctrl_mask (v : Word) (s : State) : writeReg .ctrl (v &&& 0x0000FF03) s = writeReg .ctrl v s := by
  simp only [writeReg, writeCtrl]
  rw [getElem_and_of_covers (i := 0) _ rfl, getElem_and_of_covers (i := 1) _ rfl, extractLsb'_and_of_covers rfl]

theorem writeReg_status_mask (v : Word) (s : State) :
    writeReg .status (v &&& 0x00000606) s = writeReg .status v s := by
  simp only [writeReg, writeStatus]
  rw [getElem_and_of_covers (i := 1) _ rfl, getElem_and_of_covers (i := 2) _ rfl, getElem_and_of_covers (i := 9) _ rfl,
    getElem_and_of_covers (i := 10) _ rfl]

theorem writeReg_inLen_mask (v : Word) (s : State) : writeReg .inLen (v &&& 0x0000FFFF) s = writeReg .inLen v s := by
  simp only [writeReg]
  rw [setWidth_and_of_covers rfl]

theorem writeReg_keyLen_mask (v : Word) (s : State) : writeReg .keyLen (v &&& 0x0000FFFF) s = writeReg .keyLen v s := by
  simp only [writeReg]
  rw [setWidth_and_of_covers rfl]

theorem writeReg_hillDim_mask (v : Word) (s : State) :
    writeReg .hillDim (v &&& 0x00000F0F) s = writeReg .hillDim v s := by
  simp only [writeReg]
  rw [extractLsb'_and_of_covers (lo := 0) rfl, extractLsb'_and_of_covers (lo := 8) rfl]

/-- A mask that a register's write does not see, at the register's offset. -/
theorem hostAccess_write_mask {off : Offset} {r : Reg} {m v : Word} {s : State} (h4 : off.toNat % 4 = 0)
    (hr : regAt off = some r) (h : writeReg r (v &&& m) s = writeReg r v s) :
    hostAccess (.write off 4 v) s = hostAccess (.write off 4 (v &&& m)) s := by
  rw [hostAccess_write_aligned h4, hostAccess_write_aligned h4, writeAt_of_regAt hr, writeAt_of_regAt hr, h]

/-! ## Repeated reads (20_memory.md R78) -/

/-- The word last read is no element of the CCU, and no register shows it. -/
theorem readReg_rdata (r : Reg) (w : Word) (s : State) : readReg r { s with rdata := w } = readReg r s := by
  cases r <;> rfl

theorem readAt_rdata (off : Offset) (w : Word) (s : State) : readAt off { s with rdata := w } = readAt off s := by
  unfold readAt
  cases regAt off with
  | none => rfl
  | some r => exact readReg_rdata r w s

/-- After a read, a read returns what it would have returned without it. -/
theorem hostAccess_read_of_rdata {off : Offset} (h : off.toNat % 4 = 0) (w : Word) (s : State) :
    hostAccess (.read off 4) { s with rdata := w } = { s with rdata := readAt off s } := by
  rw [hostAccess_read_aligned h, readAt_rdata]

/-! ## The byte order of the buffers (20_memory.md R75) -/

/-- Word `w` of `KEY` stands at 0x200 + 4 w (20_memory.md R71). -/
theorem regAt_key {w : Nat} (h : w < 64) : regAt (BitVec.ofNat 12 (keyBase + 4 * w)) = some (.key ⟨w, h⟩) := by
  have hd : (BitVec.ofNat 12 (keyBase + 4 * w)).toNat / 4 = 0x80 + w := by
    rw [BitVec.toNat_ofNat]
    simp only [keyBase]
    omega
  unfold regAt
  simp only [hd]
  iterate 6 rw [if_neg (by omega)]
  rw [if_pos (by omega)]
  exact congrArg (fun k => some (Reg.key k)) (Fin.ext (by simp only [Fin.ofNat]; omega))

theorem hostAccess_read_key {w : Nat} (h : w < 64) (s : State) :
    hostAccess (.read (BitVec.ofNat 12 (keyBase + 4 * w)) 4) s =
      { s with rdata := Memory.readWord s.mem (keyBase + 4 * w) } := by
  rw [hostAccess_read_aligned (by rw [BitVec.toNat_ofNat]; simp only [keyBase]; omega),
    readAt_of_regAt (regAt_key h)]
  rfl

theorem hostAccess_read_textIn {w : Nat} (h : w < 256) (s : State) :
    hostAccess (.read (BitVec.ofNat 12 (textInBase + 4 * w)) 4) s =
      { s with rdata := Memory.readWord s.mem (textInBase + 4 * w) } := by
  rw [hostAccess_read_aligned (by rw [BitVec.toNat_ofNat]; simp only [textInBase]; omega),
    readAt_of_regAt (regAt_textIn h)]
  rfl

/-- Byte `k` of a word in memory is the byte at offset `k` from it. -/
theorem Memory.extractLsb'_readWord (m : Memory) (a : Nat) {k : Nat} (h : k < 4) :
    (Memory.readWord m a).extractLsb' (8 * k) 8 = Memory.read m (a + k) := by
  unfold Memory.readWord
  interval_cases k
  · exact BitVec.extractLsb'_append_eq_right
  · rw [BitVec.extractLsb'_append_eq_of_le (by omega)]
    exact BitVec.extractLsb'_append_eq_right
  · rw [BitVec.extractLsb'_append_eq_of_le (by omega), BitVec.extractLsb'_append_eq_of_le (by omega)]
    exact BitVec.extractLsb'_append_eq_right
  · rw [BitVec.extractLsb'_append_eq_of_le (by omega), BitVec.extractLsb'_append_eq_of_le (by omega)]
    exact BitVec.extractLsb'_append_eq_left

/-- A buffer byte out of the word that a read of the buffer returned. -/
theorem Memory.read_eq_extract_rdata {off : Offset} {base b : Nat} {s : State}
    (h : hostAccess (.read off 4) s = { s with rdata := Memory.readWord s.mem (base + 4 * (b / 4)) }) :
    Memory.read s.mem (base + b) = (hostAccess (.read off 4) s).rdata.extractLsb' (8 * (b % 4)) 8 := by
  rw [h, Memory.extractLsb'_readWord _ _ (Nat.mod_lt b (by decide)), Nat.add_assoc, Nat.div_add_mod]

end Machine

/-! ## The statements of 20_memory.md -/

/-- Settles O11: a register's write is through its writable fields, which the mask covers. -/
theorem reservedAndReadOnlyOffsetsIgnoreWrites : Obligations.ReservedAndReadOnlyOffsetsIgnoreWrites := by
  unfold Obligations.ReservedAndReadOnlyOffsetsIgnoreWrites
  exact fun s off v =>
    ⟨fun h => ⟨hostAccess_read_reserved h s, hostAccess_write_reserved h v s⟩,
      fun h => hostAccess_write_readOnly h v s,
      hostAccess_write_mask rfl rfl (writeReg_ctrl_mask v s),
      hostAccess_write_mask rfl rfl (writeReg_status_mask v s),
      hostAccess_write_mask rfl rfl (writeReg_inLen_mask v s),
      hostAccess_write_mask rfl rfl (writeReg_keyLen_mask v s),
      hostAccess_write_mask rfl rfl (writeReg_hillDim_mask v s)⟩

/-- Settles O13: byte `b` of a buffer is byte `b % 4` of its word `b / 4`. -/
theorem buffersAreLittleEndian : Obligations.BuffersAreLittleEndian := by
  unfold Obligations.BuffersAreLittleEndian
  exact fun s =>
    ⟨fun b hb => Memory.read_eq_extract_rdata (hostAccess_read_key (by omega) s),
      fun b hb => Memory.read_eq_extract_rdata (hostAccess_read_textIn (by omega) s),
      fun b hb => Memory.read_eq_extract_rdata (hostAccess_read_textOut (by omega) s)⟩

/-- Settles O10, by the width and the alignment of the access. -/
theorem malformedAccessOnlySetsAerr : Obligations.MalformedAccessOnlySetsAerr := by
  unfold Obligations.MalformedAccessOnlySetsAerr
  exact fun s off width v h => ⟨hostAccess_write_of_malformed h v s, hostAccess_read_of_malformed h s⟩

/-- Settles O12: a read changes the word last read only, on which no read depends. -/
theorem readsMayBeRepeated : Obligations.ReadsMayBeRepeated := by
  unfold Obligations.ReadsMayBeRepeated
  intro s off off' h h'
  have hfirst := hostAccess_read_aligned h s
  have hsecond : hostAccess (.read off' 4) (hostAccess (.read off 4) s) = { s with rdata := readAt off' s } := by
    rw [hfirst]
    exact hostAccess_read_of_rdata h' _ s
  have hagain : hostAccess (.read off 4) (hostAccess (.read off' 4) (hostAccess (.read off 4) s)) =
      { s with rdata := readAt off s } := by
    rw [hsecond]
    exact hostAccess_read_of_rdata h _ s
  exact ⟨_, _, hfirst, hsecond, hagain⟩

end Sys2Proof
end

section
/-! SUPPORT. The statements of 40_command.md: acceptance, rejection while a command is pending, the completion of an
illegal word, and what stays from acceptance to commit. What host accesses short of a reset leave of a pending command
is said once, as an exact state (`KeepsPending`), kept by one access and so by every list of them; the stability of the
command's result and of the result elements is read off it. -/

namespace Sys2Proof

open Machine

theorem Access.not_softReset_iff {a : Access} :
    ¬a.SoftReset ↔ ∀ v : Word, a = .write 0x004 4 v → v[1] = false := by
  simp [Access.SoftReset]

/-- A decoded word is its command's encoding (30_encoding.md R92). -/
theorem eq_encode_of_decode {w : Word} {i : Instr} (h : decode w = .ok i) : w = encode i := by
  have hmap : ∀ p ∈ opcodeMap, 0#24 ++ p.1 = encode p.2 := by decide
  have hsplit : w.extractLsb' 8 24 ++ w.extractLsb' 0 8 = w := BitVec.extractLsb'_append_extractLsb'
  unfold decode at h
  split at h
  · cases h
  · next hrsv =>
    cases hop : opcodeMap.lookup (w.extractLsb' 0 8) with
    | none => simp [hop] at h
    | some j =>
      obtain rfl : j = i := by simpa [hop] using h
      obtain ⟨before, after, hlist, -⟩ := List.lookup_eq_some_iff.mp hop
      rw [← hsplit, not_not.mp hrsv]
      exact hmap (w.extractLsb' 0 8, j) (by simp [hlist])

theorem legalCommandWord_encode (i : Instr) : legalCommandWord (encode i) = true := by
  cases i <;> decide

/-- A word that the field tables do not allow decodes to no command (30_encoding.md R95). -/
theorem decode_of_illegal {w : Word} (h : legalCommandWord w = false) : ∃ e, decode w = .error e := by
  cases hd : decode w with
  | error e => exact ⟨e, rfl⟩
  | ok i =>
    rw [eq_encode_of_decode hd, legalCommandWord_encode] at h
    cases h

namespace Machine

/-! ## Writes while a command is pending (40_command.md R111) -/

theorem writeReg_of_operand_busy {r : Reg} {s : State} (hr : regIsOperand r = true) (hb : s.busy = true) (v : Word) :
    writeReg r v s = rejectWrite s := by
  rcases writeReg_cases r v s with ⟨-, -, h⟩ | ⟨rfl, -⟩ | ⟨rfl, -⟩ | ⟨-, hidle, -⟩ | ⟨-, -, hidle, -⟩ | ⟨hno, -⟩
  · exact h
  · cases hr
  · cases hr
  · simp [hb] at hidle
  · simp [hb] at hidle
  · simp [hr] at hno

theorem hostAccess_write_operand_of_busy {off : Offset} {s : State} (ho : operandOffset off.toNat)
    (hb : s.busy = true) (v : Word) : hostAccess (.write off 4 v) s = rejectWrite s := by
  obtain ⟨r, hr, hop, -⟩ := regAt_of_operandOffset ho
  rw [hostAccess_write_aligned ho.1, writeAt_of_regAt hr, writeReg_of_operand_busy hop hb]

/-- A write to `STATUS` as one update: each write-1-to-clear field by its bit (10_state.md R29, R30, R32, R33). -/
theorem writeStatus_eq (v : Word) (s : State) :
    writeStatus v s =
      { s with
        done := s.done && !v[1]
        err := s.err && !v[2]
        errcode := if v[2] then 0 else s.errcode
        werr := s.werr && !v[9]
        aerr := s.aerr && !v[10] } := by
  rw [State.mk.injEq]
  simp

/-! ## The completion of an illegal word (40_command.md R117) -/

theorem sequencerTurn_of_illegal {s : State} (hb : s.busy = true) (hw : legalCommandWord s.pend = false) :
    sequencerTurn s = .next (errorState 5 0xFFFFFFFF s) := by
  obtain ⟨e, he⟩ := decode_of_illegal hw
  rw [sequencerTurn_eq, if_pos hb, he]
  rfl

/-! ## What stays of a pending command (40_command.md R118, R119) -/

/-- What host accesses short of a reset leave: `t` is `s` but for the control fields, the flags of `STATUS` other than
`BUSY`, and the word last read; and `DONE` and `ERR` do not rise. -/
structure KeepsPending (s t : State) : Prop where
  rest : t = { s with
    ie := t.ie
    keyMin := t.keyMin
    done := t.done
    err := t.err
    errcode := t.errcode
    werr := t.werr
    aerr := t.aerr
    rdata := t.rdata }
  done : s.done = false → t.done = false
  err : s.err = false → t.err = false

namespace KeepsPending

theorem refl (s : State) : KeepsPending s s := ⟨rfl, id, id⟩

theorem trans {s t u : State} (h : KeepsPending s t) (h' : KeepsPending t u) : KeepsPending s u := by
  refine ⟨?_, h'.done ∘ h.done, h'.err ∘ h.err⟩
  rw [h'.rest, h.rest]

section Fields

variable {s t : State} (h : KeepsPending s t)
include h

theorem busy : t.busy = s.busy := by rw [h.rest]
theorem pend : t.pend = s.pend := by rw [h.rest]
theorem errpos : t.errpos = s.errpos := by rw [h.rest]
theorem outLen : t.outLen = s.outLen := by rw [h.rest]
theorem sq : t.sq = s.sq := by rw [h.rest]
theorem mem : t.mem = s.mem := by rw [h.rest]

theorem keepsInverse : KeepsInverse s t :=
  ⟨by rw [h.rest], by rw [h.rest], by rw [h.rest]⟩

theorem outByte (i : Nat) : t.outByte i = s.outByte i := by
  unfold State.outByte
  rw [h.mem]

/-- No command reads a control field, a flag, or the word last read (30_encoding.md R93). -/
theorem commandResult_eq (i : Instr) : commandResult i t = commandResult i s := by
  rw [h.rest]
  cases i <;> rfl

theorem sameResult (i : Instr) : SameResult i s t :=
  ⟨commandResult i s, exec_eq i s, by rw [exec_eq, h.commandResult_eq]⟩

end Fields

/-- One access, by what it can do: with a command pending it is neither accepted nor stored. -/
theorem of_hostAccess {a : Access} {s : State} (hb : s.busy = true) (ha : ¬a.SoftReset) :
    KeepsPending s (hostAccess a s) := by
  rcases hostAccess_cases a s with ⟨-, h | h⟩ | ⟨-, -, w, h⟩ | ⟨off, v, -, -, -, h⟩ | ⟨v, rfl, h⟩ | ⟨v, -, h⟩ |
    ⟨v, -, hidle, -⟩ | ⟨off, v, -, -, -, hidle, -⟩ | ⟨off, v, -, -, h⟩
  · rw [h]
    exact ⟨rfl, id, id⟩
  · rw [h]
    exact ⟨rfl, id, id⟩
  · rw [h]
    exact ⟨rfl, id, id⟩
  · rw [h]
    exact ⟨rfl, id, id⟩
  · rw [h, writeCtrl_of_no_reset (Access.not_softReset_iff.mp ha v rfl)]
    exact ⟨rfl, id, id⟩
  · rw [h, writeStatus_eq]
    exact ⟨rfl, fun hd => by simp [hd], fun he => by simp [he]⟩
  · simp [hb] at hidle
  · simp [hb] at hidle
  · rw [h]
    exact refl s

theorem of_accesses {l : List Access} {s : State} (hb : s.busy = true) (hl : ∀ a ∈ l, ¬a.SoftReset) :
    KeepsPending s (l.foldl (fun u a => hostAccess a u) s) := by
  induction l generalizing s with
  | nil => exact refl s
  | cons a l ih =>
    obtain ⟨ha, hl⟩ := List.forall_mem_cons.mp hl
    have hfirst : KeepsPending s (hostAccess a s) := of_hostAccess hb ha
    exact hfirst.trans (ih (hfirst.busy.trans hb) hl)

end KeepsPending

end Machine

/-! ## The statements of 40_command.md -/

/-- Settles O45: the accesses keep the pending command, and no command reads what they may change. -/
theorem pendingOperandsAreStable : Obligations.PendingOperandsAreStable := by
  unfold Obligations.PendingOperandsAreStable
  intro s l hb hl
  have h : KeepsPending s (l.foldl (fun u a => hostAccess a u) s) :=
    .of_accesses hb fun a ha => Access.not_softReset_iff.mpr (hl a ha)
  exact ⟨h.busy.trans hb, h.pend, h.sameResult⟩

/-- Settles O46: acceptance keeps the results and clears the report, and the accesses after it keep both. -/
theorem resultsKeepPreCommandValuesUntilCommit : Obligations.ResultsKeepPreCommandValuesUntilCommit := by
  unfold Obligations.ResultsKeepPreCommandValuesUntilCommit
  intro s w l hb hl
  rw [hostAccess_write_cmd w hb]
  have h : KeepsPending (accept w s) (l.foldl (fun u a => hostAccess a u) (accept w s)) :=
    .of_accesses rfl fun a ha => Access.not_softReset_iff.mpr (hl a ha)
  exact ⟨h.busy, h.pend, h.done rfl, h.err rfl, h.errpos, h.outLen, fun i _ => h.outByte i, h.sq, h.keepsInverse⟩

/-- Settles O9, by the class of the offset written. -/
theorem pendingCommandRejectsOperandWrites : Obligations.PendingCommandRejectsOperandWrites := by
  unfold Obligations.PendingCommandRejectsOperandWrites
  intro s off v hb
  refine ⟨fun ho => hostAccess_write_operand_of_busy ho hb v, ?_, fun hv => writeCtrl_of_no_reset hv, fun hv => ?_,
    writeStatus_eq v s, fun h4 => hostAccess_read_aligned h4 s⟩
  · rintro (ho | ho)
    · exact hostAccess_write_readOnly ho v s
    · exact hostAccess_write_reserved ho v s
  · rw [hostAccess_write_ctrl, writeCtrl_of_reset hv]
    rfl

/-- Settles O23: an illegal word decodes to no command, so its completion is the error commit of code 5. -/
theorem illegalWordCompletesWithCodeFive : Obligations.IllegalWordCompletesWithCodeFive := by
  unfold Obligations.IllegalWordCompletesWithCodeFive
  intro s hb hn hw
  rw [step_eq, hn]
  exact sequencerTurn_of_illegal (s := popTurn s) hb hw

/-- Settles O8: the write is an acceptance, and `CMD` reads the word it latched. -/
theorem idleCmdWriteIsAccepted : Obligations.IdleCmdWriteIsAccepted := by
  unfold Obligations.IdleCmdWriteIsAccepted
  intro s v hb
  rw [hostAccess_write_cmd v hb]
  exact ⟨rfl, rfl⟩

end Sys2Proof
end

section
/-! SUPPORT. The statements of 41_normalizer.md: case folding, the indices, the reductions, and that no command sees the
case of a key's letters. Every use of a key byte goes through `upper` or the byte's class, which `upper` keeps
(`isLetter_upper`); so each part of a command that reads `KEY` is shown equal for two keys that differ in case only, and
the commands, which are made of these parts, follow. -/

namespace Sys2Proof

open Machine

namespace Machine

/-! ## Case folding, symbols and indices (41_normalizer.md R131) -/

theorem upper_eq (b : Byte) : upper b = if 97 ≤ b.toNat ∧ b.toNat ≤ 122 then b - 32 else b := by
  simp [upper, isLower]

@[simp] theorem upper_upper (b : Byte) : upper (upper b) = upper b := by
  revert b; decide

theorem isUpper_iff {b : Byte} : isUpper b = true ↔ 65 ≤ b.toNat ∧ b.toNat ≤ 90 := by
  simp [isUpper]

theorem sym_idx (b : Byte) : sym (idx b) = b := by
  simp [sym, idx]

theorem toNat_sym {v : Nat} (h : v < 26) : (sym v).toNat = 65 + v := by
  have hsym : sym v = BitVec.ofNat 8 (65 + v) := by
    simp [sym, ← BitVec.ofInt_natCast]
  rw [hsym, BitVec.toNat_ofNat]
  omega

/-- Bytes that fold alike are of one class. -/
theorem isLetter_congr {b c : Byte} (h : upper b = upper c) : isLetter b = isLetter c := by
  rw [← isLetter_upper b, h, isLetter_upper]

/-! ## Reductions (41_normalizer.md R138) -/

/-- The remainder by a positive modulus lies in `[0, n)`, of negative integers too, and differs by a multiple of `n`. -/
theorem emod_nonneg_representative (x : ℤ) {n : ℤ} (hn : 0 < n) : 0 ≤ x % n ∧ x % n < n ∧ ∃ k, x = x % n + n * k :=
  ⟨Int.emod_nonneg x hn.ne', Int.emod_lt_of_pos x hn, x / n, (Int.emod_add_mul_ediv x n).symm⟩

/-! ## Keys that differ in case only (41_normalizer.md R139) -/

/-- A `VIG_ENC` output byte depends on its key byte through `upper` (42_vigenere.md R150). -/
theorem vigEncByte_congr {k k' : Byte} (h : upper k = upper k') (b : Byte) : vigEncByte b k = vigEncByte b k' := by
  simp only [vigEncByte, h]

/-- A `VIG_DEC` output byte depends on its key byte through `upper` (42_vigenere.md R151). -/
theorem vigDecByte_congr {k k' : Byte} (h : upper k = upper k') (b : Byte) : vigDecByte b k = vigDecByte b k' := by
  simp only [vigDecByte, h]

/-- Folding a key first changes none of the letters that the square is built from (43_playfair.md R170). -/
theorem pfKeyLetters_map_upper (key : List Byte) : pfKeyLetters (key.map upper) = pfKeyLetters key := by
  have hclass : isLetter ∘ upper = isLetter := funext isLetter_upper
  simp [pfKeyLetters, List.filter_map, hclass, Function.comp_def]

theorem buildSquare_congr {key key' : List Byte} (h : key.map upper = key'.map upper) :
    buildSquare key = buildSquare key' := by
  have hletters : pfKeyLetters key = pfKeyLetters key' := by
    rw [← pfKeyLetters_map_upper, h, pfKeyLetters_map_upper]
  rw [buildSquare, hletters, buildSquare]

/-- What follows the Vigenère key check counts only where the key is not empty (42_vigenere.md R153). -/
theorem vigKeyCheck_bind_congr {α : Type} {s : State} {n : Nat} {f g : Eval α} (h : 0 < n → f = g) :
    (vigKeyCheck s n >>= fun _ => f) = (vigKeyCheck s n >>= fun _ => g) := by
  obtain rfl | hn := Nat.eq_zero_or_pos n
  · rfl
  · rw [h hn]

/-- `u` is `s` but for bytes of `KEY`, and those differ in the case of a letter at most. -/
structure SameButKeyCase (s u : State) : Prop where
  rest : u = { s with mem := u.mem }
  outsideKey : ∀ a, ¬(0x200 ≤ a ∧ a < 0x300) → Memory.read u.mem a = Memory.read s.mem a
  key : ∀ j, j < 256 → upper (u.keyByte j) = upper (s.keyByte j)

namespace SameButKeyCase

variable {s u : State} (h : SameButKeyCase s u)
include h

theorem keyLength : u.keyLength = s.keyLength := by rw [h.rest]; rfl
theorem inLength : u.inLength = s.inLength := by rw [h.rest]; rfl
theorem keyMatrix : u.keyMatrix = s.keyMatrix := by rw [h.rest]; rfl
theorem checkKeyLen : checkKeyLen u = checkKeyLen s := by rw [h.rest]; rfl
theorem checkInLen : checkInLen u = checkInLen s := by rw [h.rest]; rfl
theorem hillDim : hillDim u = hillDim s := by rw [h.rest]; rfl

theorem textByte (i : Nat) : u.textByte i = s.textByte i :=
  h.outsideKey (0x400 + i) (by omega)

theorem normText (jmap : Bool) : normText jmap u = normText jmap s := by
  have hbytes : u.textBytes s.inLength = s.textBytes s.inLength := List.map_congr_left fun i _ => h.textByte i
  rw [Machine.normText, h.inLength, hbytes, Machine.normText]

/-- What follows the check of `KEY_LEN` counts only where the key fits its buffer (40_command.md R121). -/
theorem checkKeyLen_bind {α : Type} {f g : Eval α} (hfg : s.keyLength ≤ 256 → f = g) :
    (Machine.checkKeyLen u >>= fun _ => f) = (Machine.checkKeyLen s >>= fun _ => g) := by
  rw [h.checkKeyLen]
  by_cases hlen : s.keyLength ≤ 256
  · rw [hfg hlen]
  · rw [checkKeyLen_eq, if_pos (not_le.mp hlen)]
    rfl

theorem keySquare (hlen : s.keyLength ≤ 256) : u.keySquare = s.keySquare := by
  have hfold : (u.keyBytes s.keyLength).map upper = (s.keyBytes s.keyLength).map upper := by
    simp only [State.keyBytes, List.map_map]
    exact List.map_congr_left fun j hj => h.key j ((List.mem_range.mp hj).trans_le hlen)
  rw [State.keySquare, h.keyLength, buildSquare_congr hfold, State.keySquare]

theorem vigKeyCheck {n : Nat} (hn : n ≤ 256) : vigKeyCheck u n = vigKeyCheck s n := by
  have hclass : ∀ j ∈ List.range n, (!isLetter (u.keyByte j)) = !isLetter (s.keyByte j) := fun j hj => by
    rw [isLetter_congr (h.key j ((List.mem_range.mp hj).trans_le hn))]
  rw [Machine.vigKeyCheck, List.find?_congr hclass, Machine.vigKeyCheck]

/-- Both Vigenère commands, by the one fact that their output byte depends on the key byte through `upper`. -/
theorem vigEval {f : Byte → Byte → Byte} (hf : ∀ {k k' : Byte}, upper k = upper k' → ∀ b, f b k = f b k') :
    vigEval f u = vigEval f s := by
  refine h.checkKeyLen_bind fun hlen => ?_
  rw [h.keyLength, h.vigKeyCheck hlen, h.checkInLen, h.inLength]
  refine vigKeyCheck_bind_congr fun hpos => ?_
  have hbyte : ∀ i, f (u.textByte i) (u.keyByte (i % s.keyLength)) = f (s.textByte i) (s.keyByte (i % s.keyLength)) :=
    fun i => by rw [h.textByte, hf (h.key _ ((Nat.mod_lt i hpos).trans_le hlen))]
  simp only [hbyte]

/-- Every command comes to the same result: a part of it that reads `KEY` folds it, and the others read elsewhere. -/
theorem commandResult_eq (i : Instr) : commandResult i u = commandResult i s := by
  cases i with
  | vigEnc => exact h.vigEval vigEncByte_congr
  | vigDec => exact h.vigEval vigDecByte_congr
  | pfBuild => exact h.checkKeyLen_bind fun hlen => by rw [h.keySquare hlen]
  | pfEnc => exact h.checkKeyLen_bind fun hlen => by rw [h.checkInLen, h.normText, h.keySquare hlen]
  | pfDec => exact h.checkKeyLen_bind fun hlen => by rw [h.checkInLen, h.normText, h.keySquare hlen]
  | hillEnc => simp only [commandResult, hillEncEval, h.hillDim, h.checkInLen, h.normText, h.keyMatrix]
  | hillDec => simp only [commandResult, hillDecEval, h.hillDim, h.checkInLen, h.normText, h.keyMatrix]
  | hillInv => simp only [commandResult, hillInvEval, h.hillDim, h.keyMatrix]

end SameButKeyCase

end Machine

/-! ## The statements of 41_normalizer.md -/

/-- Settles O56: the command comes to the same result, and so both completions commit it. -/
theorem keysAreCaseInsensitive : Obligations.KeysAreCaseInsensitive := by
  unfold Obligations.KeysAreCaseInsensitive
  intro i s m hout hkey
  have h : SameButKeyCase s { s with mem := m } := ⟨rfl, hout, hkey⟩
  exact ⟨commandResult i s, exec_eq i s, by rw [exec_eq, h.commandResult_eq]⟩

/-- Settles O57: folding, symbol to index and back, and index to symbol and back. -/
theorem symbolsAndIndicesCorrespond : Obligations.SymbolsAndIndicesCorrespond := by
  unfold Obligations.SymbolsAndIndicesCorrespond
  refine ⟨upper_eq, fun b hb => ?_, fun v hv => ?_⟩
  · obtain ⟨hlo, hhi⟩ := isUpper_iff.mp hb
    exact ⟨rfl, by simp only [idx]; omega, by simp only [idx]; omega, sym_idx b⟩
  · have hsym := toNat_sym hv
    exact ⟨hsym, isUpper_iff.mpr (by omega), by simp only [idx, hsym]; omega⟩

/-- Settles O58: both reductions are Lean's remainder by a positive modulus. -/
theorem reductionsAreNonNegative : Obligations.ReductionsAreNonNegative := by
  unfold Obligations.ReductionsAreNonNegative
  intro x
  exact ⟨emod_nonneg_representative x (by decide), emod_nonneg_representative x (by decide)⟩

end Sys2Proof
end

section
/-! SUPPORT. The statements of 42_vigenere.md. The two commands are one evaluation (`vigEval`) with two letter lines, so
its five outcomes are said once for any letter line (`vigEval_of_…`), and the completion of a command that is this
evaluation once for both (`vigenereCompletes`); what is left to each command is the index its letter line computes. -/

namespace Sys2Proof

open Machine

namespace Machine

/-! ## Commits, by the result of the command (40_command.md R114, R115, R122) -/

theorem exec_of_error {i : Instr} {s : State} {e : CmdError} (h : commandResult i s = .error e) :
    exec i s = .next (errorState e.kind.code (errposWord e.pos) s) := by
  rw [exec_eq, h, commit_error, errorEntry_eq]

theorem exec_of_ok {i : Instr} {s : State} {w : Writes} (h : commandResult i s = .ok w) :
    exec i s = .next (commitOk w s) := by
  rw [exec_eq, h, commit_ok]

/-! ## Letters and their indices (41_normalizer.md R131, R138) -/

theorem letterIndex_lt {b : Byte} (h : isLetter b = true) : letterIndex b < 26 := by
  have hrange := isUpper_iff.mp (isUpper_upper h)
  unfold letterIndex
  omega

/-- The index of a folded letter is not negative, so it is the natural number that the statements use. -/
theorem idx_upper {b : Byte} (h : isLetter b = true) : idx (upper b) = letterIndex b := by
  have hrange := isUpper_iff.mp (isUpper_upper h)
  unfold idx letterIndex
  omega

theorem toNat_sym_mod26 (x : ℤ) : ((sym (mod26 x)).toNat : ℤ) = 65 + x % 26 := by
  obtain ⟨v, hv⟩ := Int.eq_ofNat_of_zero_le (Int.emod_nonneg x (by decide : (26 : ℤ) ≠ 0))
  have hlt := Int.emod_lt_of_pos x (by decide : (0 : ℤ) < 26)
  rw [mod26, hv, toNat_sym (by omega)]
  rfl

/-! ## The letter lines (42_vigenere.md R150, R151) -/

theorem vigEncByte_of_not_letter {b k : Byte} (hb : isLetter b = false) : vigEncByte b k = b := by
  simp [vigEncByte, normV, hb]

theorem vigDecByte_of_not_letter {b k : Byte} (hb : isLetter b = false) : vigDecByte b k = b := by
  simp [vigDecByte, normV, hb]

theorem toNat_vigEncByte {b k : Byte} (hb : isLetter b = true) (hk : isLetter k = true) :
    (vigEncByte b k).toNat = 65 + (letterIndex b + letterIndex k) % 26 := by
  have hsym := toNat_sym_mod26 (letterIndex b + letterIndex k)
  rw [vigEncByte, if_pos hb, idx_upper hb, idx_upper hk]
  omega

theorem toNat_vigDecByte {b k : Byte} (hb : isLetter b = true) (hk : isLetter k = true) :
    (vigDecByte b k).toNat = 65 + (letterIndex b + 26 - letterIndex k) % 26 := by
  have hsym := toNat_sym_mod26 (letterIndex b - letterIndex k)
  have hlt := letterIndex_lt hk
  rw [vigDecByte, if_pos hb, idx_upper hb, idx_upper hk]
  omega

/-! ## The key check (42_vigenere.md R153) -/

theorem vigKeyCheck_of_firstBadKey {s : State} {j : Nat} (h : FirstBadKey s j) :
    vigKeyCheck s s.keyLength = .error ⟨.invalidKey, some j⟩ := by
  obtain ⟨hj, hbad, hbefore⟩ := h
  have hfind : (List.range s.keyLength).find? (fun j => !isLetter (s.keyByte j)) = some j := by
    rw [List.find?_range_eq_some]
    simpa [hbad, hj] using hbefore
  rw [vigKeyCheck, if_neg (by omega), hfind]
  rfl

/-! ## The evaluation of both commands, check by check (42_vigenere.md R150) -/

/-- The output text of the Vigenère commands, one byte per text byte (42_vigenere.md R152). -/
def vigText (f : Byte → Byte → Byte) (s : State) : List Byte :=
  (List.range s.inLength).map fun i => f (s.textByte i) (s.keyByte (i % s.keyLength))

@[simp] theorem length_vigText (f : Byte → Byte → Byte) (s : State) : (vigText f s).length = s.inLength := by
  simp [vigText]

theorem getD_vigText (f : Byte → Byte → Byte) {s : State} {i : Nat} (h : i < s.inLength) :
    (vigText f s).getD i 0 = f (s.textByte i) (s.keyByte (i % s.keyLength)) := by
  simp [vigText, h]

section Evaluation

variable (f : Byte → Byte → Byte) {s : State}

theorem vigEval_of_longKey (h : 256 < s.keyLength) : vigEval f s = .error ⟨.invalidKey, none⟩ := by
  rw [vigEval, checkKeyLen_eq, if_pos h]
  rfl

/-- Past the check of `KEY_LEN` the key check decides. -/
theorem vigEval_of_keyCheck_error {e : CmdError} (hlen : s.keyLength ≤ 256)
    (h : vigKeyCheck s s.keyLength = .error e) : vigEval f s = .error e := by
  rw [vigEval, checkKeyLen_eq, if_neg (by omega), h]
  rfl

theorem vigEval_of_emptyKey (h : s.keyLength = 0) : vigEval f s = .error ⟨.invalidKey, none⟩ :=
  vigEval_of_keyCheck_error f (by omega) (by rw [h]; rfl)

theorem vigEval_of_firstBadKey {j : Nat} (hlen : s.keyLength ≤ 256) (h : FirstBadKey s j) :
    vigEval f s = .error ⟨.invalidKey, some j⟩ :=
  vigEval_of_keyCheck_error f hlen (vigKeyCheck_of_firstBadKey h)

/-- With a good key the check of `IN_LEN` decides. -/
theorem vigEval_of_keyGood (hkey : VigKeyGood s) :
    vigEval f s =
      if 1024 < s.inLength then .error ⟨.invalidInput, none⟩ else .ok { text := some (vigText f s) } := by
  obtain ⟨hpos, hlen, hletters⟩ := hkey
  rw [vigEval, checkKeyLen_eq, if_neg (by omega), vigKeyCheck_ok hpos hletters, checkInLen_eq]
  split <;> rfl

end Evaluation

/-! ## The completion of both commands -/

theorem exec_of_vigEval_ok {i : Instr} {f : Byte → Byte → Byte} {s : State} (hresult : commandResult i s = vigEval f s)
    (hkey : VigKeyGood s) (h : s.inLength ≤ 1024) :
    exec i s = .next (commitOk { text := some (vigText f s) } s) :=
  exec_of_ok (hresult.trans ((vigEval_of_keyGood f hkey).trans (if_neg (by omega))))

theorem outByte_commitOk_vigText (f : Byte → Byte → Byte) {s : State} {n : Nat} (h : s.inLength ≤ 1024)
    (hn : n < s.inLength) :
    (commitOk { text := some (vigText f s) } s).outByte n = f (s.textByte n) (s.keyByte (n % s.keyLength)) := by
  rw [commitOk_outByte rfl (by rw [length_vigText]; omega) s (by omega), getD_vigText f hn]

/-- A command that is the Vigenère evaluation with letter line `f` completes as 42_vigenere.md R150 says, `index` being
the index, before its reduction modulo 26, that `f` computes from those of a text letter and a key letter. -/
theorem vigenereCompletes {i : Instr} {f : Byte → Byte → Byte} {index : Nat → Nat → Nat} {s : State}
    (hresult : commandResult i s = vigEval f s)
    (hletter : ∀ {b k : Byte}, isLetter b = true → isLetter k = true →
      (f b k).toNat = 65 + index (letterIndex b) (letterIndex k) % 26)
    (hother : ∀ {b k : Byte}, isLetter b = false → f b k = b) :
    (256 < s.keyLength → exec i s = .next (errorState 1 0xFFFFFFFF s)) ∧
    (s.keyLength = 0 → exec i s = .next (errorState 1 0xFFFFFFFF s)) ∧
    (∀ j, s.keyLength ≤ 256 → FirstBadKey s j → exec i s = .next (errorState 1 (BitVec.ofNat 32 j) s)) ∧
    (VigKeyGood s → 1024 < s.inLength → exec i s = .next (errorState 3 0xFFFFFFFF s)) ∧
    (VigKeyGood s → s.inLength ≤ 1024 →
      ∃ t, exec i s = .next t ∧ CommitFrame s t ∧ KeepsInverse s t ∧ t.sq = s.sq ∧
        KeepsBytesOutsideTextOut s t ∧ OutputLength t s.inLength ∧
        ∀ n, n < s.inLength →
          if isLetter (s.textByte n) then
            (t.outByte n).toNat =
              65 + index (letterIndex (s.textByte n)) (letterIndex (s.keyByte (n % s.keyLength))) % 26
          else t.outByte n = s.textByte n) := by
  refine ⟨fun h => exec_of_error (hresult.trans (vigEval_of_longKey f h)),
    fun h => exec_of_error (hresult.trans (vigEval_of_emptyKey f h)),
    fun j hlen h => exec_of_error (hresult.trans (vigEval_of_firstBadKey f hlen h)),
    fun hkey h => exec_of_error (hresult.trans ((vigEval_of_keyGood f hkey).trans (if_pos h))), fun hkey h => ?_⟩
  have hfits : (vigText f s).length ≤ 1028 := by rw [length_vigText]; omega
  refine ⟨_, exec_of_vigEval_ok hresult hkey h, commitOk_frame _ s, commitOk_keepsInverse rfl s,
    commitOk_keepsSquare rfl s, commitOk_keepsBytesOutside (by rintro _ ⟨⟩; exact hfits) s, ?_, fun n hn => ?_⟩
  · rw [← length_vigText f s]
    exact commitOk_outputLength rfl hfits s
  · obtain ⟨hpos, -, hletters⟩ := hkey
    rw [outByte_commitOk_vigText f h hn]
    split
    case isTrue hb => exact hletter hb (hletters _ (Nat.mod_lt n hpos))
    case isFalse hb => exact hother (by simpa using hb)

end Machine

/-! ## The statements of 42_vigenere.md -/

/-- Settles O26: `VIG_ENC` is the evaluation whose letter line adds the indices. -/
theorem vigEncCompletes : Obligations.VigEncCompletes := by
  unfold Obligations.VigEncCompletes
  exact fun s => vigenereCompletes (index := fun p k => p + k) rfl toNat_vigEncByte vigEncByte_of_not_letter

/-- Settles O27: `VIG_DEC` is the evaluation whose letter line subtracts the key's index. -/
theorem vigDecCompletes : Obligations.VigDecCompletes := by
  unfold Obligations.VigDecCompletes
  exact fun s => vigenereCompletes (index := fun p k => p + 26 - k) rfl toNat_vigDecByte vigDecByte_of_not_letter

end Sys2Proof
end

section
/-! SUPPORT. The statements of 43_playfair.md R174 to R176. The square of any key is an arrangement of `A25`
(`mem_buildSquare`, `nodup_buildSquare`), so `find` never fails on normalized text and a digraph's image is the one its
two cells give (`mapDigraph_cells`). `PF_ENC` and `PF_DEC` are one evaluation (`pfTextEval`) with two mappings of the
normalized text, so their shared errors and their result are said once for any such mapping. -/

namespace Sys2Proof

open Machine

namespace Machine

theorem ok_bind {α β : Type} (a : α) (f : α → Eval β) : ((.ok a : Eval α) >>= f) = f a := rfl

/-! ## The square of a key (43_playfair.md R170, R171) -/

theorem mem_appendNew {x s : Byte} {seq : List Byte} : x ∈ appendNew seq s ↔ x ∈ seq ∨ x = s := by
  by_cases h : s ∈ seq
  · rw [appendNew_of_mem h]
    exact ⟨.inl, fun hx => hx.elim id fun hs => hs ▸ h⟩
  · simp [appendNew_of_not_mem h]

theorem nodup_appendNew {seq : List Byte} (hseq : seq.Nodup) (s : Byte) : (appendNew seq s).Nodup := by
  by_cases h : s ∈ seq
  · rwa [appendNew_of_mem h]
  · rw [appendNew_of_not_mem h]
    simpa using hseq.concat h

theorem mem_foldl_appendNew {x : Byte} (l seq : List Byte) : x ∈ l.foldl appendNew seq ↔ x ∈ seq ∨ x ∈ l := by
  induction l generalizing seq with
  | nil => simp
  | cons s l ih => rw [List.foldl_cons, ih, mem_appendNew, List.mem_cons, or_assoc]

theorem nodup_foldl_appendNew (l : List Byte) {seq : List Byte} (hseq : seq.Nodup) : (l.foldl appendNew seq).Nodup := by
  induction l generalizing seq with
  | nil => exact hseq
  | cons s l ih => exact ih (nodup_appendNew hseq s)

theorem pfKeyLetters_subset (key : List Byte) : pfKeyLetters key ⊆ a25 := by
  intro x hx
  obtain ⟨b, hb, rfl⟩ := List.mem_map.mp hx
  exact foldJ_upper_mem_a25 (List.mem_filter.mp hb).2

theorem mem_buildSquare {key : List Byte} {s : Byte} : s ∈ buildSquare key ↔ s ∈ a25 := by
  rw [buildSquare, mem_foldl_appendNew, List.mem_append]
  have hkey := @pfKeyLetters_subset key s
  simpa using hkey

theorem nodup_buildSquare (key : List Byte) : (buildSquare key).Nodup :=
  nodup_foldl_appendNew _ List.nodup_nil

@[simp] theorem length_buildSquare (key : List Byte) : (buildSquare key).length = 25 := by
  have hperm : (buildSquare key).Perm a25 :=
    (List.perm_ext_iff_of_nodup (nodup_buildSquare key) (by decide)).mpr fun _ => mem_buildSquare
  exact hperm.length_eq

/-- The letter at index `5·row + col` of the square of a key. -/
def squareCell (key : List Byte) (k : Nat) : Byte := (buildSquare key).getD k 0

theorem exists_squareCell {s : Byte} (key : List Byte) (h : s ∈ a25) :
    ∃ row col, row < 5 ∧ col < 5 ∧ squareCell key (5 * row + col) = s := by
  obtain ⟨k, hk, hs⟩ := List.getElem_of_mem (mem_buildSquare (key := key).mpr h)
  rw [length_buildSquare] at hk
  refine ⟨k / 5, k % 5, by omega, Nat.mod_lt _ (by decide), ?_⟩
  rw [Nat.div_add_mod, squareCell, List.getD_eq_getElem _ _ (by simpa using hk), hs]

/-! ## `SQ` (43_playfair.md R174) -/

theorem toList_squareCells_buildSquare (key : List Byte) :
    (squareCells (buildSquare key)).toList = buildSquare key := by
  refine List.ext_getElem (by simp) fun k hk hk' => ?_
  simp [squareCells]

theorem sqCell_eq_getD (t : State) (k : Nat) : t.sqCell k = t.sq.toList.getD k 0 := by
  simp [State.sqCell]

/-! ## Digraphs (43_playfair.md R172, R173) -/

theorem findSymbol_squareCell (key : List Byte) {row col : Nat} (hrow : row < 5) (hcol : col < 5) :
    findSymbol (buildSquare key) (squareCell key (5 * row + col)) = .ok (row, col) := by
  have hk : 5 * row + col < (buildSquare key).length := by
    rw [length_buildSquare]
    omega
  have hfind : (buildSquare key).findIdx? (· == squareCell key (5 * row + col)) = some (5 * row + col) := by
    rw [squareCell, List.getD_eq_getElem _ _ hk, List.findIdx?_eq_some_iff_findIdx_eq]
    exact ⟨hk, (nodup_buildSquare key).idxOf_getElem _ hk⟩
  rw [findSymbol, hfind]
  have hdiv : ((5 * row + col : Nat) : ℤ) / 5 = row := by omega
  have hmod : ((5 * row + col : Nat) : ℤ) % 5 = col := by omega
  simp only [hdiv, hmod]

theorem squareAt_buildSquare (key : List Byte) (row col : Nat) :
    squareAt (buildSquare key) row col = squareCell key (5 * row + col) := rfl

/-- A move by `dir` modulo 5 is one by any `shift ≥ 0` congruent to it (41_normalizer.md R138). -/
theorem mod5_add {dir : ℤ} {shift : Nat} (h : dir % 5 = shift % 5) (k : Nat) :
    mod5 (k + dir) = ((k + shift) % 5 : Nat) := by
  rw [mod5]
  omega

/-- The image of the digraph in the cells `(ra, ca)` and `(rb, cb)` of a square, by the three cases of R173. -/
def cellsImage (cell : Nat → Byte) (shift ra ca rb cb : Nat) : Byte × Byte :=
  if ra = rb then (cell (5 * ra + (ca + shift) % 5), cell (5 * rb + (cb + shift) % 5))
  else if ca = cb then (cell (5 * ((ra + shift) % 5) + ca), cell (5 * ((rb + shift) % 5) + cb))
  else (cell (5 * ra + cb), cell (5 * rb + ca))

theorem digraphImage_cellsImage (cell : Nat → Byte) (shift : Nat) {ra ca rb cb : Nat} (hra : ra < 5) (hca : ca < 5)
    (hrb : rb < 5) (hcb : cb < 5) :
    DigraphImage cell shift (cell (5 * ra + ca)) (cell (5 * rb + cb)) (cellsImage cell shift ra ca rb cb).1
      (cellsImage cell shift ra ca rb cb).2 := by
  refine ⟨ra, ca, rb, cb, ⟨hra, hca, hrb, hcb⟩, rfl, rfl, ?_⟩
  unfold cellsImage
  split
  case isTrue => exact ⟨rfl, rfl⟩
  case isFalse => split <;> exact ⟨rfl, rfl⟩

theorem mapDigraph_cells (key : List Byte) {dir : ℤ} {shift : Nat} (hdir : dir % 5 = shift % 5) {ra ca rb cb : Nat}
    (hra : ra < 5) (hca : ca < 5) (hrb : rb < 5) (hcb : cb < 5) :
    mapDigraph (buildSquare key) dir (squareCell key (5 * ra + ca)) (squareCell key (5 * rb + cb)) =
      .ok (cellsImage (squareCell key) shift ra ca rb cb) := by
  rw [mapDigraph, findSymbol_squareCell key hra hca, findSymbol_squareCell key hrb hcb]
  simp only [ok_bind, mod5_add hdir, squareAt_buildSquare, Nat.cast_inj, cellsImage]
  split
  case isTrue => rfl
  case isFalse => split <;> rfl

theorem exists_mapDigraph (key : List Byte) {dir : ℤ} {shift : Nat} (hdir : dir % 5 = shift % 5) {a b : Byte}
    (ha : a ∈ a25) (hb : b ∈ a25) :
    ∃ x y, mapDigraph (buildSquare key) dir a b = .ok (x, y) ∧ DigraphImage (squareCell key) shift a b x y := by
  obtain ⟨ra, ca, hra, hca, rfl⟩ := exists_squareCell key ha
  obtain ⟨rb, cb, hrb, hcb, rfl⟩ := exists_squareCell key hb
  exact ⟨_, _, mapDigraph_cells key hdir hra hca hrb hcb, digraphImage_cellsImage _ shift hra hca hrb hcb⟩

/-- `out` holds the images of the digraphs of `syms`, position by position. -/
structure DigraphImages (cell : Nat → Byte) (shift : Nat) (syms out : List Byte) : Prop where
  length : out.length = syms.length
  image : ∀ q, 2 * q + 1 < syms.length →
    DigraphImage cell shift (syms.getD (2 * q) 0) (syms.getD (2 * q + 1) 0) (out.getD (2 * q) 0)
      (out.getD (2 * q + 1) 0)

theorem DigraphImages.nil (cell : Nat → Byte) (shift : Nat) : DigraphImages cell shift [] [] :=
  ⟨rfl, fun _ h => absurd h (by simp)⟩

theorem DigraphImages.cons {cell : Nat → Byte} {shift : Nat} {a b x y : Byte} {syms out : List Byte}
    (h : DigraphImage cell shift a b x y) (hrest : DigraphImages cell shift syms out) :
    DigraphImages cell shift (a :: b :: syms) (x :: y :: out) where
  length := by simp [hrest.length]
  image
    | 0, _ => h
    | q + 1, hq => hrest.image q (by simp only [List.length_cons] at hq; omega)

/-- Mapping an even number of symbols of the alphabet succeeds (43_playfair.md R175, R176). -/
theorem exists_mapDigraphs (key : List Byte) {dir : ℤ} {shift : Nat} (hdir : dir % 5 = shift % 5) :
    ∀ syms : List Byte, (∀ s ∈ syms, s ∈ a25) → syms.length % 2 = 0 →
      ∃ out, mapDigraphs (buildSquare key) dir syms = .ok out ∧ DigraphImages (squareCell key) shift syms out
  | [], _, _ => ⟨[], rfl, .nil _ _⟩
  | [_], _, heven => absurd heven one_ne_zero
  | a :: b :: rest, hmem, heven => by
    simp only [List.forall_mem_cons] at hmem
    obtain ⟨ha, hb, hrest⟩ := hmem
    obtain ⟨x, y, hxy, himage⟩ := exists_mapDigraph key hdir ha hb
    have heven' : rest.length % 2 = 0 := by simpa [add_assoc] using heven
    obtain ⟨out, hout, himages⟩ := exists_mapDigraphs key hdir rest hrest heven'
    refine ⟨x :: y :: out, ?_, .cons himage himages⟩
    rw [mapDigraphs, hxy, ok_bind, hout]
    rfl

/-! ## The normalized text (41_normalizer.md R135, R137) -/

theorem textLetters_length_le (f : Byte → Byte) (s : State) : (textLetters f s).length ≤ s.inLength := by
  have h := List.length_filter_le isLetter (s.textBytes s.inLength)
  simpa [textLetters, State.textBytes] using h

theorem normText_of_clean {s : State} (jmap : Bool) (h : TextClean s) :
    normText jmap s = .ok (textLetters (foldSymbol jmap) s) := by
  have hnone : (s.textBytes s.inLength).findIdx? (fun b => !isLetter b && !isWS b) = none := by
    rw [List.findIdx?_eq_none_iff]
    simp only [State.textBytes, List.forall_mem_map, List.mem_range]
    intro i hi
    rcases h i hi with hb | hb <;> simp [hb]
  rw [normText, normTextFrom_eq, hnone, textLetters]

theorem normText_of_firstBad {s : State} {i : Nat} (jmap : Bool) (h : FirstBadText s i) :
    normText jmap s = .error ⟨.invalidInput, some i⟩ := by
  obtain ⟨hi, hletter, hws, hbefore⟩ := h
  have hsome : (s.textBytes s.inLength).findIdx? (fun b => !isLetter b && !isWS b) = some i := by
    rw [List.findIdx?_eq_some_iff_getElem]
    refine ⟨by simpa [State.textBytes] using hi, by simp [State.textBytes, hletter, hws], fun k hk => ?_⟩
    rcases hbefore k hk with hb | hb <;> simp [State.textBytes, hb]
  rw [normText, normTextFrom_eq, hsome]
  simp

/-- The letters of the text as the Playfair commands see them: folded, 'J' as 'I'. -/
abbrev pfLetters (s : State) : List Byte := textLetters (fun b => foldJ (upper b)) s

theorem pfLetters_subset (s : State) : ∀ c ∈ pfLetters s, c ∈ a25 := by
  intro c hc
  obtain ⟨b, hb, rfl⟩ := List.mem_map.mp hc
  exact foldJ_upper_mem_a25 (List.mem_filter.mp hb).2

theorem paddedTo_two_subset {t : List Byte} (h : ∀ c ∈ t, c ∈ a25) : ∀ c ∈ paddedTo 2 t, c ∈ a25 := by
  intro c hc
  rcases List.mem_append.mp hc with hc | hc
  · exact h c hc
  · rw [List.eq_of_mem_replicate hc]
    decide

theorem length_paddedTo_two (t : List Byte) : (paddedTo 2 t).length = t.length + t.length % 2 := by
  rw [paddedTo, List.length_append, List.length_replicate]
  omega

/-! ## The evaluation of `PF_ENC` and `PF_DEC`, check by check (43_playfair.md R175, R176) -/

/-- The frame of both commands around the mapping `f` of the normalized text. -/
def pfTextEval (f : List Byte → Eval (List Byte)) (s : State) : Eval Writes := do
  checkKeyLen s
  checkInLen s
  let t ← normText true s
  let out ← f t
  return { text := some out, square := some (squareCells s.keySquare) }

/-- The mapping of `PF_ENC`: the text padded to an even length (R175). -/
def pfEncMap (s : State) (t : List Byte) : Eval (List Byte) := mapDigraphs s.keySquare 1 (padX t 2)

/-- The mapping of `PF_DEC`: an odd length is an error (R176). -/
def pfDecMap (s : State) (t : List Byte) : Eval (List Byte) :=
  if t.length % 2 ≠ 0 then raise .invalidInput none else mapDigraphs s.keySquare (-1) t

theorem pfEncMap_eq (s : State) (t : List Byte) :
    pfEncMap s t = mapDigraphs (buildSquare (s.keyBytes s.keyLength)) 1 (paddedTo 2 t) := rfl

theorem pfDecMap_of_odd (s : State) {t : List Byte} (h : t.length % 2 = 1) :
    pfDecMap s t = .error ⟨.invalidInput, none⟩ := if_pos (by omega)

theorem pfDecMap_of_even (s : State) {t : List Byte} (h : t.length % 2 = 0) :
    pfDecMap s t = mapDigraphs (buildSquare (s.keyBytes s.keyLength)) (-1) t := if_neg (by omega)

theorem commandResult_pfEnc (s : State) : commandResult .pfEnc s = pfTextEval (pfEncMap s) s := rfl

theorem commandResult_pfDec (s : State) : commandResult .pfDec s = pfTextEval (pfDecMap s) s := by
  rw [commandResult, pfDecEval, pfTextEval]
  refine bind_congr fun _ => bind_congr fun _ => bind_congr fun t => ?_
  unfold pfDecMap
  split <;> rfl

section Evaluation

variable (f : List Byte → Eval (List Byte)) {s : State}

theorem pfTextEval_of_longKey (h : 256 < s.keyLength) : pfTextEval f s = .error ⟨.invalidKey, none⟩ := by
  rw [pfTextEval, checkKeyLen_eq, if_pos h]
  rfl

theorem pfTextEval_of_longText (hkey : s.keyLength ≤ 256) (h : 1024 < s.inLength) :
    pfTextEval f s = .error ⟨.invalidInput, none⟩ := by
  rw [pfTextEval, checkKeyLen_eq, if_neg (by omega), checkInLen_eq, if_pos h]
  rfl

/-- Past the two length checks the text decides. -/
theorem pfTextEval_of_lengths (hkey : s.keyLength ≤ 256) (htext : s.inLength ≤ 1024) :
    pfTextEval f s = do
      let out ← normText true s >>= f
      return { text := some out, square := some (squareCells s.keySquare) } := by
  rw [pfTextEval, checkKeyLen_eq, if_neg (by omega), checkInLen_eq, if_neg (by omega), bind_assoc]
  rfl

theorem pfTextEval_of_firstBadText (hkey : s.keyLength ≤ 256) (htext : s.inLength ≤ 1024) {i : Nat}
    (h : FirstBadText s i) : pfTextEval f s = .error ⟨.invalidInput, some i⟩ := by
  rw [pfTextEval_of_lengths f hkey htext, normText_of_firstBad true h]
  rfl

theorem pfTextEval_of_clean (hkey : s.keyLength ≤ 256) (htext : s.inLength ≤ 1024) (h : TextClean s) :
    pfTextEval f s = do
      let out ← f (pfLetters s)
      return { text := some out, square := some (squareCells s.keySquare) } := by
  rw [pfTextEval_of_lengths f hkey htext, normText_of_clean true h]
  rfl

theorem commandResult_pfDec_of_odd (hkey : s.keyLength ≤ 256) (htext : s.inLength ≤ 1024) (h : TextClean s)
    (hodd : (pfLetters s).length % 2 = 1) : commandResult .pfDec s = .error ⟨.invalidInput, none⟩ := by
  rw [commandResult_pfDec, pfTextEval_of_clean _ hkey htext h, pfDecMap_of_odd s hodd]
  rfl

end Evaluation

/-! ## The completion of the commands -/

section Completion

variable {i : Instr} {f : List Byte → Eval (List Byte)} {s : State}

/-- The errors that `PF_ENC` and `PF_DEC` share, in order. -/
theorem pfText_errors (hresult : commandResult i s = pfTextEval f s) :
    (256 < s.keyLength → exec i s = .next (errorState 1 0xFFFFFFFF s)) ∧
    (s.keyLength ≤ 256 → 1024 < s.inLength → exec i s = .next (errorState 3 0xFFFFFFFF s)) ∧
    (∀ k, s.keyLength ≤ 256 → s.inLength ≤ 1024 → FirstBadText s k →
      exec i s = .next (errorState 3 (BitVec.ofNat 32 k) s)) :=
  ⟨fun h => exec_of_error (hresult.trans (pfTextEval_of_longKey f h)),
    fun hkey h => exec_of_error (hresult.trans (pfTextEval_of_longText f hkey h)),
    fun _ hkey htext h => exec_of_error (hresult.trans (pfTextEval_of_firstBadText f hkey htext h))⟩

/-- What a command writes that maps the digraphs of `syms` and stores the square of the key. -/
theorem pfText_success (hresult : commandResult i s = pfTextEval f s) (hkey : s.keyLength ≤ 256)
    (htext : s.inLength ≤ 1024) (hclean : TextClean s) {shift : Nat} {syms out : List Byte}
    (hmap : f (pfLetters s) = .ok out) (hout : DigraphImages (squareCell (s.keyBytes s.keyLength)) shift syms out)
    (hfits : syms.length ≤ 1028) :
    ∃ t, exec i s = .next t ∧ CommitFrame s t ∧ KeepsInverse s t ∧ KeepsBytesOutsideTextOut s t ∧
      t.sq.toList = buildSquare (s.keyBytes s.keyLength) ∧ OutputLength t syms.length ∧
      DigraphsWritten t shift syms := by
  have hlen := hout.length
  have hfits' : out.length ≤ 1028 := hlen.trans_le hfits
  have heval := hresult.trans (pfTextEval_of_clean f hkey htext hclean)
  rw [hmap] at heval
  have hsq := toList_squareCells_buildSquare (s.keyBytes s.keyLength)
  refine ⟨_, exec_of_ok heval, commitOk_frame _ s, commitOk_keepsInverse rfl s,
    commitOk_keepsBytesOutside (by rintro _ ⟨⟩; exact hfits') s, hsq, ?_, fun q hq => ?_⟩
  · rw [← hlen]
    exact commitOk_outputLength rfl hfits' s
  · have hcell : (commitOk { text := some out, square := some (squareCells s.keySquare) } s).sqCell =
        squareCell (s.keyBytes s.keyLength) :=
      funext fun k => (sqCell_eq_getD _ k).trans (congrArg (·.getD k 0) hsq)
    rw [hcell, commitOk_outByte rfl hfits' s (by omega), commitOk_outByte rfl hfits' s (by omega)]
    exact hout.image q hq

end Completion

end Machine

/-! ## The statements of 43_playfair.md on the commands -/

/-- Settles O28: the one check, then the commit of the 25 cells. -/
theorem pfBuildCompletes : Obligations.PfBuildCompletes := by
  unfold Obligations.PfBuildCompletes
  intro s
  have hresult : commandResult .pfBuild s =
      if 256 < s.keyLength then .error ⟨.invalidKey, none⟩ else .ok { square := some (squareCells s.keySquare) } := by
    rw [commandResult, pfBuildEval, checkKeyLen_eq]
    split <;> rfl
  refine ⟨fun h => exec_of_error (hresult.trans (if_pos h)), fun h => ?_⟩
  obtain ⟨hbytes, houtLen⟩ := commitOk_keepsBytes (w := { square := some (squareCells s.keySquare) }) rfl s
  exact ⟨_, exec_of_ok (hresult.trans (if_neg (by omega))), commitOk_frame _ s, commitOk_keepsInverse rfl s, hbytes,
    houtLen, toList_squareCells_buildSquare _⟩

/-- Settles O29: the padded text has an even number of symbols, all in the square. -/
theorem pfEncCompletes : Obligations.PfEncCompletes := by
  unfold Obligations.PfEncCompletes
  intro s
  obtain ⟨hlongKey, hlongText, hbad⟩ := pfText_errors (commandResult_pfEnc s)
  refine ⟨hlongKey, hlongText, hbad, fun hkey htext hclean => ?_⟩
  have hlen := length_paddedTo_two (pfLetters s)
  have hle : (pfLetters s).length ≤ s.inLength := textLetters_length_le _ s
  obtain ⟨out, hmap, hout⟩ := exists_mapDigraphs (s.keyBytes s.keyLength) (dir := 1) (shift := 1) rfl _
    (paddedTo_two_subset (pfLetters_subset s)) (by omega)
  exact pfText_success (syms := paddedTo 2 (pfLetters s)) (commandResult_pfEnc s) hkey htext hclean
    ((pfEncMap_eq s _).trans hmap) hout (by omega)

/-- Settles O30: the parity check, then the letters themselves; a move by -1 is one by 4 modulo 5. -/
theorem pfDecCompletes : Obligations.PfDecCompletes := by
  unfold Obligations.PfDecCompletes
  intro s
  obtain ⟨hlongKey, hlongText, hbad⟩ := pfText_errors (commandResult_pfDec s)
  refine ⟨hlongKey, hlongText, hbad,
    fun hkey htext hclean hodd => exec_of_error (commandResult_pfDec_of_odd hkey htext hclean hodd),
    fun hkey htext hclean (heven : (pfLetters s).length % 2 = 0) => ?_⟩
  have hle : (pfLetters s).length ≤ s.inLength := textLetters_length_le _ s
  obtain ⟨out, hmap, hout⟩ := exists_mapDigraphs (s.keyBytes s.keyLength) (dir := -1) (shift := 4) rfl _
    (pfLetters_subset s) heven
  exact pfText_success (syms := pfLetters s) (commandResult_pfDec s) hkey htext hclean
    ((pfDecMap_of_even s heven).trans hmap) hout (by omega)

end Sys2Proof
end

section
/-! SUPPORT. The statements of 44_hill.md R206 and R209 to R211. The model's determinant and adjugate are Mathlib's
(`det_eq_matrixDet`, `adj_eq_adjugate`), so a key times its adjugate is its determinant times the identity, and the
solver gives an inverse modulo 26 wherever the determinant is a unit (`hillInverse_of_coprime`). `HILL_DEC` and
`HILL_INV` share their key checks (`hillKeyEval`), `HILL_ENC` and `HILL_DEC` their text checks (`hillTextEval`) and the
commit of multiplied blocks; each is said once. -/

namespace Sys2Proof

open Machine

namespace Machine

/-! ## The modular inverse (44_hill.md R206) -/

theorem exists_inverse_mod26 {d : ℤ} (h : Int.gcd d 26 = 1) : ∃ x : ℤ, 1 ≤ x ∧ x < 26 ∧ d * x % 26 = 1 := by
  obtain ⟨a, b, hab⟩ := Int.isCoprime_iff_gcd_eq_one.mpr h
  have hmod : d * (a % 26) ≡ 1 [ZMOD 26] := calc
    d * (a % 26) ≡ d * a [ZMOD 26] := (Int.mod_modEq a 26).mul_left d
    _ ≡ 1 [ZMOD 26] := Int.modEq_iff_dvd.mpr ⟨b, by linarith⟩
  have hne : a % 26 ≠ 0 := by
    intro h0
    simp [h0, Int.ModEq] at hmod
  exact ⟨a % 26, by omega, by omega, hmod⟩

/-- `modInverse` gives the `x` it looks for wherever there is one. -/
theorem modInverse_spec {d : ℤ} (h : Int.gcd d 26 = 1) :
    1 ≤ modInverse d ∧ modInverse d < 26 ∧ d * modInverse d % 26 = 1 := by
  obtain ⟨y, hpos, hlt, hdy⟩ := exists_inverse_mod26 h
  unfold modInverse
  split
  case h_1 x hx =>
    obtain ⟨n, hn, rfl⟩ : ∃ n < 26, x = ((n : Nat) : ℤ) := by
      simpa [Config.na] using List.mem_of_find?_eq_some hx
    obtain ⟨hx1, hx2⟩ : 1 ≤ (n : ℤ) ∧ mod26 (d * n) = 1 := by simpa using List.find?_some hx
    exact ⟨hx1, by omega, hx2⟩
  case h_2 hnone =>
    have hnot : ∀ n < 26, 1 ≤ n → mod26 (d * (n : Nat)) ≠ 1 := by
      simpa [Config.na] using hnone
    obtain ⟨n, rfl⟩ := Int.eq_ofNat_of_zero_le (by omega : 0 ≤ y)
    exact absurd hdy (hnot n (by omega) (by omega))

theorem inverse_unique {d x y : ℤ} (h : Int.gcd d 26 = 1) (hx : 0 ≤ x ∧ x < 26) (hy : 0 ≤ y ∧ y < 26)
    (hdx : d * x % 26 = 1) (hdy : d * y % 26 = 1) : x = y := by
  have hmod := Int.ModEq.cancel_left_div_gcd (by decide : (0 : ℤ) < 26) (hdx.trans hdy.symm)
  rw [Int.gcd_comm, h, Int.ModEq] at hmod
  omega

/-! ## Integer matrices (44_hill.md R201, R204, R207) -/

/-- The `n × n` block of a matrix of the model as a matrix of Mathlib's. -/
abbrev matrixOf (n : Nat) (a : Mat) : Matrix (Fin n) (Fin n) ℤ := Matrix.of fun i j => a i j

theorem sumBelow_eq (n : Nat) (f : Nat → ℤ) : sumBelow n f = ∑ i ∈ Finset.range n, f i := by
  induction n with
  | zero => rfl
  | succ n ih => rw [sumBelow, ih, Finset.sum_range_succ]

theorem val_succAbove {n : Nat} (r : Fin (n + 1)) (i : Fin n) :
    (r.succAbove i : Nat) = if (i : Nat) < r then (i : Nat) else i + 1 := by
  simp only [Fin.succAbove, Fin.lt_def, Fin.val_castSucc]
  split <;> rfl

theorem matrixOf_minor {n : Nat} (a : Mat) (r c : Fin (n + 1)) :
    matrixOf n (minor a r c) = (matrixOf (n + 1) a).submatrix r.succAbove c.succAbove := by
  ext i j
  simp [minor, val_succAbove]

/-- The cofactor expansion along row 0 is Mathlib's (44_hill.md R204). -/
theorem det_eq_matrixDet (n : Nat) (a : Mat) : det n a = (matrixOf n a).det := by
  induction n generalizing a with
  | zero => simp [det]
  | succ n ih =>
    cases n with
    | zero => simp [det]
    | succ n =>
      rw [det, sumBelow_eq, ← Fin.sum_univ_eq_sum_range, Matrix.det_succ_row_zero]
      refine Finset.sum_congr rfl fun j _ => ?_
      rw [ih, ← Fin.succAbove_zero, ← matrixOf_minor]
      rfl

theorem adj_eq_adjugate {n : Nat} (a : Mat) (i j : Fin n) : adj n a i j = (matrixOf n a).adjugate i j := by
  cases n with
  | zero => exact i.elim0
  | succ n =>
    rw [Matrix.adjugate_fin_succ_eq_det_submatrix, ← matrixOf_minor, ← det_eq_matrixDet, adj, Nat.add_comm (j : Nat)]
    split
    case isTrue hn =>
      obtain rfl : n = 0 := by omega
      simp [det, Fin.fin_one_eq_zero]
    case isFalse => rfl

/-- A matrix times its adjugate is its determinant times the identity, in the sums of the model (44_hill.md R207). -/
theorem sum_mul_adj {n : Nat} (a : Mat) {i j : Nat} (hi : i < n) (hj : j < n) :
    ∑ k ∈ Finset.range n, a i k * adj n a k j = det n a * if i = j then 1 else 0 := by
  have h := congrFun₂ (Matrix.mul_adjugate (matrixOf n a)) ⟨i, hi⟩ ⟨j, hj⟩
  simp only [Matrix.mul_apply, Matrix.smul_apply, Matrix.one_apply, ← adj_eq_adjugate, ← det_eq_matrixDet, smul_eq_mul,
    Fin.mk.injEq] at h
  rw [← Fin.sum_univ_eq_sum_range]
  exact h

/-- The adjugate times an inverse `x` of the determinant modulo 26 is an inverse matrix modulo 26 (44_hill.md R208). -/
theorem sum_mul_mod26_adj {n : Nat} {a : Mat} {x : ℤ} (hx : x * det n a ≡ 1 [ZMOD 26]) {i j : Nat} (hi : i < n)
    (hj : j < n) :
    (∑ l ∈ Finset.range n, a i l * mod26 (x * adj n a l j)) % 26 = if i = j then 1 else 0 := by
  have hsum := calc
    ∑ l ∈ Finset.range n, a i l * mod26 (x * adj n a l j)
    _ ≡ ∑ l ∈ Finset.range n, a i l * (x * adj n a l j) [ZMOD 26] :=
      Int.ModEq.sum fun l _ => (Int.mod_modEq _ 26).mul_left (a i l)
    _ = x * ∑ l ∈ Finset.range n, a i l * adj n a l j := by
      rw [Finset.mul_sum]
      exact Finset.sum_congr rfl fun l _ => mul_left_comm _ _ _
    _ = x * det n a * if i = j then 1 else 0 := by rw [sum_mul_adj a hi hj, mul_assoc]
    _ ≡ 1 * if i = j then 1 else 0 [ZMOD 26] := hx.mul_right _
  rw [hsum, one_mul]
  split <;> rfl

/-! ## The solver (44_hill.md R205, R208) -/

/-- `v` is the determinant of the `n × n` block of `k` modulo 26, its inverse and the inverse of the block. -/
structure IsKeyInverse (n : Nat) (k : Mat) (v : KeyInverse) : Prop where
  det : v.d = (matrixOf n k).det % 26
  dinv : 1 ≤ v.dinv ∧ v.dinv < 26 ∧ v.d * v.dinv % 26 = 1
  range : ∀ i j, 0 ≤ v.kinv i j ∧ v.kinv i j < 26
  mul : ∀ i j, i < n → j < n → (∑ l ∈ Finset.range n, k i l * v.kinv l j) % 26 = if i = j then 1 else 0

theorem hillInverse_of_singular {n : Nat} {k : Mat} (h : Int.gcd (matrixOf n k).det 26 ≠ 1) :
    hillInverse n k = .error ⟨.nonInvertibleKey, none⟩ := by
  rw [hillInverse, mod26, Int.gcd_emod, det_eq_matrixDet, if_pos h]
  rfl

theorem hillInverse_of_coprime {n : Nat} {k : Mat} (h : Int.gcd (matrixOf n k).det 26 = 1) :
    ∃ v, hillInverse n k = .ok v ∧ IsKeyInverse n k v := by
  have hgcd : Int.gcd (mod26 (det n k)) 26 = 1 := by rwa [mod26, Int.gcd_emod, det_eq_matrixDet]
  obtain ⟨hpos, hlt, hunit⟩ := modInverse_spec hgcd
  rw [hillInverse, if_neg (not_not.mpr hgcd)]
  refine ⟨_, rfl, ?_, ⟨hpos, hlt, hunit⟩, fun i j => ?_, fun i j hi hj => ?_⟩
  · rw [← det_eq_matrixDet, mod26]
  · exact ⟨Int.emod_nonneg _ (by decide), Int.emod_lt_of_pos _ (by decide)⟩
  · refine sum_mul_mod26_adj ?_ hi hj
    rw [mul_comm]
    exact ((Int.mod_modEq (det n k) 26).mul_right _).symm.trans hunit

/-! ## The dimension check (44_hill.md R200) -/

theorem hillDim_of_illegal {s : State} (h : s.rows ≠ s.cols ∨ s.rows.toNat = 0 ∨ 4 < s.rows.toNat) :
    hillDim s = .error ⟨.invalidKey, none⟩ := by
  rw [hillDim_eq]
  split
  case isTrue => rfl
  case isFalse hsquare =>
    have heq : s.rows = s.cols := BitVec.eq_of_toNat_eq (not_not.mp hsquare)
    exact if_pos (h.resolve_left (not_not.mpr heq))

theorem hillDim_of_legal {s : State} {n : Nat} (h : HillDimIs s n) : hillDim s = .ok n := by
  obtain ⟨hrows, hcols, hpos, hle⟩ := h
  rw [hillDim_eq, hrows, hcols, if_neg (not_not.mpr rfl), if_neg (by omega)]

/-! ## The normalized text (41_normalizer.md R135, R137) -/

/-- The text checks that `HILL_ENC` and `HILL_DEC` share, before `f` of the normalized text (44_hill.md R209, R210). -/
def hillTextEval (f : List Byte → Eval Writes) (s : State) : Eval Writes := do
  checkInLen s
  let t ← normText false s
  f t

section TextEvaluation

variable (f : List Byte → Eval Writes) {s : State}

theorem hillTextEval_of_long (h : 1024 < s.inLength) : hillTextEval f s = .error ⟨.invalidInput, none⟩ := by
  rw [hillTextEval, checkInLen_eq, if_pos h]
  rfl

theorem hillTextEval_of_firstBad (hlen : s.inLength ≤ 1024) {i : Nat} (h : FirstBadText s i) :
    hillTextEval f s = .error ⟨.invalidInput, some i⟩ := by
  rw [hillTextEval, checkInLen_eq, if_neg (by omega), normText_of_firstBad false h]
  rfl

theorem hillTextEval_of_clean (hlen : s.inLength ≤ 1024) (h : TextClean s) :
    hillTextEval f s = f (textLetters upper s) := by
  rw [hillTextEval, checkInLen_eq, if_neg (by omega), normText_of_clean false h]
  rfl

end TextEvaluation

theorem isUpper_of_mem_textLetters {s : State} {c : Byte} (h : c ∈ textLetters upper s) : isUpper c = true := by
  obtain ⟨b, hb, rfl⟩ := List.mem_map.mp h
  exact isUpper_upper (List.mem_filter.mp hb).2

theorem isUpper_of_mem_paddedTo {n : Nat} {t : List Byte} (ht : ∀ c ∈ t, isUpper c = true) {c : Byte}
    (h : c ∈ paddedTo n t) : isUpper c = true := by
  rcases List.mem_append.mp h with h | h
  · exact ht c h
  · rw [List.eq_of_mem_replicate h]
    decide

theorem length_paddedTo (n : Nat) (t : List Byte) :
    (paddedTo n t).length = t.length + (n - t.length % n) % n := by
  rw [paddedTo, List.length_append, List.length_replicate]

/-- Padding completes the last block (41_normalizer.md R137). -/
theorem dvd_length_paddedTo {n : Nat} (hn : 0 < n) (t : List Byte) : n ∣ (paddedTo n t).length := by
  have hlt := Nat.mod_lt t.length hn
  rw [length_paddedTo, Nat.dvd_iff_mod_eq_zero, Nat.add_mod, Nat.mod_mod, Nat.add_mod_mod, Nat.add_sub_cancel' hlt.le,
    Nat.mod_self]

/-- The padding is shorter than a block. -/
theorem length_paddedTo_lt {n : Nat} (hn : 0 < n) (t : List Byte) : (paddedTo n t).length < t.length + n := by
  rw [length_paddedTo]
  exact Nat.add_lt_add_left (Nat.mod_lt _ hn) _

/-- The index of an upper-case letter is the one the statements use (41_normalizer.md R131). -/
theorem idx_of_isUpper {b : Byte} (h : isUpper b = true) : idx b = letterIndex b := by
  have hupper : isLetter b = true ∧ upper b = b := by
    revert b; decide
  have hidx := idx_upper hupper.1
  rwa [hupper.2] at hidx

/-! ## Blocks (44_hill.md R202, R203) -/

/-- Rows of `n` entries one after the other: entry `k` stands in row `k / n`, column `k % n`. -/
theorem flatMap_range_map_range {α : Type} (g : Nat → Nat → α) (m n : Nat) :
    (List.range m).flatMap (fun q => (List.range n).map (g q)) =
      (List.range (m * n)).map fun k => g (k / n) (k % n) := by
  induction m with
  | zero => simp
  | succ m ih =>
    rw [List.range_succ, List.flatMap_append, ih, Nat.succ_mul, List.range_add, List.map_append, List.map_map]
    congr 1
    rw [List.flatMap_singleton]
    refine List.map_congr_left fun k hk => ?_
    have hk' := List.mem_range.mp hk
    have hdiv : (m * n + k) / n = m := by
      rw [Nat.mul_comm, Nat.mul_add_div (by omega), Nat.div_eq_of_lt hk', Nat.add_zero]
    have hmod : (m * n + k) % n = k := by
      rw [Nat.mul_add_mod_self_right, Nat.mod_eq_of_lt hk']
    simp only [Function.comp_apply, hdiv, hmod]

/-- The blocks of a text of whole blocks, multiplied by `a`, byte by byte. -/
theorem mulBlocks_eq {n : Nat} (a : Mat) {t : List Byte} (h : n ∣ t.length) :
    mulBlocks n a t = (List.range t.length).map fun k => sym (blockMul n (block n t (k / n)) a (k % n)) := by
  rw [mulBlocks, flatMap_range_map_range, Nat.div_mul_cancel h]

theorem length_mulBlocks {n : Nat} (a : Mat) {t : List Byte} (h : n ∣ t.length) :
    (mulBlocks n a t).length = t.length := by
  simp [mulBlocks_eq a h]

theorem getD_mulBlocks {n q j : Nat} (a : Mat) {t : List Byte} (h : n ∣ t.length) (hj : j < n)
    (hlt : n * q + j < t.length) :
    (mulBlocks n a t).getD (n * q + j) 0 = sym (blockMul n (block n t q) a j) := by
  have hdiv : (n * q + j) / n = q := by
    rw [Nat.mul_add_div (by omega), Nat.div_eq_of_lt hj, Nat.add_zero]
  simp [mulBlocks_eq a h, hlt, hdiv, Nat.mod_eq_of_lt hj]

theorem toNat_sym_blockMul (n : Nat) (p : Nat → ℤ) (a : Mat) (j : Nat) :
    ((sym (blockMul n p a j)).toNat : ℤ) = 65 + (∑ i ∈ Finset.range n, p i * a i j) % 26 := by
  rw [blockMul, toNat_sym_mod26, sumBelow_eq]

/-- A block's entries are its letters' indices (44_hill.md R202). -/
theorem block_eq_letterIndex {n q i : Nat} {t : List Byte} (ht : ∀ c ∈ t, isUpper c = true)
    (hlt : n * q + i < t.length) : block n t q i = letterIndex (t.getD (n * q + i) 0) := by
  rw [block, idx_of_isUpper (ht _ _)]
  rw [List.getD_eq_getElem _ _ hlt]
  exact List.getElem_mem hlt

/-- `BlocksWritten` depends on the `n × n` block of the matrix only. -/
theorem blocksWritten_congr {n : Nat} {a b : Mat} (hab : ∀ i j, i < n → j < n → a i j = b i j) {t : State}
    {syms : List Byte} (h : BlocksWritten t n a syms) : BlocksWritten t n b syms := by
  intro q j hj hlt
  rw [h q j hj hlt]
  refine congrArg (65 + · % 26) (Finset.sum_congr rfl fun i hi => ?_)
  rw [hab i j (Finset.mem_range.mp hi) hj]

section BlocksCommit

variable {w : Writes} {n : Nat} {a : Mat} {t : List Byte}

/-- What a commit of the blocks of `t`, each multiplied by `a`, writes (40_command.md R116). -/
theorem outputLength_commitOk_mulBlocks (hw : w.text = some (mulBlocks n a t)) (hdvd : n ∣ t.length)
    (hfits : t.length ≤ 1028) (s : State) : OutputLength (commitOk w s) t.length := by
  rw [← length_mulBlocks a hdvd] at hfits ⊢
  exact commitOk_outputLength hw hfits s

theorem keepsBytesOutsideTextOut_commitOk_mulBlocks (hw : w.text = some (mulBlocks n a t)) (hdvd : n ∣ t.length)
    (hfits : t.length ≤ 1028) (s : State) : KeepsBytesOutsideTextOut s (commitOk w s) := by
  refine commitOk_keepsBytesOutside (fun out hout => ?_) s
  obtain rfl := Option.some.inj (hw.symm.trans hout)
  rwa [length_mulBlocks a hdvd]

theorem blocksWritten_commitOk_mulBlocks (hw : w.text = some (mulBlocks n a t)) (hdvd : n ∣ t.length)
    (hfits : t.length ≤ 1028) (ht : ∀ c ∈ t, isUpper c = true) (s : State) : BlocksWritten (commitOk w s) n a t := by
  intro q j hj hlt
  have hblock : n * q + n ≤ t.length := by
    obtain ⟨m, hm⟩ := hdvd
    rw [hm] at hlt ⊢
    have hqm : q < m := Nat.lt_of_mul_lt_mul_left (Nat.lt_of_le_of_lt (Nat.le_add_right _ _) hlt)
    exact Nat.mul_le_mul_left n hqm
  have hlen := length_mulBlocks a hdvd
  rw [commitOk_outByte hw (by omega) s (by omega), getD_mulBlocks a hdvd hj hlt, toNat_sym_blockMul]
  refine congrArg (65 + · % 26) (Finset.sum_congr rfl fun i hi => ?_)
  have hi' := Finset.mem_range.mp hi
  rw [block_eq_letterIndex ht (by omega)]

end BlocksCommit

/-! ## The inverse values (44_hill.md R212) -/

theorem toNat_ofInt_five {x : ℤ} (h : 0 ≤ x ∧ x < 26) : ((BitVec.ofInt 5 x).toNat : ℤ) = x := by
  rw [BitVec.toNat_ofInt]
  omega

section InverseCommit

variable {w : Writes} {n : Nat} {v : KeyInverse}

theorem invCell_commitOk_invWrites (hw : w.inverse = some (invWrites n v)) (s : State) {i j : Nat} (hi : i < 4)
    (hj : j < 4) :
    (commitOk w s).invCell i j = if i < n ∧ j < n then BitVec.ofInt 5 (v.kinv i j) else 0 := by
  have hlt : 4 * i + j < 16 := by omega
  have hdiv : (4 * i + j) / 4 = i := by omega
  have hmod : (4 * i + j) % 4 = j := by omega
  simp [State.invCell, hw, invWrites, hlt, hdiv, hmod]

/-- Inside the block a cell is the element of the inverse. -/
theorem toNat_invCell_commitOk (hw : w.inverse = some (invWrites n v)) {k : Mat} (hv : IsKeyInverse n k v)
    (hn : n ≤ 4) (s : State) {i j : Nat} (hi : i < n) (hj : j < n) :
    (((commitOk w s).invCell i j).toNat : ℤ) = v.kinv i j := by
  rw [invCell_commitOk_invWrites hw s (by omega) (by omega), if_pos ⟨hi, hj⟩, toNat_ofInt_five (hv.range i j)]

theorem inverseWritten_commitOk (hw : w.inverse = some (invWrites n v)) {s : State}
    (hv : IsKeyInverse n s.keyMatrix v) (hn : n ≤ 4) : InverseWritten s (commitOk w s) n := by
  obtain ⟨hpos, hlt, hunit⟩ := hv.dinv
  have hdrange : 0 ≤ v.d ∧ v.d < 26 := by rw [hv.det]; omega
  have hdet : ((commitOk w s).hillDet.toNat : ℤ) = v.d := by
    simp only [commitOk_hillDet, hw, invWrites]
    exact toNat_ofInt_five hdrange
  have hdinv : ((commitOk w s).hillDinv.toNat : ℤ) = v.dinv := by
    simp only [commitOk_hillDinv, hw, invWrites]
    exact toNat_ofInt_five ⟨by omega, hlt⟩
  refine ⟨hdet.trans hv.det, ⟨by omega, by omega, ?_⟩, fun i j hi hj => ?_, fun i j hi hj => ?_, fun i j hi hj h => ?_⟩
  · rw [← hdet, ← hdinv] at hunit
    exact_mod_cast hunit
  · by_cases hin : i < n ∧ j < n
    · have hcell := toNat_invCell_commitOk hw hv hn s hin.1 hin.2
      have hrange := hv.range i j
      omega
    · rw [invCell_commitOk_invWrites hw s hi hj, if_neg hin]
      decide
  · rw [← hv.mul i j hi hj]
    refine congrArg (· % 26) (Finset.sum_congr rfl fun l hl => ?_)
    rw [toNat_invCell_commitOk hw hv hn s (Finset.mem_range.mp hl) hj]
  · rw [invCell_commitOk_invWrites hw s hi hj, if_neg (by omega)]

end InverseCommit

/-! ## The evaluation of the commands, check by check (44_hill.md R209 to R211) -/

/-- The result of `HILL_ENC` for the normalized text `t`. -/
def hillEncWrites (n : Nat) (s : State) (t : List Byte) : Eval Writes :=
  .ok { text := some (mulBlocks n s.keyMatrix (paddedTo n t)) }

/-- The result of `HILL_DEC` for the inverse `v` and the normalized text `t`. -/
def hillDecWrites (n : Nat) (v : KeyInverse) (t : List Byte) : Eval Writes :=
  if t.length % n ≠ 0 then .error ⟨.invalidInput, none⟩
  else .ok { text := some (mulBlocks n v.kinv t), inverse := some (invWrites n v) }

/-- The key checks that `HILL_DEC` and `HILL_INV` share, before `f` of the dimension and the inverse. -/
def hillKeyEval (f : Nat → KeyInverse → Eval Writes) (s : State) : Eval Writes := do
  let n ← hillDim s
  let v ← hillInverse n s.keyMatrix
  f n v

theorem commandResult_hillEnc (s : State) :
    commandResult .hillEnc s = hillDim s >>= fun n => hillTextEval (hillEncWrites n s) s := rfl

theorem commandResult_hillDec (s : State) :
    commandResult .hillDec s = hillKeyEval (fun n v => hillTextEval (hillDecWrites n v) s) s := by
  rw [commandResult, hillDecEval, hillKeyEval]
  refine bind_congr fun n => bind_congr fun v => bind_congr fun _ => bind_congr fun t => ?_
  unfold hillDecWrites
  split <;> rfl

theorem commandResult_hillInv (s : State) :
    commandResult .hillInv s = hillKeyEval (fun n v => .ok { inverse := some (invWrites n v) }) s := rfl

section Completion

variable {i : Instr} {s : State} {n : Nat}

/-- The errors of a command that opens with the dimension check (44_hill.md R200). -/
theorem hillDim_errors {f : Nat → Eval Writes} (hresult : commandResult i s = hillDim s >>= f) :
    (s.rows ≠ s.cols → exec i s = .next (errorState 1 0xFFFFFFFF s)) ∧
    (s.rows.toNat = 0 ∨ 4 < s.rows.toNat → exec i s = .next (errorState 1 0xFFFFFFFF s)) := by
  have hexec := fun h => exec_of_error (hresult.trans (congrArg (· >>= f) (hillDim_of_illegal h)))
  exact ⟨fun h => hexec (.inl h), fun h => hexec (.inr h)⟩

theorem hillKeyEval_of_singular (f : Nat → KeyInverse → Eval Writes) (hdim : HillDimIs s n)
    (h : Int.gcd (keyMat s n).det 26 ≠ 1) : hillKeyEval f s = .error ⟨.nonInvertibleKey, none⟩ := by
  rw [hillKeyEval, hillDim_of_legal hdim, ok_bind, hillInverse_of_singular h]
  rfl

theorem exists_hillKeyEval_eq (hdim : HillDimIs s n) (h : Int.gcd (keyMat s n).det 26 = 1) :
    ∃ v, IsKeyInverse n s.keyMatrix v ∧ ∀ f, hillKeyEval f s = f n v := by
  obtain ⟨v, hv, hinverse⟩ := hillInverse_of_coprime h
  exact ⟨v, hinverse, fun f => by rw [hillKeyEval, hillDim_of_legal hdim, ok_bind, hv, ok_bind]⟩

theorem exec_hillText_of_long {f : List Byte → Eval Writes} (hresult : commandResult i s = hillTextEval f s)
    (h : 1024 < s.inLength) : exec i s = .next (errorState 3 0xFFFFFFFF s) :=
  exec_of_error (hresult.trans (hillTextEval_of_long f h))

theorem exec_hillText_of_firstBad {f : List Byte → Eval Writes} (hresult : commandResult i s = hillTextEval f s)
    {k : Nat} (hlen : s.inLength ≤ 1024) (h : FirstBadText s k) :
    exec i s = .next (errorState 3 (BitVec.ofNat 32 k) s) :=
  exec_of_error (hresult.trans (hillTextEval_of_firstBad f hlen h))

theorem exec_hillKey_of_singular {f : Nat → KeyInverse → Eval Writes} (hresult : commandResult i s = hillKeyEval f s)
    (hdim : HillDimIs s n) (h : Int.gcd (keyMat s n).det 26 ≠ 1) :
    exec i s = .next (errorState 2 0xFFFFFFFF s) :=
  exec_of_error (hresult.trans (hillKeyEval_of_singular f hdim h))

end Completion

end Machine

/-! ## The statements of 44_hill.md -/

/-- Settles O42: the inverse found has the property, and a unit has no second one below 26. -/
theorem modularInversesAreTheTables : Obligations.ModularInversesAreTheTables := by
  unfold Obligations.ModularInversesAreTheTables
  refine ⟨fun d _ hgcd x hx => ?_, by decide⟩
  have hgcd' : Int.gcd d 26 = 1 := hgcd
  obtain ⟨hpos, hlt, hmod⟩ := modInverse_spec hgcd'
  constructor
  · intro hdx
    exact inverse_unique hgcd' ⟨by omega, hlt⟩ ⟨by omega, by omega⟩ hmod (by exact_mod_cast hdx)
  · intro h
    rw [h] at hmod
    exact_mod_cast hmod

/-- Settles O31: past the checks the padded text is whole blocks of letters, and the key is not asked to be
invertible. -/
theorem hillEncCompletes : Obligations.HillEncCompletes := by
  unfold Obligations.HillEncCompletes
  intro s
  obtain ⟨hsquare, hrange⟩ := hillDim_errors (commandResult_hillEnc s)
  have hresult : ∀ {n}, HillDimIs s n → commandResult .hillEnc s = hillTextEval (hillEncWrites n s) s := fun hdim => by
    rw [commandResult_hillEnc, hillDim_of_legal hdim, ok_bind]
  refine ⟨hsquare, hrange, fun n hdim => exec_hillText_of_long (hresult hdim),
    fun n i hdim => exec_hillText_of_firstBad (hresult hdim), fun n hdim hlen hclean => ?_⟩
  have ⟨_, _, hpos, hn⟩ := hdim
  have heval := (hresult hdim).trans (hillTextEval_of_clean _ hlen hclean)
  have hdvd := dvd_length_paddedTo hpos (textLetters upper s)
  have hfits : (paddedTo n (textLetters upper s)).length ≤ 1028 := by
    have hle := textLetters_length_le upper s
    have hlt := length_paddedTo_lt hpos (textLetters upper s)
    omega
  have hupper : ∀ c ∈ paddedTo n (textLetters upper s), isUpper c = true := fun c =>
    isUpper_of_mem_paddedTo fun _ => isUpper_of_mem_textLetters
  exact ⟨_, exec_of_ok heval, commitOk_frame _ s, commitOk_keepsInverse rfl s, commitOk_keepsSquare rfl s,
    keepsBytesOutsideTextOut_commitOk_mulBlocks rfl hdvd hfits s, outputLength_commitOk_mulBlocks rfl hdvd hfits s,
    blocksWritten_commitOk_mulBlocks rfl hdvd hfits hupper s⟩

/-- Settles O32: the key checks come first, and the matrix that the blocks are multiplied by is the `INV` that the same
commit stores. -/
theorem hillDecCompletes : Obligations.HillDecCompletes := by
  unfold Obligations.HillDecCompletes
  intro s
  obtain ⟨hsquare, hrange⟩ := hillDim_errors (commandResult_hillDec s)
  have hresult : ∀ {n}, HillDimIs s n → Int.gcd (keyMat s n).det 26 = 1 →
      ∃ v, IsKeyInverse n s.keyMatrix v ∧ commandResult .hillDec s = hillTextEval (hillDecWrites n v) s := by
    intro n hdim hgcd
    obtain ⟨v, hv, heval⟩ := exists_hillKeyEval_eq hdim hgcd
    exact ⟨v, hv, (commandResult_hillDec s).trans (heval _)⟩
  refine ⟨hsquare, hrange, fun n hdim hgcd => ?_, fun n hdim hgcd => ?_, fun n i hdim hgcd => ?_,
    fun n hdim hgcd hlen hclean hpartial => ?_, fun n hdim hgcd hlen hclean hwhole => ?_⟩
  · exact exec_hillKey_of_singular (commandResult_hillDec s) hdim hgcd
  · obtain ⟨v, -, heval⟩ := hresult hdim hgcd
    exact exec_hillText_of_long heval
  · obtain ⟨v, -, heval⟩ := hresult hdim hgcd
    exact exec_hillText_of_firstBad heval
  · obtain ⟨v, -, heval⟩ := hresult hdim hgcd
    exact exec_of_error (heval.trans ((hillTextEval_of_clean _ hlen hclean).trans (if_pos hpartial)))
  · obtain ⟨v, hv, heval⟩ := hresult hdim hgcd
    have hok := heval.trans ((hillTextEval_of_clean _ hlen hclean).trans (if_neg (not_not.mpr hwhole)))
    have ⟨_, _, _, hn⟩ := hdim
    have hdvd := Nat.dvd_of_mod_eq_zero hwhole
    have hfits : (textLetters upper s).length ≤ 1028 := (textLetters_length_le upper s).trans (by omega)
    have hblocks := blocksWritten_commitOk_mulBlocks
      (w := { text := some (mulBlocks n v.kinv (textLetters upper s)), inverse := some (invWrites n v) }) rfl hdvd hfits
      (fun _ => isUpper_of_mem_textLetters) s
    exact ⟨_, exec_of_ok hok, commitOk_frame _ s, commitOk_keepsSquare rfl s,
      keepsBytesOutsideTextOut_commitOk_mulBlocks rfl hdvd hfits s, inverseWritten_commitOk rfl hv hn,
      outputLength_commitOk_mulBlocks rfl hdvd hfits s,
      blocksWritten_congr (fun _ _ hi hj => (toNat_invCell_commitOk rfl hv hn s hi hj).symm) hblocks⟩

/-- Settles O33: the key checks of `HILL_DEC`, then the commit of the inverse values alone. -/
theorem hillInvCompletes : Obligations.HillInvCompletes := by
  unfold Obligations.HillInvCompletes
  intro s
  obtain ⟨hsquare, hrange⟩ := hillDim_errors (commandResult_hillInv s)
  refine ⟨hsquare, hrange, fun n hdim hgcd => ?_, fun n hdim hgcd => ?_⟩
  · exact exec_hillKey_of_singular (commandResult_hillInv s) hdim hgcd
  · obtain ⟨v, hv, heval⟩ := exists_hillKeyEval_eq hdim hgcd
    have ⟨_, _, _, hn⟩ := hdim
    obtain ⟨hbytes, houtLen⟩ := commitOk_keepsBytes (w := { inverse := some (invWrites n v) }) rfl s
    exact ⟨_, exec_of_ok ((commandResult_hillInv s).trans (heval _)), commitOk_frame _ s, commitOk_keepsSquare rfl s,
      hbytes, houtLen, inverseWritten_commitOk rfl hv hn⟩

end Sys2Proof
end

section
/-! SUPPORT. The statement of 70_reset_and_hazards.md: a step whose turn is a reset, by either of the two sources, is the
reset of the state that has taken its turn. -/

namespace Sys2Proof

open Machine

/-- The reset input acts at once, whatever is pending (70_reset_and_hazards.md R270). -/
theorem step_of_rst {s : State} (h : nextTurn s = .rst) : step s = .next (resetCcu (popTurn s)) := by
  rw [step_eq, h]

/-- A soft reset acts as the reset input does, whatever is pending (70_reset_and_hazards.md R270; 40_command.md R120). -/
theorem step_of_softReset {s : State} {v : Word} (hv : v[1] = true) (h : nextTurn s = .host (.write 0x004 4 v)) :
    step s = .next (resetCcu (popTurn s)) := by
  rw [step_eq, h]
  simp only [hostAccess_write_ctrl, writeCtrl_of_reset hv]

/-- Settles O2: both sources come to `resetCcu`, which keeps the environment's two fields only. -/
theorem bothResetsRestoreEveryElement : Obligations.BothResetsRestoreEveryElement := by
  unfold Obligations.BothResetsRestoreEveryElement
  intro s
  refine ⟨fun h => ?_, fun v hv h => ?_⟩
  · rw [step_of_rst h, resetCcu_eq]
    exact ⟨_, _, rfl⟩
  · rw [step_of_softReset hv h, resetCcu_eq]
    exact ⟨_, _, rfl⟩

end Sys2Proof
end

section
/-! SUPPORT. The round trip of 42_vigenere.md R154, and what the round trips of the three ciphers share: the text that
the decryption reads is the text that the encryption wrote (`textBytes_eq_outBytes`, `outBytes_commitOk`), all of it
symbols that the normalizer leaves as they are (`textLetters_eq_textBytes`). What is left to each cipher is that its
inverse step undoes the step, on one letter, one digraph or one block. -/

namespace Sys2Proof

open Machine

namespace Machine

/-! ## Passing the output on as the text -/

theorem outBytes_commitOk {w : Writes} {out : List Byte} (hw : w.text = some out) (h : out.length ≤ 1028) (s : State) :
    (commitOk w s).outBytes (commitOk w s).outLen.toNat = out := by
  obtain ⟨hlen, -, -⟩ := commitOk_outputLength hw h s
  rw [hlen]
  refine List.ext_getElem (by simp [State.outBytes]) fun i hi hi' => ?_
  simp only [State.outBytes, List.getElem_map, List.getElem_range]
  rw [commitOk_outByte hw h s (by omega), List.getD_eq_getElem _ _ hi']

theorem textBytes_eq_outBytes {t u : State} (hlen : u.inLen = t.outLen)
    (hbytes : ∀ i, i < t.outLen.toNat → u.textByte i = t.outByte i) :
    u.textBytes u.inLength = t.outBytes t.outLen.toNat := by
  rw [State.inLength, hlen]
  exact List.map_congr_left fun i hi => hbytes i (List.mem_range.mp hi)

theorem textClean_of_letters {u : State} (h : ∀ c ∈ u.textBytes u.inLength, isLetter c = true) : TextClean u := by
  intro i hi
  exact .inl (h _ (List.mem_map_of_mem (List.mem_range.mpr hi)))

/-- Normalization changes no text of letters that `f` leaves as they are. -/
theorem textLetters_eq_textBytes {f : Byte → Byte} {u : State}
    (hletter : ∀ c ∈ u.textBytes u.inLength, isLetter c = true) (hf : ∀ c ∈ u.textBytes u.inLength, f c = c) :
    textLetters f u = u.textBytes u.inLength := by
  rw [textLetters, List.filter_eq_self.mpr hletter]
  exact (List.map_congr_left hf).trans (List.map_id _)

theorem isLetter_of_isUpper {b : Byte} (h : isUpper b = true) : isLetter b = true := by
  simp [isLetter, h]

theorem upper_of_isUpper {b : Byte} (h : isUpper b = true) : upper b = b := by
  revert b; decide

/-! ## Vigenère: one letter (42_vigenere.md R154) -/

theorem isUpper_sym_mod26 (x : ℤ) : isUpper (sym (mod26 x)) = true := by
  have hsym := toNat_sym_mod26 x
  rw [isUpper_iff]
  omega

theorem idx_sym_mod26 (x : ℤ) : idx (sym (mod26 x)) = mod26 x := by
  rw [idx, toNat_sym_mod26, mod26]
  omega

/-- The key's shift there and back leaves a letter folded and any other byte as it is. -/
theorem vigDecByte_vigEncByte (b k : Byte) :
    vigDecByte (vigEncByte b k) k = if isLetter b then upper b else b := by
  by_cases hb : isLetter b = true
  · have hcipher := isUpper_sym_mod26 (idx (upper b) + idx (upper k))
    have hindex := idx_upper hb
    have hlt := letterIndex_lt hb
    have hback : mod26 (mod26 (idx (upper b) + idx (upper k)) - idx (upper k)) = idx (upper b) := by
      simp only [mod26]
      omega
    rw [vigEncByte, if_pos hb, vigDecByte, if_pos (isLetter_of_isUpper hcipher), upper_of_isUpper hcipher,
      idx_sym_mod26, hback, sym_idx, if_pos hb]
  · have hb' : isLetter b = false := by simpa using hb
    rw [vigEncByte_of_not_letter hb', vigDecByte_of_not_letter hb', if_neg hb]

theorem vigKeyGood_of_sameKey {s u : State} (h : VigKeyGood s) (hlen : u.keyLen = s.keyLen)
    (hbytes : ∀ j, j < s.keyLength → u.keyByte j = s.keyByte j) : VigKeyGood u := by
  have hlen' : u.keyLength = s.keyLength := congrArg BitVec.toNat hlen
  obtain ⟨hpos, hle, hletters⟩ := h
  refine ⟨by omega, by omega, fun j hj => ?_⟩
  rw [hbytes j (by omega)]
  exact hletters j (by omega)

end Machine

/-- Settles O38: the decryption reads what the encryption wrote, with the key byte of the same position. -/
theorem vigenereRoundTrip : Obligations.VigenereRoundTrip := by
  unfold Obligations.VigenereRoundTrip
  intro s t u hkey hin henc hklen hkbytes hulen hubytes
  obtain rfl := Host.Outcome.next.inj ((exec_of_vigEval_ok rfl hkey hin).symm.trans henc)
  have hout := commitOk_outputLength (w := { text := some (vigText vigEncByte s) }) rfl (by simp; omega) s
  rw [length_vigText] at hout
  have hlen : u.inLength = s.inLength := (congrArg BitVec.toNat hulen).trans hout.1
  have hkeylen : u.keyLength = s.keyLength := congrArg BitVec.toNat hklen
  have hinle : u.inLength ≤ 1024 := by omega
  refine ⟨_, exec_of_vigEval_ok rfl (vigKeyGood_of_sameKey hkey hklen hkbytes) hinle, rfl, ?_, fun i hi => ?_⟩
  · refine BitVec.eq_of_toNat_eq ?_
    rw [(commitOk_outputLength (w := { text := some (vigText vigDecByte u) }) rfl (by simp; omega) u).1, length_vigText]
    exact hlen
  · have hmod : i % s.keyLength < s.keyLength := Nat.mod_lt i hkey.1
    rw [outByte_commitOk_vigText _ hinle (by omega), hubytes i (by rw [hout.1]; exact hi),
      outByte_commitOk_vigText _ hin hi, hkeylen, hkbytes _ hmod, vigDecByte_vigEncByte]

end Sys2Proof
end

section
/-! SUPPORT. The round trip of 43_playfair.md R179: the image of two cells of a square, mapped the other way, is the
letters of the two cells (`mapDigraph_cellsImage`), and so for every text of digraphs. -/

namespace Sys2Proof

open Machine

namespace Machine

/-! ## Playfair: one digraph (43_playfair.md R179) -/

/-- The image of two cells, decrypted, is the letters of the two cells, by the case of R173 that they are in. -/
theorem mapDigraph_cellsImage (key : List Byte) {ra ca rb cb : Nat} (hra : ra < 5) (hca : ca < 5) (hrb : rb < 5)
    (hcb : cb < 5) :
    mapDigraph (buildSquare key) (-1) (cellsImage (squareCell key) 1 ra ca rb cb).1
        (cellsImage (squareCell key) 1 ra ca rb cb).2 =
      .ok (squareCell key (5 * ra + ca), squareCell key (5 * rb + cb)) := by
  have hmod : ∀ k, (k + 1) % 5 < 5 := fun k => Nat.mod_lt _ (by decide)
  have hback : ∀ k, k < 5 → ((k + 1) % 5 + 4) % 5 = k := fun k hk => by omega
  have hmap := fun {ra ca rb cb} => mapDigraph_cells key (dir := -1) (shift := 4) rfl (ra := ra) (ca := ca) (rb := rb)
    (cb := cb)
  by_cases hrow : ra = rb
  · rw [cellsImage, if_pos hrow, hmap hra (hmod _) hrb (hmod _), cellsImage, if_pos hrow, hback _ hca, hback _ hcb]
  · by_cases hcol : ca = cb
    · have hrow' : ¬(ra + 1) % 5 = (rb + 1) % 5 := by omega
      rw [cellsImage, if_neg hrow, if_pos hcol, hmap (hmod _) hca (hmod _) hcb, cellsImage, if_neg hrow', if_pos hcol,
        hback _ hra, hback _ hrb]
    · rw [cellsImage, if_neg hrow, if_neg hcol, hmap hra hcb hrb hca, cellsImage, if_neg hrow, if_neg (Ne.symm hcol)]

theorem squareCell_mem_a25 (key : List Byte) {row col : Nat} (hrow : row < 5) (hcol : col < 5) :
    squareCell key (5 * row + col) ∈ a25 := by
  have hk : 5 * row + col < (buildSquare key).length := by
    rw [length_buildSquare]
    omega
  rw [squareCell, List.getD_eq_getElem _ _ hk]
  exact mem_buildSquare.mp (List.getElem_mem hk)

theorem cellsImage_mem_a25 (key : List Byte) (shift : Nat) {ra ca rb cb : Nat} (hra : ra < 5) (hca : ca < 5)
    (hrb : rb < 5) (hcb : cb < 5) :
    (cellsImage (squareCell key) shift ra ca rb cb).1 ∈ a25 ∧
      (cellsImage (squareCell key) shift ra ca rb cb).2 ∈ a25 := by
  have hmod : ∀ k, (k + shift) % 5 < 5 := fun k => Nat.mod_lt _ (by decide)
  unfold cellsImage
  split
  case isTrue => exact ⟨squareCell_mem_a25 key hra (hmod _), squareCell_mem_a25 key hrb (hmod _)⟩
  case isFalse =>
    split
    case isTrue => exact ⟨squareCell_mem_a25 key (hmod _) hca, squareCell_mem_a25 key (hmod _) hcb⟩
    case isFalse => exact ⟨squareCell_mem_a25 key hra hcb, squareCell_mem_a25 key hrb hca⟩

/-- Encrypting an even number of symbols of the alphabet gives as many, and decrypting those gives them back. -/
theorem exists_mapDigraphs_roundTrip (key : List Byte) :
    ∀ syms : List Byte, (∀ c ∈ syms, c ∈ a25) → syms.length % 2 = 0 →
      ∃ out, mapDigraphs (buildSquare key) 1 syms = .ok out ∧ out.length = syms.length ∧ (∀ c ∈ out, c ∈ a25) ∧
        mapDigraphs (buildSquare key) (-1) out = .ok syms
  | [], _, _ => ⟨[], rfl, rfl, by simp, rfl⟩
  | [_], _, heven => absurd heven one_ne_zero
  | a :: b :: rest, hmem, heven => by
    simp only [List.forall_mem_cons] at hmem
    obtain ⟨ha, hb, hrest⟩ := hmem
    obtain ⟨ra, ca, hra, hca, rfl⟩ := exists_squareCell key ha
    obtain ⟨rb, cb, hrb, hcb, rfl⟩ := exists_squareCell key hb
    have heven' : rest.length % 2 = 0 := by simpa [add_assoc] using heven
    obtain ⟨out, hout, hlen, hsyms, hback⟩ := exists_mapDigraphs_roundTrip key rest hrest heven'
    have himage := cellsImage_mem_a25 key 1 hra hca hrb hcb
    refine ⟨(cellsImage (squareCell key) 1 ra ca rb cb).1 :: (cellsImage (squareCell key) 1 ra ca rb cb).2 :: out,
      ?_, by simp [hlen], ?_, ?_⟩
    · rw [mapDigraphs, mapDigraph_cells key (dir := 1) (shift := 1) rfl hra hca hrb hcb, ok_bind, hout]
      rfl
    · simpa only [List.forall_mem_cons] using ⟨himage.1, himage.2, hsyms⟩
    · rw [mapDigraphs, mapDigraph_cellsImage key hra hca hrb hcb, ok_bind, hback]
      rfl

theorem isLetter_of_mem_a25 {c : Byte} (h : c ∈ a25) : isLetter c = true := by
  revert c; decide

theorem foldJ_upper_of_mem_a25 {c : Byte} (h : c ∈ a25) : foldJ (upper c) = c := by
  revert c; decide

theorem keyBytes_congr {s u : State} {n : Nat} (h : ∀ j, j < n → u.keyByte j = s.keyByte j) :
    u.keyBytes n = s.keyBytes n :=
  List.map_congr_left fun j hj => h j (List.mem_range.mp hj)

end Machine

/-- Settles O39: what the encryption wrote is symbols of the alphabet in an even number, which the normalizer leaves as
they are, and the square of the same key maps its digraphs back. -/
theorem playfairRoundTrip : Obligations.PlayfairRoundTrip := by
  unfold Obligations.PlayfairRoundTrip
  intro s t u hkey hin hclean henc hklen hkbytes hulen hubytes
  have hpad := length_paddedTo_two (pfLetters s)
  have hle : (pfLetters s).length ≤ s.inLength := textLetters_length_le _ s
  obtain ⟨out, hmap, hlen, hsyms, hback⟩ := exists_mapDigraphs_roundTrip (s.keyBytes s.keyLength) _
    (paddedTo_two_subset (pfLetters_subset s)) (by omega)
  have hfits : (paddedTo 2 (pfLetters s)).length ≤ 1028 := by omega
  have henc' : commandResult .pfEnc s = .ok { text := some out, square := some (squareCells s.keySquare) } := by
    rw [commandResult_pfEnc, pfTextEval_of_clean _ hkey hin hclean, pfEncMap_eq, hmap]
    rfl
  obtain rfl := Host.Outcome.next.inj ((exec_of_ok henc').symm.trans henc)
  have htext : u.textBytes u.inLength = out :=
    (textBytes_eq_outBytes hulen hubytes).trans (outBytes_commitOk rfl (by omega) s)
  have hletters : ∀ c ∈ u.textBytes u.inLength, isLetter c = true := fun c hc =>
    isLetter_of_mem_a25 (hsyms c (htext ▸ hc))
  have hnorm : pfLetters u = out :=
    (textLetters_eq_textBytes hletters fun c hc => foldJ_upper_of_mem_a25 (hsyms c (htext ▸ hc))).trans htext
  have hulen' : u.inLength = out.length := by rw [← htext]; simp [State.textBytes]
  have hkeylen : u.keyLength = s.keyLength := congrArg BitVec.toNat hklen
  have hkeybytes : u.keyBytes u.keyLength = s.keyBytes s.keyLength := by rw [hkeylen, keyBytes_congr hkbytes]
  have hdec : commandResult .pfDec u =
      .ok { text := some (paddedTo 2 (pfLetters s)), square := some (squareCells u.keySquare) } := by
    rw [commandResult_pfDec, pfTextEval_of_clean _ (by omega) (by omega) (textClean_of_letters hletters), hnorm,
      pfDecMap_of_even u (by omega), hkeybytes, hback]
    rfl
  exact ⟨_, exec_of_ok hdec, rfl, outBytes_commitOk rfl hfits u⟩

end Sys2Proof
end

section
/-! SUPPORT. The statements of 44_hill.md R204, R208 and R213. A block product is a row vector times a matrix over the
integers modulo 26 (`cast_blockMul`), and an inverse in the sums of the model is an inverse matrix there
(`zmodMatrix_mul_eq_one_iff`); so it is two-sided, and it undoes the multiplication of a text's blocks. -/

namespace Sys2Proof

open Machine

namespace Machine

/-! ## Matrices modulo 26 (44_hill.md R201, R214) -/

/-- The `n × n` block of a matrix of the model, modulo 26. -/
def zmodMatrix (n : Nat) (a : Mat) : Matrix (Fin n) (Fin n) (ZMod 26) :=
  (Int.castRingHom (ZMod 26)).mapMatrix (matrixOf n a)

@[simp] theorem zmodMatrix_apply (n : Nat) (a : Mat) (i j : Fin n) : zmodMatrix n a i j = (a i j : ZMod 26) := rfl

theorem zmodMatrix_congr {n : Nat} {a b : Mat} (h : ∀ i j, i < n → j < n → a i j % 26 = b i j % 26) :
    zmodMatrix n a = zmodMatrix n b := by
  ext i j
  simpa using (ZMod.intCast_eq_intCast_iff _ _ 26).mpr (h i j i.isLt j.isLt)

theorem cast_sum_mul (n : Nat) (a b : Mat) (i j : Fin n) :
    ((∑ l ∈ Finset.range n, a i l * b l j : ℤ) : ZMod 26) = (zmodMatrix n a * zmodMatrix n b) i j := by
  simp [Matrix.mul_apply, ← Fin.sum_univ_eq_sum_range]

/-- The model's "inverse modulo 26" is the inverse matrix over the integers modulo 26 (44_hill.md R208). -/
theorem zmodMatrix_mul_eq_one_iff {n : Nat} {a b : Mat} :
    zmodMatrix n a * zmodMatrix n b = 1 ↔
      ∀ i j, i < n → j < n → (∑ l ∈ Finset.range n, a i l * b l j) % 26 = if i = j then 1 else 0 := by
  have hentry : ∀ i j : Fin n, (zmodMatrix n a * zmodMatrix n b) i j = (1 : Matrix (Fin n) (Fin n) (ZMod 26)) i j ↔
      (∑ l ∈ Finset.range n, a i l * b l j) % 26 = if i = j then 1 else 0 := by
    intro i j
    have hone : (1 : Matrix (Fin n) (Fin n) (ZMod 26)) i j = ((if i = j then 1 else 0 : ℤ) : ZMod 26) := by
      rw [Matrix.one_apply]
      split <;> simp
    have hred : (if i = j then 1 else 0 : ℤ) % 26 = if i = j then 1 else 0 := by split <;> rfl
    rw [← cast_sum_mul, hone, ZMod.intCast_eq_intCast_iff, Int.ModEq, Nat.cast_ofNat, hred]
  constructor
  · intro h i j hi hj
    simpa [Fin.ext_iff] using (hentry ⟨i, hi⟩ ⟨j, hj⟩).mp (by rw [h])
  · intro h
    ext i j
    refine (hentry i j).mpr ?_
    simpa [Fin.ext_iff] using h i j i.isLt j.isLt

/-! ## Blocks modulo 26 (44_hill.md R203) -/

theorem blockMul_range (n : Nat) (p : Nat → ℤ) (a : Mat) (j : Nat) : 0 ≤ blockMul n p a j ∧ blockMul n p a j < 26 :=
  ⟨Int.emod_nonneg _ (by decide), Int.emod_lt_of_pos _ (by decide)⟩

/-- A block product is the row vector times the matrix modulo 26. -/
theorem cast_blockMul (n : Nat) (p : Nat → ℤ) (a : Mat) (j : Fin n) :
    (blockMul n p a j : ZMod 26) = Matrix.vecMul (fun i : Fin n => (p i : ZMod 26)) (zmodMatrix n a) j := by
  have hmod : (blockMul n p a j : ZMod 26) = ((∑ i ∈ Finset.range n, p i * a i j : ℤ) : ZMod 26) := by
    rw [blockMul, sumBelow_eq, ZMod.intCast_eq_intCast_iff]
    exact Int.mod_modEq _ 26
  rw [hmod]
  simp [Matrix.vecMul, dotProduct, ← Fin.sum_univ_eq_sum_range]

/-- Integers in `[0, 26)` are equal where they are equal modulo 26. -/
theorem eq_of_cast_eq {x y : ℤ} (hx : 0 ≤ x ∧ x < 26) (hy : 0 ≤ y ∧ y < 26) (h : (x : ZMod 26) = y) : x = y := by
  have hmod : x % 26 = y % 26 := (ZMod.intCast_eq_intCast_iff x y 26).mp h
  omega

/-- A block times a matrix depends on both modulo 26 only (44_hill.md R203). -/
theorem blockMul_congr {n : Nat} {p r : Nat → ℤ} {a b : Mat} (hp : ∀ i, i < n → p i = r i)
    (hab : zmodMatrix n a = zmodMatrix n b) {j : Nat} (hj : j < n) : blockMul n p a j = blockMul n r b j := by
  have hpr : (fun i : Fin n => (p i : ZMod 26)) = fun i : Fin n => (r i : ZMod 26) :=
    funext fun i => by rw [hp i i.isLt]
  refine eq_of_cast_eq (blockMul_range n p a j) (blockMul_range n r b j) ?_
  have ha := cast_blockMul n p a ⟨j, hj⟩
  rw [hpr, hab, ← cast_blockMul n r b ⟨j, hj⟩] at ha
  exact ha

/-- Multiplication by an inverse matrix gives the block back. -/
theorem blockMul_blockMul {n : Nat} {a b : Mat} (hab : zmodMatrix n a * zmodMatrix n b = 1) {p : Nat → ℤ} {j : Nat}
    (hj : j < n) (hp : 0 ≤ p j ∧ p j < 26) : blockMul n (blockMul n p a) b j = p j := by
  refine eq_of_cast_eq (blockMul_range n _ b j) hp ?_
  have hfirst : (fun i : Fin n => (blockMul n p a i : ZMod 26)) =
      Matrix.vecMul (fun i : Fin n => (p i : ZMod 26)) (zmodMatrix n a) := funext (cast_blockMul n p a)
  have hsecond := cast_blockMul n (blockMul n p a) b ⟨j, hj⟩
  rw [hfirst, Matrix.vecMul_vecMul, hab, Matrix.vecMul_one] at hsecond
  exact hsecond

theorem mulBlocks_congr {n : Nat} {a b : Mat} (hab : zmodMatrix n a = zmodMatrix n b) (t : List Byte) :
    mulBlocks n a t = mulBlocks n b t := by
  have hrow : ∀ q, (List.range n).map (fun j => sym (blockMul n (block n t q) a j)) =
      (List.range n).map (fun j => sym (blockMul n (block n t q) b j)) := fun q =>
    List.map_congr_left fun j hj => by rw [blockMul_congr (fun _ _ => rfl) hab (List.mem_range.mp hj)]
  simp only [mulBlocks, hrow]

/-! ## Hill: whole texts (44_hill.md R213) -/

/-- A block that holds a symbol of a text of whole blocks lies in the text. -/
theorem block_le_length {n k : Nat} {t : List Byte} (h : n ∣ t.length) (hk : k < t.length) :
    n * (k / n) + n ≤ t.length := by
  obtain ⟨m, hm⟩ := h
  have hq : k / n < m := Nat.div_lt_of_lt_mul (hm ▸ hk)
  rw [hm]
  exact Nat.mul_le_mul_left n hq

theorem isUpper_of_mem_mulBlocks {n : Nat} {a : Mat} {t : List Byte} {c : Byte} (h : c ∈ mulBlocks n a t) :
    isUpper c = true := by
  obtain ⟨q, -, hc⟩ := List.mem_flatMap.mp h
  obtain ⟨j, -, rfl⟩ := List.mem_map.mp hc
  exact isUpper_sym_mod26 _

/-- The blocks of a product's blocks are the products. -/
theorem block_mulBlocks {n q i : Nat} {a : Mat} {t : List Byte} (h : n ∣ t.length) (hi : i < n)
    (hlt : n * q + i < t.length) : block n (mulBlocks n a t) q i = blockMul n (block n t q) a i := by
  rw [block, getD_mulBlocks a h hi hlt]
  exact idx_sym_mod26 _

/-- Whole blocks of letters, multiplied by a matrix and by an inverse of it, are the letters again. -/
theorem mulBlocks_mulBlocks {n : Nat} {a b : Mat} (hab : zmodMatrix n a * zmodMatrix n b = 1) {t : List Byte}
    (hdvd : n ∣ t.length) (hupper : ∀ c ∈ t, isUpper c = true) : mulBlocks n b (mulBlocks n a t) = t := by
  have hlen := length_mulBlocks a hdvd
  have hdvd' : n ∣ (mulBlocks n a t).length := by rwa [hlen]
  refine List.ext_getElem (by rw [length_mulBlocks b hdvd', hlen]) fun k hk hk' => ?_
  have hblock := block_le_length hdvd hk'
  have hn : 0 < n := Nat.pos_of_dvd_of_pos hdvd (by omega)
  have hmod := Nat.mod_lt k hn
  have hback : block n t (k / n) (k % n) = idx t[k] := by
    rw [block, Nat.div_add_mod, List.getD_eq_getElem _ _ hk']
  have hrange : 0 ≤ idx t[k] ∧ idx t[k] < 26 := by
    have hup := isUpper_iff.mp (hupper _ (List.getElem_mem hk'))
    unfold idx
    omega
  simp only [mulBlocks_eq b hdvd', List.getElem_map, List.getElem_range]
  rw [blockMul_congr (fun i hi => block_mulBlocks hdvd hi (by omega)) rfl hmod,
    blockMul_blockMul hab hmod (by rwa [hback]), hback, sym_idx]

theorem hillDimIs_congr {s u : State} {n : Nat} (h : HillDimIs s n) (hrows : u.rows = s.rows)
    (hcols : u.cols = s.cols) : HillDimIs u n := by
  rwa [HillDimIs, hrows, hcols]

theorem keyMatrix_congr {s u : State} {r c : Nat} (h : u.matWord r c = s.matWord r c) :
    u.keyMatrix r c = s.keyMatrix r c := by
  rw [State.keyMatrix, h, State.keyMatrix]

theorem keyMat_congr {s u : State} {n : Nat} (h : ∀ i j, i < n → j < n → u.matWord i j = s.matWord i j) :
    keyMat u n = keyMat s n := by
  ext i j
  exact keyMatrix_congr (h i j i.isLt j.isLt)

theorem length_paddedTo_le {s : State} {n : Nat} (hn : 0 < n) (hn' : n ≤ 4) (hin : s.inLength ≤ 1024)
    (f : Byte → Byte) : (paddedTo n (textLetters f s)).length ≤ 1027 := by
  have hle := textLetters_length_le f s
  have hlt := length_paddedTo_lt hn (textLetters f s)
  omega

theorem commandResult_hillEnc_of_clean {s : State} {n : Nat} (hdim : HillDimIs s n) (hin : s.inLength ≤ 1024)
    (hclean : TextClean s) :
    commandResult .hillEnc s = .ok { text := some (mulBlocks n s.keyMatrix (paddedTo n (textLetters upper s))) } := by
  rw [commandResult_hillEnc, hillDim_of_legal hdim, ok_bind, hillTextEval_of_clean _ hin hclean, hillEncWrites]

/-- `HILL_DEC` of a text of whole blocks of upper-case letters, which the normalizer leaves as it is. -/
theorem commandResult_hillDec_of_blocks {u : State} {n : Nat} (hdim : HillDimIs u n)
    (hgcd : Int.gcd (keyMat u n).det 26 = 1) (hin : u.inLength ≤ 1024)
    (hupper : ∀ c ∈ u.textBytes u.inLength, isUpper c = true) (hdvd : n ∣ (u.textBytes u.inLength).length) :
    ∃ v, IsKeyInverse n u.keyMatrix v ∧ commandResult .hillDec u =
      .ok { text := some (mulBlocks n v.kinv (u.textBytes u.inLength)), inverse := some (invWrites n v) } := by
  obtain ⟨v, hv, heval⟩ := exists_hillKeyEval_eq hdim hgcd
  have hletters : ∀ c ∈ u.textBytes u.inLength, isLetter c = true := fun c hc => isLetter_of_isUpper (hupper c hc)
  have hnorm := textLetters_eq_textBytes hletters fun c hc => upper_of_isUpper (hupper c hc)
  refine ⟨v, hv, ?_⟩
  rw [commandResult_hillDec, heval, hillTextEval_of_clean _ hin (textClean_of_letters hletters), hnorm, hillDecWrites,
    if_neg (not_not.mpr (Nat.mod_eq_zero_of_dvd hdvd))]

end Machine

/-- Settles O40: the inverse of the key modulo 26 undoes the multiplication of each block. -/
theorem hillRoundTrip : Obligations.HillRoundTrip := by
  unfold Obligations.HillRoundTrip
  intro s t u n hdim hgcd hin hclean henc hrows hcols hmat houtle hulen hubytes
  have ⟨_, _, hpos, hn⟩ := hdim
  have hdvd := dvd_length_paddedTo hpos (textLetters upper s)
  have hfits := length_paddedTo_le hpos hn hin upper
  have hlen := length_mulBlocks s.keyMatrix hdvd
  obtain rfl := Host.Outcome.next.inj ((exec_of_ok (commandResult_hillEnc_of_clean hdim hin hclean)).symm.trans henc)
  have htext : u.textBytes u.inLength = mulBlocks n s.keyMatrix (paddedTo n (textLetters upper s)) :=
    (textBytes_eq_outBytes hulen hubytes).trans (outBytes_commitOk rfl (by omega) s)
  have hulen' : u.inLength ≤ 1024 := by
    rw [State.inLength, hulen]
    exact houtle
  obtain ⟨v, hv, hdec⟩ := commandResult_hillDec_of_blocks (hillDimIs_congr hdim hrows hcols)
    (by rwa [keyMat_congr hmat]) hulen' (fun c hc => isUpper_of_mem_mulBlocks (htext ▸ hc)) (by rwa [htext, hlen])
  have hinv : zmodMatrix n s.keyMatrix * zmodMatrix n v.kinv = 1 := by
    rw [← zmodMatrix_congr fun i j hi hj => congrArg (· % 26) (keyMatrix_congr (hmat i j hi hj))]
    exact zmodMatrix_mul_eq_one_iff.mpr hv.mul
  rw [htext, mulBlocks_mulBlocks hinv hdvd fun c => isUpper_of_mem_paddedTo fun _ => isUpper_of_mem_textLetters] at hdec
  exact ⟨_, exec_of_ok hdec, rfl, outBytes_commitOk rfl (by omega) u⟩

/-- Settles O41: the expansion is Mathlib's along row 0. -/
theorem cofactorExpansionIsTheDeterminant : Obligations.CofactorExpansionIsTheDeterminant := by
  unfold Obligations.CofactorExpansionIsTheDeterminant
  exact fun n a _ => det_eq_matrixDet n a

/-- Settles O43: an inverse on the right over the integers modulo 26 is one on the left. -/
theorem solverGivesTwoSidedInverse : Obligations.SolverGivesTwoSidedInverse := by
  unfold Obligations.SolverGivesTwoSidedInverse
  intro n k _ _
  refine ⟨hillInverse_of_singular, fun hgcd => ?_⟩
  obtain ⟨v, hv, hinverse⟩ := hillInverse_of_coprime hgcd
  have hleft : zmodMatrix n v.kinv * zmodMatrix n k = 1 :=
    mul_eq_one_comm.mp (zmodMatrix_mul_eq_one_iff.mpr hinverse.mul)
  refine ⟨v, hv, hinverse.det, fun i j hi hj => ?_⟩
  exact ⟨(hinverse.range i j).1, (hinverse.range i j).2, hinverse.mul i j hi hj,
    zmodMatrix_mul_eq_one_iff.mp hleft i j hi hj⟩

end Sys2Proof
end

section
/-! SUPPORT. What a command's result depends on (40_command.md R122): the key, the text and the matrix, each as far as
it is read, and the matrix modulo 26 only (44_hill.md R214). For each of the three, the parts of a command that read it
are equal in two states that agree on it; the commands are made of these parts. -/

namespace Sys2Proof

open Machine

namespace Machine

/-! ## The commands by what they read and write (30_encoding.md R93) -/

/-- The commands that read `KEY`. -/
abbrev keyCommands : List Instr := [.vigEnc, .vigDec, .pfBuild, .pfEnc, .pfDec]

/-- The commands that read `TEXT_IN` and write `TEXT_OUT`. -/
abbrev textCommands : List Instr := [.vigEnc, .vigDec, .pfEnc, .pfDec, .hillEnc, .hillDec]

/-- The commands that read `MAT`. -/
abbrev matrixCommands : List Instr := [.hillEnc, .hillDec, .hillInv]

/-! ## The key (30_encoding.md R93, R94) -/

/-- The two states hold the same key, as far as a command reads it. -/
structure SameKey (s u : State) : Prop where
  keyLen : s.keyLen = u.keyLen
  bytes : ∀ j, j < 256 → j < s.keyLength → s.keyByte j = u.keyByte j

namespace SameKey

variable {s u : State} (h : SameKey s u)
include h

theorem keyLength : s.keyLength = u.keyLength := congrArg BitVec.toNat h.keyLen

/-- What follows the check of `KEY_LEN` counts only where the key fits its buffer (40_command.md R121). -/
theorem checkKeyLen_bind {α : Type} {f g : Eval α} (hfg : s.keyLength ≤ 256 → f = g) :
    (checkKeyLen s >>= fun _ => f) = (checkKeyLen u >>= fun _ => g) := by
  rw [checkKeyLen_eq, checkKeyLen_eq, ← h.keyLength]
  by_cases hlen : s.keyLength ≤ 256
  · rw [hfg hlen]
  · rw [if_pos (not_le.mp hlen)]
    rfl

theorem keySquare (hlen : s.keyLength ≤ 256) : s.keySquare = u.keySquare := by
  rw [State.keySquare, keyBytes_congr fun j hj => h.bytes j (hj.trans_le hlen) hj, h.keyLength, State.keySquare]

theorem vigKeyCheck (hlen : s.keyLength ≤ 256) : vigKeyCheck s s.keyLength = vigKeyCheck u s.keyLength := by
  have hclass : ∀ j ∈ List.range s.keyLength, (!isLetter (s.keyByte j)) = !isLetter (u.keyByte j) := fun j hj => by
    have hj' := List.mem_range.mp hj
    rw [h.bytes j (hj'.trans_le hlen) hj']
  rw [Machine.vigKeyCheck, List.find?_congr hclass, Machine.vigKeyCheck]

end SameKey

/-! ## The text (30_encoding.md R93, R94) -/

/-- The two states hold the same text, as far as a command reads it. -/
structure SameText (s u : State) : Prop where
  inLen : s.inLen = u.inLen
  bytes : ∀ k, k < 1024 → k < s.inLength → s.textByte k = u.textByte k

namespace SameText

variable {s u : State} (h : SameText s u)
include h

theorem inLength : s.inLength = u.inLength := congrArg BitVec.toNat h.inLen

/-- What follows the check of `IN_LEN` counts only where the text fits its buffer (40_command.md R121). -/
theorem checkInLen_bind {α : Type} {f g : Eval α} (hfg : s.inLength ≤ 1024 → f = g) :
    (checkInLen s >>= fun _ => f) = (checkInLen u >>= fun _ => g) := by
  rw [checkInLen_eq, checkInLen_eq, ← h.inLength]
  by_cases hlen : s.inLength ≤ 1024
  · rw [hfg hlen]
  · rw [if_pos (not_le.mp hlen)]
    rfl

theorem normText (hlen : s.inLength ≤ 1024) (jmap : Bool) : normText jmap s = normText jmap u := by
  have hbytes : s.textBytes s.inLength = u.textBytes s.inLength := List.map_congr_left fun k hk =>
    h.bytes k ((List.mem_range.mp hk).trans_le hlen) (List.mem_range.mp hk)
  rw [Machine.normText, hbytes, h.inLength, Machine.normText]

end SameText

/-- Both Vigenère commands: the text byte and the key byte of each position. -/
theorem vigEval_congr {s u : State} (hkey : SameKey s u) (htext : SameText s u) (f : Byte → Byte → Byte) :
    vigEval f s = vigEval f u := by
  refine hkey.checkKeyLen_bind fun hlen => ?_
  rw [hkey.vigKeyCheck hlen, ← hkey.keyLength]
  refine vigKeyCheck_bind_congr fun hpos => htext.checkInLen_bind fun hin => ?_
  have hbyte : vigText f s = vigText f u := by
    rw [vigText, vigText, ← htext.inLength, ← hkey.keyLength]
    refine List.map_congr_left fun i hi => ?_
    have hi' := List.mem_range.mp hi
    have hmod := Nat.mod_lt i hpos
    rw [htext.bytes i (hi'.trans_le hin) hi', hkey.bytes _ (hmod.trans_le hlen) hmod]
  rw [vigText, vigText, ← hkey.keyLength] at hbyte
  rw [hbyte]

/-! ## The matrix, modulo 26 (44_hill.md R201, R203, R205) -/

/-- The two states hold the same Hill dimension, and key matrices that agree modulo 26 on the block it names. -/
structure SameMatrix (s u : State) : Prop where
  rows : s.rows = u.rows
  cols : s.cols = u.cols
  key : ∀ {n}, HillDimIs s n → zmodMatrix n s.keyMatrix = zmodMatrix n u.keyMatrix

/-- What follows the dimension check counts only where the dimension is legal (44_hill.md R200). -/
theorem SameMatrix.hillDim_bind {α : Type} {s u : State} (h : SameMatrix s u) {f g : Nat → Eval α}
    (hfg : ∀ n, HillDimIs s n → f n = g n) : (hillDim s >>= f) = (hillDim u >>= g) := by
  have hdim : hillDim s = hillDim u := by rw [hillDim_eq, hillDim_eq, h.rows, h.cols]
  rw [← hdim]
  by_cases hbad : s.rows ≠ s.cols ∨ s.rows.toNat = 0 ∨ 4 < s.rows.toNat
  · rw [hillDim_of_illegal hbad]
    rfl
  · push Not at hbad
    obtain ⟨hsquare, hpos, hle⟩ := hbad
    have hlegal : HillDimIs s s.rows.toNat := ⟨rfl, by rw [hsquare], by omega, hle⟩
    rw [hillDim_of_legal hlegal, ok_bind, ok_bind, hfg _ hlegal]

theorem cast_det (n : Nat) (a : Mat) : (det n a : ZMod 26) = (zmodMatrix n a).det := by
  rw [det_eq_matrixDet]
  exact (Int.castRingHom (ZMod 26)).map_det (matrixOf n a)

theorem cast_adj {n : Nat} (a : Mat) (i j : Fin n) : (adj n a i j : ZMod 26) = (zmodMatrix n a).adjugate i j := by
  rw [adj_eq_adjugate, zmodMatrix, ← RingHom.map_adjugate]
  rfl

/-- The reduction modulo 26 of a product is that of its factors' residues. -/
theorem mod26_mul_congr (x : ℤ) {y z : ℤ} (h : (y : ZMod 26) = z) : mod26 (x * y) = mod26 (x * z) :=
  Int.ModEq.mul_left x ((ZMod.intCast_eq_intCast_iff y z 26).mp h)

theorem mod26_det_congr {n : Nat} {a b : Mat} (h : zmodMatrix n a = zmodMatrix n b) :
    mod26 (det n a) = mod26 (det n b) := by
  refine (ZMod.intCast_eq_intCast_iff _ _ 26).mp ?_
  rw [cast_det, h, cast_det]

/-- Two solutions of the solver that give the same results. -/
structure KeyInverse.Agree (n : Nat) (v w : KeyInverse) : Prop where
  d : v.d = w.d
  dinv : v.dinv = w.dinv
  kinv : ∀ i j, i < n → j < n → v.kinv i j = w.kinv i j

/-- The solver sees the key matrix modulo 26 (44_hill.md R205, R208). -/
theorem hillInverse_bind_congr {α : Type} {n : Nat} {a b : Mat} (h : zmodMatrix n a = zmodMatrix n b)
    {f g : KeyInverse → Eval α} (hfg : ∀ v w, v.Agree n w → f v = g w) :
    (hillInverse n a >>= f) = (hillInverse n b >>= g) := by
  simp only [hillInverse, mod26_det_congr h]
  split
  case isTrue => rfl
  case isFalse =>
    refine hfg _ _ ⟨rfl, rfl, fun i j hi hj => mod26_mul_congr _ ?_⟩
    rw [cast_adj a ⟨i, hi⟩ ⟨j, hj⟩, h, ← cast_adj b ⟨i, hi⟩ ⟨j, hj⟩]

theorem invWrites_congr {n : Nat} {v w : KeyInverse} (h : v.Agree n w) : invWrites n v = invWrites n w := by
  have hcell : ∀ k : Fin 16,
      (if k.val / 4 < n ∧ k.val % 4 < n then BitVec.ofInt 5 (v.kinv (k.val / 4) (k.val % 4)) else 0) =
      if k.val / 4 < n ∧ k.val % 4 < n then BitVec.ofInt 5 (w.kinv (k.val / 4) (k.val % 4)) else 0 := fun k =>
    ite_congr rfl (fun hin => by rw [h.kinv _ _ hin.1 hin.2]) fun _ => rfl
  simp only [invWrites, h.d, h.dinv, hcell]

theorem KeyInverse.Agree.mulBlocks {n : Nat} {v w : KeyInverse} (h : v.Agree n w) (t : List Byte) :
    mulBlocks n v.kinv t = mulBlocks n w.kinv t :=
  mulBlocks_congr (zmodMatrix_congr fun i j hi hj => by rw [h.kinv i j hi hj]) t

/-- Every command comes to the same result where the operands it reads agree (30_encoding.md R93). -/
theorem commandResult_congr (i : Instr) {s u : State} (hkey : i ∈ keyCommands → SameKey s u)
    (htext : i ∈ textCommands → SameText s u) (hmatrix : i ∈ matrixCommands → SameMatrix s u) :
    commandResult i s = commandResult i u := by
  cases i with
  | vigEnc => exact vigEval_congr (hkey (by decide)) (htext (by decide)) _
  | vigDec => exact vigEval_congr (hkey (by decide)) (htext (by decide)) _
  | pfBuild =>
    have hkey := hkey (by decide)
    exact hkey.checkKeyLen_bind fun hlen => by rw [hkey.keySquare hlen]
  | pfEnc =>
    have hkey := hkey (by decide)
    have htext := htext (by decide)
    exact hkey.checkKeyLen_bind fun hlen => htext.checkInLen_bind fun hin => by
      rw [hkey.keySquare hlen, htext.normText hin]
  | pfDec =>
    have hkey := hkey (by decide)
    have htext := htext (by decide)
    exact hkey.checkKeyLen_bind fun hlen => htext.checkInLen_bind fun hin => by
      rw [hkey.keySquare hlen, htext.normText hin]
  | hillEnc =>
    have htext := htext (by decide)
    have hmatrix := hmatrix (by decide)
    exact hmatrix.hillDim_bind fun n hdim => htext.checkInLen_bind fun hin => by
      simp only [htext.normText hin, mulBlocks_congr (hmatrix.key hdim)]
  | hillDec =>
    have htext := htext (by decide)
    have hmatrix := hmatrix (by decide)
    exact hmatrix.hillDim_bind fun n hdim => hillInverse_bind_congr (hmatrix.key hdim) fun v w hvw =>
      htext.checkInLen_bind fun hin => by simp only [htext.normText hin, hvw.mulBlocks, invWrites_congr hvw]
  | hillInv =>
    have hmatrix := hmatrix (by decide)
    exact hmatrix.hillDim_bind fun n hdim => hillInverse_bind_congr (hmatrix.key hdim) fun v w hvw => by
      rw [invWrites_congr hvw]

theorem sameResult_of_commandResult_eq {i : Instr} {s u : State} (h : commandResult i s = commandResult i u) :
    SameResult i s u :=
  ⟨commandResult i s, exec_eq i s, by rw [exec_eq, h]⟩

end Machine

/-! ## The statements -/

/-- Settles O44: the key and the text are the same, and the matrices agree on every block. -/
theorem hillReadsTheMatrixModulo26 : Obligations.HillReadsTheMatrixModulo26 := by
  unfold Obligations.HillReadsTheMatrixModulo26
  intro i s m hm
  refine sameResult_of_commandResult_eq (commandResult_congr i (fun _ => ⟨rfl, fun _ _ _ => rfl⟩)
    (fun _ => ⟨rfl, fun _ _ _ => rfl⟩) fun _ => ⟨rfl, rfl, fun {n} hdim => ?_⟩)
  have ⟨_, _, _, hn⟩ := hdim
  exact zmodMatrix_congr fun r c hr hc => (hm r c (by omega) (by omega)).symm

/-- Settles O55: the operands that agree are those that the parts of the command read. -/
theorem resultsDependOnOperandsOnly : Obligations.ResultsDependOnOperandsOnly := by
  unfold Obligations.ResultsDependOnOperandsOnly
  intro i s u h
  have hmatrix : (s.rows = u.rows ∧ s.cols = u.cols ∧ ∀ r c, r < 4 → c < 4 → r < s.rows.toNat → c < s.rows.toNat →
      s.matWord r c = u.matWord r c) → SameMatrix s u := by
    rintro ⟨hrows, hcols, hwords⟩
    refine ⟨hrows, hcols, fun {n} hdim => zmodMatrix_congr fun r c hr hc => ?_⟩
    obtain ⟨hn, -, -, hle⟩ := hdim
    rw [keyMatrix_congr (hwords r c (by omega) (by omega) (by omega) (by omega))]
  refine sameResult_of_commandResult_eq ?_
  cases i with
  | pfBuild =>
    obtain ⟨hkeyLen, hkey⟩ := h
    exact commandResult_congr _ (fun _ => ⟨hkeyLen, hkey⟩) (by simp) (by simp)
  | hillInv => exact commandResult_congr _ (by simp) (by simp) fun _ => hmatrix h
  | hillEnc | hillDec =>
    obtain ⟨hkey, hinLen, htext⟩ := h
    exact commandResult_congr _ (by simp) (fun _ => ⟨hinLen, htext⟩) fun _ => hmatrix hkey
  | vigEnc | vigDec | pfEnc | pfDec =>
    obtain ⟨⟨hkeyLen, hkey⟩, hinLen, htext⟩ := h
    exact commandResult_congr _ (fun _ => ⟨hkeyLen, hkey⟩) (fun _ => ⟨hinLen, htext⟩) (by simp)

end Sys2Proof
end

section
/-! SUPPORT. The statements of 43_playfair.md R171, R177 and R178 on the square of a key: appending first occurrences
keeps the order of first occurrence (`pairwise_idxOf_foldl_appendNew`), and appending a list without repetition appends
what is not there yet (`foldl_appendNew_of_nodup`). -/

namespace Sys2Proof

open Machine

namespace Machine

/-- The distinct letters of a key, in order of first occurrence (43_playfair.md R171). -/
def distinctKeyLetters (key : List Byte) : List Byte := (pfKeyLetters key).foldl appendNew []

theorem mem_distinctKeyLetters {key : List Byte} {c : Byte} : c ∈ distinctKeyLetters key ↔ c ∈ pfKeyLetters key := by
  simp [distinctKeyLetters, mem_foldl_appendNew]

theorem pairwise_idxOf_foldl_appendNew (l : List Byte) :
    (l.foldl appendNew []).Pairwise fun a b => l.idxOf a < l.idxOf b := by
  induction l using List.reverseRecOn with
  | nil => exact .nil
  | append_singleton l c ih =>
    have hmem : ∀ a ∈ l.foldl appendNew [], a ∈ l := fun a ha => by simpa using (mem_foldl_appendNew l []).mp ha
    have hidx : ∀ a ∈ l.foldl appendNew [], (l ++ [c]).idxOf a = l.idxOf a := fun a ha =>
      List.idxOf_append_of_mem (hmem a ha)
    have hold : (l.foldl appendNew []).Pairwise fun a b => (l ++ [c]).idxOf a < (l ++ [c]).idxOf b :=
      ih.imp_of_mem fun ha hb hab => by rwa [hidx _ ha, hidx _ hb]
    rw [List.foldl_append, List.foldl_cons, List.foldl_nil]
    by_cases hc : c ∈ l.foldl appendNew []
    · rwa [appendNew_of_mem hc]
    · have hcl : c ∉ l := fun h => hc ((mem_foldl_appendNew l []).mpr (.inr h))
      rw [appendNew_of_not_mem hc, List.pairwise_append]
      refine ⟨hold, List.pairwise_singleton _ _, fun a ha b hb => ?_⟩
      rw [List.mem_singleton.mp hb, hidx a ha, List.idxOf_append_of_notMem hcl]
      exact Nat.lt_add_right _ (List.idxOf_lt_length_iff.mpr (hmem a ha))

theorem foldl_appendNew_of_nodup {l : List Byte} (hl : l.Nodup) (seq : List Byte) :
    l.foldl appendNew seq = seq ++ l.filter fun c => decide (c ∉ seq) := by
  induction l generalizing seq with
  | nil => simp
  | cons c l ih =>
    obtain ⟨hc, hl⟩ := List.nodup_cons.mp hl
    rw [List.foldl_cons, ih hl]
    by_cases hseq : c ∈ seq
    · simp [appendNew_of_mem hseq, hseq]
    · have hfilter : l.filter (fun x => decide (x ∉ seq ++ [c])) = l.filter fun x => decide (x ∉ seq) :=
        List.filter_congr fun x hx => by
          have hxc : x ≠ c := fun h => hc (h ▸ hx)
          simp [hxc]
      rw [appendNew_of_not_mem hseq, hfilter]
      simp [hseq]

theorem buildSquare_eq (key : List Byte) :
    buildSquare key =
      distinctKeyLetters key ++ a25.filter fun c => decide (c ∉ distinctKeyLetters key) := by
  rw [buildSquare, List.foldl_append]
  exact foldl_appendNew_of_nodup (by decide) _

/-- A doubled letter is in one row with itself, so it moves along that row (43_playfair.md R177). -/
theorem mapDigraph_doubled (key : List Byte) {dir : ℤ} {shift : Nat} (hdir : dir % 5 = shift % 5) {row col : Nat}
    (hrow : row < 5) (hcol : col < 5) :
    mapDigraph (buildSquare key) dir (squareCell key (5 * row + col)) (squareCell key (5 * row + col)) =
      .ok (squareCell key (5 * row + (col + shift) % 5), squareCell key (5 * row + (col + shift) % 5)) := by
  rw [mapDigraph_cells key hdir hrow hcol hrow hcol, cellsImage, if_pos rfl]

end Machine

/-- Settles O35: the distinct key letters come first, and the alphabet repeats no letter. -/
theorem squareHoldsEachLetterOnce : Obligations.SquareHoldsEachLetterOnce := by
  unfold Obligations.SquareHoldsEachLetterOnce
  exact fun key => ⟨distinctKeyLetters key, buildSquare_eq key, fun _ => mem_distinctKeyLetters,
    pairwise_idxOf_foldl_appendNew _, length_buildSquare key, nodup_buildSquare key, fun _ => mem_buildSquare⟩

/-- Settles O36: one cell to the right, and one to the left, which is four to the right. -/
theorem doubledLettersStayDoubled : Obligations.DoubledLettersStayDoubled := by
  unfold Obligations.DoubledLettersStayDoubled
  exact fun key row col hrow hcol =>
    ⟨mapDigraph_doubled key (dir := 1) (shift := 1) rfl hrow hcol,
      mapDigraph_doubled key (dir := -1) (shift := 4) rfl hrow hcol⟩

end Sys2Proof
end

section
/-! SUPPORT. What every command's result is made of (30_encoding.md R93; 60_exceptions.md R241), said once for the eight
commands (`commandResult_meets`): an error other than InvalidState, or writes of the command's own groups within their
ranges. The frame of a command, the results that a step may change and the invariant of 10_state.md are read off it. -/

namespace Sys2Proof

open Machine

namespace Machine

/-! ## Evaluations and what they meet -/

/-- The evaluation ends in a value with property `P`, or in an error other than InvalidState (43_playfair.md R180). -/
def Meets {α : Type} (x : Eval α) (P : α → Prop) : Prop :=
  match x with
  | .ok a => P a
  | .error e => e.kind ≠ .invalidState

@[simp] theorem meets_ok {α : Type} {a : α} {P : α → Prop} : Meets (.ok a) P ↔ P a := .rfl

@[simp] theorem meets_error {α : Type} {e : CmdError} {P : α → Prop} :
    Meets (.error e) P ↔ e.kind ≠ .invalidState := .rfl

@[simp] theorem meets_raise {α : Type} {kind : ErrorKind} {pos : Option Nat} {P : α → Prop} :
    Meets (raise kind pos : Eval α) P ↔ kind ≠ .invalidState := .rfl

/-- Evaluations one after the other: what the first meets, the second may use. -/
theorem Meets.bind {α β : Type} {x : Eval α} {f : α → Eval β} {P : α → Prop} {Q : β → Prop} (hx : Meets x P)
    (hf : ∀ a, P a → Meets (f a) Q) : Meets (x >>= f) Q := by
  cases x with
  | ok a => exact hf a hx
  | error e => exact hx

theorem Meets.mono {α : Type} {x : Eval α} {P Q : α → Prop} (hx : Meets x P) (h : ∀ a, P a → Q a) : Meets x Q := by
  cases x with
  | ok a => exact h a hx
  | error e => exact hx

/-! ## The parts of the commands -/

theorem checkKeyLen_meets (s : State) : Meets (checkKeyLen s) fun _ => True := by
  rw [checkKeyLen_eq]
  split <;> simp

theorem checkInLen_meets (s : State) : Meets (checkInLen s) fun _ => s.inLength ≤ 1024 := by
  rw [checkInLen_eq]
  split
  case isTrue => simp
  case isFalse h => exact not_lt.mp h

theorem vigKeyCheck_meets (s : State) (n : Nat) : Meets (vigKeyCheck s n) fun _ => True := by
  unfold vigKeyCheck
  split
  case isTrue => simp
  case isFalse => split <;> simp

theorem normText_meets (jmap : Bool) (s : State) :
    Meets (normText jmap s) fun t => t = textLetters (foldSymbol jmap) s := by
  rw [normText, normTextFrom_eq]
  split
  · simp
  · rfl

/-- Mapping an even number of symbols of the alphabet never fails (43_playfair.md R180). -/
theorem mapDigraphs_meets (key : List Byte) {dir : ℤ} {shift : Nat} (hdir : dir % 5 = shift % 5) {syms : List Byte}
    (hmem : ∀ c ∈ syms, c ∈ a25) (heven : syms.length % 2 = 0) :
    Meets (mapDigraphs (buildSquare key) dir syms) fun out => out.length = syms.length := by
  obtain ⟨out, hout, himages⟩ := exists_mapDigraphs key hdir syms hmem heven
  rw [hout]
  exact himages.length

theorem hillDim_meets (s : State) : Meets (hillDim s) fun n => HillDimIs s n := by
  rw [hillDim_eq]
  split
  case isTrue => simp
  case isFalse hsquare =>
    split
    case isTrue => simp
    case isFalse hrange => exact ⟨rfl, (not_not.mp hsquare).symm, by omega, by omega⟩

theorem hillInverse_meets (n : Nat) (k : Mat) : Meets (hillInverse n k) fun v => IsKeyInverse n k v := by
  by_cases h : Int.gcd (matrixOf n k).det 26 = 1
  · obtain ⟨v, hv, hinverse⟩ := hillInverse_of_coprime h
    rwa [hv]
  · rw [hillInverse_of_singular h]
    simp

/-! ## The groups of a result (30_encoding.md R93) -/

/-- Inverse values in their ranges (10_state.md R41, R42, R44). -/
structure InverseLegal (v : InverseWrites) : Prop where
  det : v.det.toNat < 26
  dinv : v.dinv.toNat < 26
  inv : ∀ c ∈ v.inv.toList, c.toNat < 26

/-- The commands that write `SQ` (30_encoding.md R93). -/
abbrev squareCommands : List Instr := [.pfBuild, .pfEnc, .pfDec]

/-- The commands that write `HILL_DET`, `HILL_DINV` and `INV` (30_encoding.md R93). -/
abbrev inverseCommands : List Instr := [.hillDec, .hillInv]

/-- The writes are of the groups that command `i` may write, each legal. -/
structure WritesOf (i : Instr) (w : Writes) : Prop where
  text : ∀ out, w.text = some out → i ∈ textCommands ∧ out.length ≤ 1028
  square : ∀ cells, w.square = some cells → i ∈ squareCommands ∧ ∃ key, cells.toList = buildSquare key
  inverse : ∀ v, w.inverse = some v → i ∈ inverseCommands ∧ InverseLegal v

theorem keySquare_eq_buildSquare (s : State) : ∃ key, (squareCells s.keySquare).toList = buildSquare key :=
  ⟨_, toList_squareCells_buildSquare _⟩

theorem invWrites_legal {n : Nat} {k : Mat} {v : KeyInverse} (h : IsKeyInverse n k v) :
    InverseLegal (invWrites n v) := by
  have hofInt : ∀ x : ℤ, 0 ≤ x ∧ x < 26 → (BitVec.ofInt 5 x).toNat < 26 := fun x hx => by
    have := toNat_ofInt_five hx
    omega
  obtain ⟨hpos, hlt, -⟩ := h.dinv
  refine ⟨hofInt _ (by rw [h.det]; omega), hofInt _ ⟨by omega, hlt⟩, fun c hc => ?_⟩
  obtain ⟨k, rfl⟩ := Vector.mem_ofFn.mp (Vector.mem_toList_iff.mp hc)
  split
  case isTrue => exact hofInt _ (h.range _ _)
  case isFalse => decide

theorem length_mulBlocks_le (n : Nat) (a : Mat) (t : List Byte) : (mulBlocks n a t).length ≤ t.length := by
  rw [mulBlocks, flatMap_range_map_range, List.length_map, List.length_range]
  exact Nat.div_mul_le_self _ _

theorem forall_some_eq {α : Type} {a : α} {P : α → Prop} (h : P a) : ∀ b, some a = some b → P b := by
  rintro _ ⟨⟩
  exact h

theorem vigEval_meets {i : Instr} (hi : i ∈ textCommands) (f : Byte → Byte → Byte) (s : State) :
    Meets (vigEval f s) (WritesOf i) := by
  refine (checkKeyLen_meets s).bind fun _ _ => (vigKeyCheck_meets s _).bind fun _ _ =>
    (checkInLen_meets s).bind fun _ hin => ⟨forall_some_eq ⟨hi, ?_⟩, nofun, nofun⟩
  rw [List.length_map, List.length_range]
  omega

/-- The writes of `PF_ENC` and `PF_DEC`, past their checks. -/
theorem pfTextEval_meets {i : Instr} (htext : i ∈ textCommands) (hsquare : i ∈ squareCommands)
    {f : List Byte → Eval (List Byte)} {s : State}
    (hf : Meets (f (pfLetters s)) fun out => out.length ≤ s.inLength + 1) :
    Meets (pfTextEval f s) (WritesOf i) := by
  refine (checkKeyLen_meets s).bind fun _ _ => (checkInLen_meets s).bind fun _ hin => (normText_meets true s).bind ?_
  rintro _ rfl
  exact hf.bind fun out hout =>
    ⟨forall_some_eq ⟨htext, by omega⟩, forall_some_eq ⟨hsquare, keySquare_eq_buildSquare s⟩, nofun⟩

theorem pfEncMap_meets (s : State) : Meets (pfEncMap s (pfLetters s)) fun out => out.length ≤ s.inLength + 1 := by
  have hlen := length_paddedTo_two (pfLetters s)
  have hle : (pfLetters s).length ≤ s.inLength := textLetters_length_le _ s
  rw [pfEncMap_eq]
  exact (mapDigraphs_meets _ (dir := 1) (shift := 1) rfl (paddedTo_two_subset (pfLetters_subset s)) (by omega)).mono
    fun out hout => by omega

theorem pfDecMap_meets (s : State) : Meets (pfDecMap s (pfLetters s)) fun out => out.length ≤ s.inLength + 1 := by
  have hle : (pfLetters s).length ≤ s.inLength := textLetters_length_le _ s
  rcases Nat.mod_two_eq_zero_or_one (pfLetters s).length with heven | hodd
  · rw [pfDecMap_of_even s heven]
    exact (mapDigraphs_meets _ (dir := -1) (shift := 4) rfl (pfLetters_subset s) heven).mono fun out hout => by omega
  · rw [pfDecMap_of_odd s hodd]
    simp

theorem pfBuildEval_meets (s : State) : Meets (pfBuildEval s) (WritesOf .pfBuild) := by
  exact (checkKeyLen_meets s).bind fun _ _ =>
    ⟨nofun, forall_some_eq ⟨by decide, keySquare_eq_buildSquare s⟩, nofun⟩

theorem hillTextEval_meets {f : List Byte → Eval Writes} {P : Writes → Prop} {s : State}
    (hf : s.inLength ≤ 1024 → Meets (f (textLetters upper s)) P) : Meets (hillTextEval f s) P := by
  refine (checkInLen_meets s).bind fun _ hin => (normText_meets false s).bind ?_
  rintro _ rfl
  exact hf hin

theorem hillEncEval_meets (s : State) : Meets (commandResult .hillEnc s) (WritesOf .hillEnc) := by
  rw [commandResult_hillEnc]
  refine (hillDim_meets s).bind fun n ⟨_, _, hpos, hle⟩ => hillTextEval_meets fun hin =>
    ⟨forall_some_eq ⟨by decide, ?_⟩, nofun, nofun⟩
  have hblocks := length_mulBlocks_le n s.keyMatrix (paddedTo n (textLetters upper s))
  have hpadded := length_paddedTo_le hpos hle hin upper
  omega

theorem hillDecEval_meets (s : State) : Meets (commandResult .hillDec s) (WritesOf .hillDec) := by
  rw [commandResult_hillDec]
  refine (hillDim_meets s).bind fun n _ => (hillInverse_meets n _).bind fun v hv => hillTextEval_meets fun hin => ?_
  unfold hillDecWrites
  split
  case isTrue => simp
  case isFalse =>
    refine ⟨forall_some_eq ⟨by decide, ?_⟩, nofun, forall_some_eq ⟨by decide, invWrites_legal hv⟩⟩
    have hblocks := length_mulBlocks_le n v.kinv (textLetters upper s)
    have hletters := textLetters_length_le upper s
    omega

theorem hillInvEval_meets (s : State) : Meets (hillInvEval s) (WritesOf .hillInv) := by
  exact (hillDim_meets s).bind fun n _ => (hillInverse_meets n _).bind fun v hv =>
    ⟨nofun, nofun, forall_some_eq ⟨by decide, invWrites_legal hv⟩⟩

/-- Every command ends in an error other than InvalidState, or in legal writes of its own groups. -/
theorem commandResult_meets (i : Instr) (s : State) : Meets (commandResult i s) (WritesOf i) := by
  cases i with
  | vigEnc => exact vigEval_meets (by decide) _ s
  | vigDec => exact vigEval_meets (by decide) _ s
  | pfBuild => exact pfBuildEval_meets s
  | pfEnc => exact pfTextEval_meets (by decide) (by decide) (pfEncMap_meets s)
  | pfDec =>
    rw [commandResult_pfDec]
    exact pfTextEval_meets (by decide) (by decide) (pfDecMap_meets s)
  | hillEnc => exact hillEncEval_meets s
  | hillDec => exact hillDecEval_meets s
  | hillInv => exact hillInvEval_meets s

/-- Every completion of a command is an error commit of a code other than InvalidState's, or the commit of legal writes
of the command's own groups. -/
theorem commit_cases (i : Instr) (s : State) :
    (∃ e, e.kind ≠ .invalidState ∧ commit (commandResult i s) s = errorEntry e s) ∨
    ∃ w, WritesOf i w ∧ commit (commandResult i s) s = commitOk w s := by
  have h := commandResult_meets i s
  cases hr : commandResult i s with
  | ok w => exact .inr ⟨w, by rwa [hr, meets_ok] at h, rfl⟩
  | error e => exact .inl ⟨e, by rwa [hr, meets_error] at h, rfl⟩

theorem code_ne_four {kind : ErrorKind} (h : kind ≠ .invalidState) : kind.code ≠ 4 := by
  revert h
  cases kind <;> decide

theorem WritesOf.keepsBytesOutsideTextOut {i : Instr} {w : Writes} (h : WritesOf i w) (s : State) :
    KeepsBytesOutsideTextOut s (commitOk w s) :=
  commitOk_keepsBytesOutside (fun out hout => (h.text out hout).2) s

end Machine

/-- Settles O34: both commits keep the operands and the control fields, and write bytes of `TEXT_OUT` only. -/
theorem commandsKeepOperandsAndControl : Obligations.CommandsKeepOperandsAndControl := by
  unfold Obligations.CommandsKeepOperandsAndControl
  intro i s
  refine ⟨_, exec_eq i s, ?_⟩
  rcases commit_cases i s with ⟨e, -, h⟩ | ⟨w, hw, h⟩
  · rw [h]
    exact ⟨rfl, rfl, ⟨rfl, rfl, rfl, rfl, rfl, rfl⟩, ⟨rfl, rfl, rfl, rfl, rfl⟩, ⟨rfl, rfl⟩, fun _ _ => rfl⟩
  · rw [h]
    exact ⟨rfl, rfl, ⟨rfl, rfl, rfl, rfl, rfl, rfl⟩, ⟨rfl, rfl, rfl, rfl, rfl⟩, ⟨rfl, rfl⟩,
      hw.keepsBytesOutsideTextOut s⟩

/-- Settles O37: a success leaves `ERR`, and no error of a command is InvalidState. -/
theorem invalidStateIsNeverRaised : Obligations.InvalidStateIsNeverRaised := by
  unfold Obligations.InvalidStateIsNeverRaised
  intro i s t h herr hserr
  obtain rfl := exec_next h
  rcases commit_cases i s with ⟨⟨kind, pos⟩, hkind, h⟩ | ⟨w, -, h⟩
  · rw [h, errorEntry_eq]
    exact code_ne_four hkind
  · rw [h, commitOk_err, hserr] at herr
    cases herr

end Sys2Proof
end

section
/-! SUPPORT. The invariant of 10_state.md holds after reset and is kept by every step: by every kind of host access
(`Inv.hostAccess`) and by both commits, whose values are in range (`Inv.errorEntry`, `Inv.commitOk`). -/

namespace Sys2Proof

open Machine

/-- Settles O53, by the reset values. -/
theorem resetMeetsTheInvariant : Obligations.ResetMeetsTheInvariant := by
  unfold Obligations.ResetMeetsTheInvariant
  refine ⟨Memory.wf_nil, by simp, ⟨by simp, by simp⟩, fun _ => ⟨rfl, rfl, rfl⟩, rfl,
    ⟨by simp, by simp, by simp, ?_⟩, .inl rfl⟩
  intro v hv
  rw [reset_inv, Vector.toList_replicate] at hv
  rw [List.eq_of_mem_replicate hv]
  decide

namespace Inv

variable {s t : State}

/-- The invariant does not speak of the control fields, the sticky flags, the operands but for their bytes, or the
environment. -/
theorem of_rest (h : Inv s) (hrest : t = { s with
    ie := t.ie
    keyMin := t.keyMin
    werr := t.werr
    aerr := t.aerr
    inLen := t.inLen
    keyLen := t.keyLen
    rows := t.rows
    cols := t.cols
    mat := t.mat
    rdata := t.rdata
    turns := t.turns }) : Inv t := by
  obtain ⟨hcanonical, hbuffers, hreport, hpending, hpend, hresults, hsquare⟩ := h
  rw [hrest]
  exact ⟨hcanonical, hbuffers, hreport, hpending, hpend, hresults, hsquare⟩

theorem popTurn (h : Inv s) : Inv (popTurn s) := h.of_rest rfl

theorem resetCcu (s : State) : Inv (resetCcu s) := of_rest resetMeetsTheInvariant rfl

theorem operandStore (h : Inv s) (hstore : OperandStore s t) : Inv t := by
  obtain ⟨hcanonical, hbuffers, hreport, hpending, hpend, hresults, hsquare⟩ := h
  have hcanonical' := hstore.wf hcanonical
  have hbuffers' := hstore.inBuffers hbuffers
  rw [hstore.rest]
  exact ⟨hcanonical', hbuffers', hreport, hpending, hpend, hresults, hsquare⟩

/-- Acceptance clears the report and latches one word twice (40_command.md R110). -/
theorem accept (h : Inv s) (v : Word) : Inv (accept v s) :=
  ⟨h.memCanonical, h.memInBuffers, ⟨by simp, by simp⟩, fun _ => ⟨rfl, rfl, rfl⟩, rfl, h.results, h.square⟩

/-- A write to `STATUS` clears `ERR` and `ERRCODE` together (10_state.md R30). -/
theorem writeStatus (h : Inv s) (v : Word) : Inv (writeStatus v s) := by
  obtain ⟨hcanonical, hbuffers, hreport, hpending, hpend, hresults, hsquare⟩ := h
  rw [writeStatus_eq]
  refine ⟨hcanonical, hbuffers, ?_, fun hb => ?_, hpend, hresults, hsquare⟩
  · cases hv : v[2] with
    | true => exact ⟨by simp, by simp⟩
    | false => simpa [errorReportLegal] using hreport
  · obtain ⟨hdone, herr, herrpos⟩ := hpending hb
    exact ⟨by simp [hdone], by simp [herr], herrpos⟩

theorem hostAccess (h : Inv s) (a : Access) : Inv (hostAccess a s) := by
  rcases hostAccess_cases a s with ⟨-, hs | hs⟩ | ⟨-, -, w, hs⟩ | ⟨off, v, -, -, -, hs⟩ | ⟨v, -, hs⟩ | ⟨v, -, hs⟩ |
    ⟨v, -, -, hs⟩ | ⟨off, v, -, -, -, -, hs⟩ | ⟨off, v, -, -, hs⟩
  · rw [hs]
    exact h.of_rest rfl
  · rw [hs]
    exact h.of_rest rfl
  · rw [hs]
    exact h.of_rest rfl
  · rw [hs]
    exact h.of_rest rfl
  · rw [hs]
    cases hv : v[1] with
    | true =>
      rw [writeCtrl_of_reset hv]
      exact resetCcu s
    | false =>
      rw [writeCtrl_of_no_reset hv]
      exact h.of_rest rfl
  · rw [hs]
    exact h.writeStatus v
  · rw [hs]
    exact h.accept v
  · exact h.operandStore hs
  · rw [hs]
    exact h

theorem errorEntry (h : Inv s) {e : CmdError} (he : e.kind ≠ .invalidState) : Inv (errorEntry e s) := by
  obtain ⟨hcanonical, hbuffers, -, -, hpend, ⟨-, hrange⟩, hsquare⟩ := h
  have hcode : ∀ {kind : ErrorKind}, kind ≠ .invalidState → kind.code ≠ 0 ∧ kind.code ∈ [0#4, 1#4, 2#4, 3#4, 5#4] := by
    rintro (_ | _ | _ | _ | _) hkind
    · decide
    · decide
    · decide
    · exact absurd rfl hkind
    · decide
  obtain ⟨hne, hmem⟩ := hcode he
  exact ⟨hcanonical, hbuffers, ⟨⟨fun _ => hne, fun _ => rfl⟩, hmem⟩, nofun, hpend, ⟨Nat.zero_le _, hrange⟩, hsquare⟩

end Inv

namespace Machine

theorem Memory.inBuffer_writeTextOut {m : Memory} {out : List Byte} (hfits : out.length ≤ 1028)
    (h : ∀ c ∈ m, inBuffer c.1 = true) : ∀ c ∈ Memory.writeTextOut m out, inBuffer c.1 = true := by
  intro c hc
  rcases Memory.mem_writeBytes_offset hc with hout | hold
  · have hsize : Config.nOut = 1028 := rfl
    have hhi : c.1 < textOutBase + Config.nOut := by omega
    simp [inBuffer, hout.1, hhi]
  · exact h c (Memory.mem_clear.mp hold).1

theorem squareLegal_of_buildSquare {cells : Vector Byte 25} {key : List Byte} (h : cells.toList = buildSquare key) :
    squareLegal cells := by
  refine .inr ⟨fun c hc => mem_buildSquare.mp (h ▸ hc), ?_⟩
  rw [h]
  exact nodup_buildSquare key

/-- The result registers after legal writes (10_state.md R38, R41, R42, R44). -/
theorem resultsLegal_commitOk {i : Instr} {w : Writes} {s : State} (h : resultsLegal s) (hw : WritesOf i w) :
    resultsLegal (commitOk w s) := by
  obtain ⟨hout, hdet, hdinv, hinv⟩ := h
  refine ⟨?_, ?_⟩
  · cases htext : w.text with
    | none => simpa [htext] using hout
    | some out => exact (commitOk_outputLength htext (hw.text out htext).2 s).1.trans_le (hw.text out htext).2
  · rw [commitOk_hillDet, commitOk_hillDinv, commitOk_inv]
    cases hinverse : w.inverse with
    | none => exact ⟨hdet, hdinv, hinv⟩
    | some v =>
      have hv := (hw.inverse v hinverse).2
      exact ⟨hv.det, hv.dinv, hv.inv⟩

end Machine

/-- Legal writes keep the invariant: the text buffer, the square and the result registers take legal values. -/
theorem Inv.commitOk {i : Instr} {w : Writes} {s : State} (h : Inv s) (hw : WritesOf i w) : Inv (commitOk w s) := by
  obtain ⟨hcanonical, hbuffers, hreport, -, hpend, hresults, hsquare⟩ := h
  refine ⟨?_, ?_, hreport, nofun, hpend, resultsLegal_commitOk hresults hw, ?_⟩
  · rw [commitOk_mem]
    cases htext : w.text with
    | none => exact hcanonical
    | some out => exact Memory.wf_writeTextOut hcanonical out
  · rw [commitOk_mem]
    cases htext : w.text with
    | none => exact hbuffers
    | some out => exact Memory.inBuffer_writeTextOut (hw.text out htext).2 hbuffers
  · rw [commitOk_sq]
    cases hcells : w.square with
    | none => exact hsquare
    | some cells =>
      obtain ⟨-, key, hkey⟩ := hw.square cells hcells
      exact squareLegal_of_buildSquare hkey

/-- Settles O54, by whose turn it is. -/
theorem everyStepKeepsTheInvariant : Obligations.EveryStepKeepsTheInvariant := by
  unfold Obligations.EveryStepKeepsTheInvariant
  intro s t h hstep
  rcases step_next_cases hstep with ⟨a, -, rfl⟩ | ⟨-, rfl⟩ | ⟨-, -, rfl⟩ | ⟨-, ⟨i, -, rfl⟩ | ⟨e, -, rfl⟩⟩
  · exact h.popTurn.hostAccess a
  · exact Inv.resetCcu _
  · exact h.popTurn
  · rcases commit_cases i (popTurn s) with ⟨e, he, hcommit⟩ | ⟨w, hw, hcommit⟩
    · rw [hcommit]
      exact h.popTurn.errorEntry he
    · rw [hcommit]
      exact h.popTurn.commitOk hw
  · exact h.popTurn.errorEntry (by simp)

end Sys2Proof
end

section
/-! SUPPORT. Steps and runs (40_command.md R112, R113; 20_memory.md R79): what a step is by whose turn it is, the
completion of a pending command along the list of turns, by induction on that list, and which results a step may
change. -/

namespace Sys2Proof

open Machine

namespace Machine

/-! ## Steps by whose turn it is -/

theorem step_of_host {s : State} {a : Access} (h : nextTurn s = .host a) :
    step s = .next (hostAccess a (popTurn s)) := by
  rw [step_eq, h]

theorem step_of_sequencer {s : State} (h : nextTurn s = .sequencer) : step s = sequencerTurn (popTurn s) := by
  rw [step_eq, h]

/-- The sequencer's turn is idle, or a commit. -/
theorem exists_sequencerTurn (s : State) :
    s.busy = false ∧ sequencerTurn s = .next s ∨ ∃ r, sequencerTurn s = .next (commit r s) := by
  rw [sequencerTurn_eq]
  split
  case isTrue =>
    right
    split
    · exact ⟨_, rfl⟩
    · exact ⟨.error ⟨.illegalCommand, none⟩, rfl⟩
  case isFalse hb => exact .inl ⟨by simpa using hb, rfl⟩

theorem exists_step (s : State) : ∃ t, step s = .next t := by
  rw [step_eq]
  split
  · exact ⟨_, rfl⟩
  · exact ⟨_, rfl⟩
  · rcases exists_sequencerTurn (popTurn s) with ⟨-, h⟩ | ⟨r, h⟩
    · exact ⟨_, h⟩
    · exact ⟨_, h⟩

/-- A step takes its turn off the list and no other. -/
theorem step_turns {s t : State} (h : step s = .next t) : t.turns = s.turns.tail := by
  rcases step_next_cases h with ⟨a, -, rfl⟩ | ⟨-, rfl⟩ | ⟨-, -, rfl⟩ | ⟨-, ⟨i, -, rfl⟩ | ⟨e, -, rfl⟩⟩
  · exact hostAccess_turns a _
  · rfl
  · rfl
  · exact commit_turns _ _
  · rfl

/-- With no turn listed the sequencer moves, and nothing is pending after it (40_command.md R113). -/
theorem busy_of_step_of_noTurns {s t : State} (hs : s.turns = []) (h : step s = .next t) : t.busy = false := by
  have hn : nextTurn s = .sequencer := by simp [nextTurn, hs]
  rw [step_of_sequencer hn] at h
  rcases exists_sequencerTurn (popTurn s) with ⟨hb, hstep⟩ | ⟨r, hstep⟩
  · obtain rfl := Host.Outcome.next.inj (hstep.symm.trans h)
    exact hb
  · obtain rfl := Host.Outcome.next.inj (hstep.symm.trans h)
    exact commit_busy r _

/-! ## Runs -/

theorem run_core_succ {s t : State} (h : step s = .next t) (k : Nat) :
    Host.Core.run Sys2Proof.core (k + 1) s = Host.Core.run Sys2Proof.core k t := run_succ (M := Sys2Proof.core) h k

/-- Running one step more than the turns on the list ends with nothing pending. -/
theorem exists_run_idle (ts : List Turn) : ∀ s : State, s.turns = ts →
    ∃ t : State, Host.Core.run Sys2Proof.core (ts.length + 1) s = .next t ∧ t.busy = false ∧ t.turns = [] := by
  induction ts with
  | nil =>
    intro s hs
    obtain ⟨t, ht⟩ := exists_step s
    exact ⟨t, run_core_succ ht 0, busy_of_step_of_noTurns hs ht, (step_turns ht).trans (by rw [hs, List.tail_nil])⟩
  | cons a ts ih =>
    intro s hs
    obtain ⟨t, ht⟩ := exists_step s
    obtain ⟨u, hrun, hu⟩ := ih t ((step_turns ht).trans (by rw [hs, List.tail_cons]))
    exact ⟨u, (run_core_succ ht _).trans hrun, hu⟩

/-- The first completion step of a pending command is step `n` from `s` (40_command.md R112). -/
def CompletesAt (s : State) (n : Nat) : Prop :=
  ∀ k, k ≤ n → ∃ u : State, Host.Core.run Sys2Proof.core k s = .next u ∧ u.busy = true ∧ u.pend = s.pend ∧
    (completesNext u ↔ k = n)

theorem completesAt_zero {s : State} (hb : s.busy = true) (hn : nextTurn s = .sequencer) : CompletesAt s 0 := by
  intro k hk
  obtain rfl := Nat.le_zero.mp hk
  exact ⟨s, rfl, hb, rfl, by simp [completesNext, hn, hb]⟩

/-- A host access that is no reset puts the completion off by one step (40_command.md R118). -/
theorem completesAt_succ {s : State} {a : Access} {n : Nat} (hb : s.busy = true) (hn : nextTurn s = .host a)
    (ha : ¬a.SoftReset) (h : CompletesAt (hostAccess a (popTurn s)) n) : CompletesAt s (n + 1) := by
  have hkeeps : KeepsPending (popTurn s) (hostAccess a (popTurn s)) := .of_hostAccess hb ha
  intro k hk
  cases k with
  | zero => exact ⟨s, rfl, hb, rfl, by simp [completesNext, hn]⟩
  | succ k =>
    obtain ⟨u, hrun, hbusy, hpend, hcompletes⟩ := h k (by omega)
    exact ⟨u, (run_core_succ (step_of_host hn) k).trans hrun, hbusy, hpend.trans hkeeps.pend,
      hcompletes.trans (by omega)⟩

/-- Where no listed turn is a reset, the completion comes within the list and one step more (40_command.md R113). -/
theorem exists_completesAt (ts : List Turn) : ∀ s : State, s.turns = ts → s.busy = true →
    (∀ t ∈ ts, t ≠ .rst ∧ ∀ v : Word, t = .host (.write 0x004 4 v) → v[1] = false) →
    ∃ n, n ≤ ts.length ∧ CompletesAt s n := by
  induction ts with
  | nil => exact fun s hs hb _ => ⟨0, le_rfl, completesAt_zero hb (by simp [nextTurn, hs])⟩
  | cons turn ts ih =>
    intro s hs hb hts
    obtain ⟨⟨hrst, hsoft⟩, hrest⟩ := List.forall_mem_cons.mp hts
    have hn : nextTurn s = turn := by simp [nextTurn, hs]
    cases turn with
    | rst => exact absurd rfl hrst
    | sequencer => exact ⟨0, Nat.zero_le _, completesAt_zero hb hn⟩
    | host a =>
      have ha : ¬a.SoftReset := Access.not_softReset_iff.mpr fun v hv => hsoft v (congrArg Turn.host hv)
      have hkeeps : KeepsPending (popTurn s) (hostAccess a (popTurn s)) := .of_hostAccess hb ha
      obtain ⟨n, hle, h⟩ := ih (hostAccess a (popTurn s)) (by simp [hs]) (hkeeps.busy.trans hb) hrest
      exact ⟨n + 1, Nat.succ_le_succ hle, completesAt_succ hb hn ha h⟩

/-! ## The results that a step may change (10_state.md R38, R41, R42, R44, R45, R48) -/

/-- Every result element that a command may write keeps its value. -/
structure KeepsResults (s t : State) : Prop where
  outLen : t.outLen = s.outLen
  outByte : ∀ i, i < 1028 → t.outByte i = s.outByte i
  sq : t.sq = s.sq
  inverse : KeepsInverse s t

theorem KeepsResults.of_rest {s t : State} (h : t = { t with
    outLen := s.outLen
    hillDet := s.hillDet
    hillDinv := s.hillDinv
    inv := s.inv
    sq := s.sq
    mem := s.mem }) : KeepsResults s t := by
  rw [h]
  exact ⟨rfl, fun _ _ => rfl, rfl, ⟨rfl, rfl, rfl⟩⟩

theorem OperandStore.keepsResults {s t : State} (h : OperandStore s t) : KeepsResults s t := by
  have hbytes : ∀ i, i < 1028 → t.outByte i = s.outByte i := fun i _ => h.bytes (textOutBase + i)
    (by simp only [textOutBase, keyBase, Config.nKey]; omega)
    (by simp only [textOutBase, textInBase, Config.nBuf]; omega)
  exact ⟨by rw [h.rest], hbytes, by rw [h.rest], by rw [h.rest]; exact ⟨rfl, rfl, rfl⟩⟩

/-- No host access but a reset changes a result. -/
theorem hostAccess_keepsResults {a : Access} (ha : ¬a.SoftReset) (s : State) : KeepsResults s (hostAccess a s) := by
  rcases hostAccess_cases a s with ⟨-, h | h⟩ | ⟨-, -, w, h⟩ | ⟨off, v, -, -, -, h⟩ | ⟨v, rfl, h⟩ | ⟨v, -, h⟩ |
    ⟨v, -, -, h⟩ | ⟨off, v, -, -, -, -, h⟩ | ⟨off, v, -, -, h⟩
  · exact .of_rest (by rw [h])
  · exact .of_rest (by rw [h])
  · exact .of_rest (by rw [h])
  · exact .of_rest (by rw [h]; rfl)
  · exact .of_rest (by rw [h, writeCtrl_of_no_reset (Access.not_softReset_iff.mp ha v rfl)])
  · exact .of_rest (by rw [h, writeStatus_eq])
  · exact .of_rest (by rw [h]; rfl)
  · exact h.keepsResults
  · exact .of_rest (by rw [h])

/-- Which results a step changes, and by the commit of which command (30_encoding.md R93). -/
structure ResultsChangeByCommit (s t : State) : Prop where
  outLen : t.outLen ≠ s.outLen → completesNext s
  outByte : (∃ i, i < 1028 ∧ t.outByte i ≠ s.outByte i) → completesNext s ∧ ∃ i ∈ textCommands, decode s.pend = .ok i
  sq : t.sq ≠ s.sq → completesNext s ∧ ∃ i ∈ squareCommands, decode s.pend = .ok i
  inverse : ¬KeepsInverse s t → completesNext s ∧ ∃ i ∈ inverseCommands, decode s.pend = .ok i

theorem KeepsResults.changeByCommit {s t : State} (h : KeepsResults s t) : ResultsChangeByCommit s t :=
  ⟨fun hne => absurd h.outLen hne, fun ⟨i, hi, hne⟩ => absurd (h.outByte i hi) hne, fun hne => absurd h.sq hne,
    fun hne => absurd h.inverse hne⟩

theorem errorEntry_changeByCommit {s : State} (h : completesNext s) (e : CmdError) :
    ResultsChangeByCommit s (errorEntry e (popTurn s)) :=
  ⟨fun _ => h, fun ⟨_, _, hne⟩ => absurd rfl hne, fun hne => absurd rfl hne, fun hne => absurd ⟨rfl, rfl, rfl⟩ hne⟩

theorem commitOk_changeByCommit {s : State} {i : Instr} {w : Writes} (h : completesNext s)
    (hd : decode s.pend = .ok i) (hw : WritesOf i w) : ResultsChangeByCommit s (commitOk w (popTurn s)) := by
  refine ⟨fun _ => h, fun ⟨k, _, hne⟩ => ⟨h, ?_⟩, fun hne => ⟨h, ?_⟩, fun hne => ⟨h, ?_⟩⟩
  · cases htext : w.text with
    | none => exact absurd ((commitOk_keepsBytes htext (popTurn s)).1 (textOutBase + k)) hne
    | some out => exact ⟨i, (hw.text out htext).1, hd⟩
  · cases hcells : w.square with
    | none => exact absurd (commitOk_keepsSquare hcells (popTurn s)) hne
    | some cells => exact ⟨i, (hw.square cells hcells).1, hd⟩
  · cases hinverse : w.inverse with
    | none => exact absurd (commitOk_keepsInverse hinverse (popTurn s)) hne
    | some v => exact ⟨i, (hw.inverse v hinverse).1, hd⟩

/-- A step that is no reset changes results by the commit of a command that writes them only. -/
theorem step_changeByCommit {s t : State} (h : step s = .next t) (hreset : ¬resetsNext s) :
    ResultsChangeByCommit s t := by
  rcases step_next_cases h with ⟨a, hn, rfl⟩ | ⟨hn, -⟩ | ⟨-, -, rfl⟩ | ⟨hc, ⟨i, hd, rfl⟩ | ⟨e, -, rfl⟩⟩
  · rw [resetsNext_iff_of_host hn] at hreset
    have hkeeps := hostAccess_keepsResults hreset (popTurn s)
    exact KeepsResults.changeByCommit ⟨hkeeps.outLen, hkeeps.outByte, hkeeps.sq, hkeeps.inverse⟩
  · exact absurd (.inl hn) hreset
  · exact KeepsResults.changeByCommit (.of_rest rfl)
  · rcases commit_cases i (popTurn s) with ⟨e, -, hcommit⟩ | ⟨w, hw, hcommit⟩
    · rw [hcommit]
      exact errorEntry_changeByCommit hc e
    · rw [hcommit]
      exact commitOk_changeByCommit hc hd hw
  · exact errorEntry_changeByCommit hc _

end Machine

/-! ## The statements -/

/-- Settles O21: the sequencer's turn with the command pending is its `exec`. -/
theorem stepRunsThePendingCommand : Obligations.StepRunsThePendingCommand := by
  unfold Obligations.StepRunsThePendingCommand
  intro s i hb hn hd _
  rw [step_of_sequencer hn, sequencerTurn_eq, popTurn_busy, if_pos hb, popTurn_pend, hd, exec_eq]

/-- Settles O22: a host access, and the sequencer's turn with nothing pending. -/
theorem stepPerformsTheNextTurn : Obligations.StepPerformsTheNextTurn := by
  unfold Obligations.StepPerformsTheNextTurn
  intro s a
  refine ⟨step_of_host, fun hn hb => ?_⟩
  rw [step_of_sequencer hn, sequencerTurn_eq, popTurn_busy, hb]
  rfl

/-- Settles O24, by whose turn it is. -/
theorem noStepStops : Obligations.NoStepStops := by
  unfold Obligations.NoStepStops
  exact exists_step

/-- Settles O25, by induction on the turns listed. -/
theorem nothingIsPendingAfterTheTurns : Obligations.NothingIsPendingAfterTheTurns := by
  unfold Obligations.NothingIsPendingAfterTheTurns
  exact fun s => exists_run_idle s.turns s rfl

/-- Settles O59, by induction on the turns listed. -/
theorem pendingCommandCompletesUnlessReset : Obligations.PendingCommandCompletesUnlessReset := by
  unfold Obligations.PendingCommandCompletesUnlessReset
  exact fun s => exists_completesAt s.turns s rfl

/-- Settles O47, by whose turn it is. -/
theorem resultsChangeOnlyAtTheirCommandsCommit : Obligations.ResultsChangeOnlyAtTheirCommandsCommit := by
  unfold Obligations.ResultsChangeOnlyAtTheirCommandsCommit
  intro s t h hreset
  obtain ⟨houtLen, houtByte, hsq, hinverse⟩ := step_changeByCommit h hreset
  exact ⟨houtLen, houtByte, hsq, hinverse⟩

end Sys2Proof
end

section
/-! SUPPORT. The statements of 30_encoding.md on the decoder: it inverts the encoder, and refuses exactly the words that
the field tables do not allow. -/

namespace Sys2Proof

open Machine

theorem decode_encode (i : Instr) : decode (encode i) = .ok i := by
  cases i <;> decide

theorem decode_eq_ok_iff {w : Word} {i : Instr} : decode w = .ok i ↔ w = encode i := by
  refine ⟨eq_encode_of_decode, ?_⟩
  rintro rfl
  exact decode_encode i

/-- The reserved field is the word without its low byte (30_encoding.md R90). -/
theorem reservedField_eq_zero_iff (w : Word) : w.extractLsb' 8 24 = 0#24 ↔ w.toNat < 256 := by
  have hlt := w.isLt
  rw [← BitVec.toNat_inj, BitVec.extractLsb'_toNat, Nat.shiftRight_eq_div_pow, BitVec.toNat_ofNat]
  omega

theorem decode_eq_reserved_iff (w : Word) : decode w = .error .reservedFieldNotZero ↔ 256 ≤ w.toNat := by
  rw [← not_lt, ← reservedField_eq_zero_iff]
  unfold decode
  split
  case isTrue h => exact ⟨fun _ => h, fun _ => rfl⟩
  case isFalse h => split <;> simp [not_not.mp h]

/-- The words of the opcode map (30_encoding.md R92). -/
abbrev opcodeWords : List Nat := [0x01, 0x02, 0x10, 0x11, 0x12, 0x20, 0x21, 0x22]

theorem toNat_encode_mem (i : Instr) : (encode i).toNat ∈ opcodeWords := by
  cases i <;> decide

theorem exists_encode_of_mem {w : Word} (h : w.toNat ∈ opcodeWords) : ∃ i, w = encode i := by
  have hmap : ∀ n ∈ opcodeWords, ∃ i, n = (encode i).toNat := by
    simp only [List.forall_mem_cons]
    exact ⟨⟨.vigEnc, rfl⟩, ⟨.vigDec, rfl⟩, ⟨.pfBuild, rfl⟩, ⟨.pfEnc, rfl⟩, ⟨.pfDec, rfl⟩, ⟨.hillEnc, rfl⟩,
      ⟨.hillDec, rfl⟩, ⟨.hillInv, rfl⟩, nofun⟩
  obtain ⟨i, hi⟩ := hmap _ h
  exact ⟨i, BitVec.eq_of_toNat_eq hi⟩

theorem exists_decode_ok_iff_mem (w : Word) : (∃ i, decode w = .ok i) ↔ w.toNat ∈ opcodeWords := by
  simp only [decode_eq_ok_iff]
  refine ⟨?_, exists_encode_of_mem⟩
  rintro ⟨i, rfl⟩
  exact toNat_encode_mem i

/-- The field tables allow the words of the opcode map (30_encoding.md R90, R92). -/
theorem legalCommandWord_iff_mem (w : Word) : legalCommandWord w = true ↔ w.toNat ∈ opcodeWords := by
  simp only [legalCommandWord, Bool.and_eq_true, Bool.or_eq_true, beq_iff_eq, opcodeWords, List.mem_cons,
    List.not_mem_nil, or_false]
  omega

/-- A word that is neither accepted nor refused for its reserved field is refused for its opcode. -/
theorem decode_eq_unassigned_iff (w : Word) :
    decode w = .error .unassignedOpcode ↔
      decode w ≠ .error .reservedFieldNotZero ∧ ¬∃ i, decode w = .ok i := by
  cases h : decode w with
  | ok i => simp
  | error e => cases e <;> simp

/-- Settles O18, word by word. -/
theorem writtenOutWordsDecode : Obligations.WrittenOutWordsDecode := by
  unfold Obligations.WrittenOutWordsDecode
  exact ⟨decode_encode .vigEnc, decode_encode .vigDec, decode_encode .pfBuild, decode_encode .pfEnc,
    decode_encode .pfDec, decode_encode .hillEnc, decode_encode .hillDec, decode_encode .hillInv, by decide⟩

/-- Settles O19: the decoder inverts the encoder, and every command is well formed. -/
theorem decodeAndEncodeAgree : Obligations.DecodeAndEncodeAgree := by
  unfold Obligations.DecodeAndEncodeAgree
  intro w i
  have hwf : i.wf = true := by cases i <;> rfl
  rw [decode_eq_ok_iff, hwf, eq_self_iff_true, and_true]

/-- Settles O20: the accepted words are those of the opcode map, and of the others the reserved field decides. -/
theorem illegalWordsAreExactlyTheSpecs : Obligations.IllegalWordsAreExactlyTheSpecs := by
  unfold Obligations.IllegalWordsAreExactlyTheSpecs
  intro w
  refine ⟨decode_eq_reserved_iff w, ?_, (exists_decode_ok_iff_mem w).trans (legalCommandWord_iff_mem w).symm⟩
  rw [decode_eq_unassigned_iff, Ne, decode_eq_reserved_iff, exists_decode_ok_iff_mem, not_le]

end Sys2Proof
end

section
/-! SUPPORT. The register map (20_memory.md R71), both ways, and the registers read and written at their offsets
(10_state.md R36 to R48). -/

namespace Sys2Proof

open Machine

namespace Machine

/-! ## The offset of every register holds that register -/

theorem regAt_mat (i j : Fin 4) : regAt (BitVec.ofNat 12 (0x040 + 16 * i.val + 4 * j.val)) = some (.mat i j) := by
  have hd : (BitVec.ofNat 12 (0x040 + 16 * i.val + 4 * j.val)).toNat / 4 = 0x10 + (4 * i.val + j.val) := by
    rw [BitVec.toNat_ofNat]
    omega
  unfold regAt
  simp only [hd]
  rw [if_neg (by omega), if_pos (by omega)]
  refine congrArg some (congrArg₂ Reg.mat (Fin.ext ?_) (Fin.ext ?_)) <;> simp only [Fin.ofNat] <;> omega

theorem regAt_inv (i j : Fin 4) : regAt (BitVec.ofNat 12 (0x080 + 16 * i.val + 4 * j.val)) = some (.inv i j) := by
  have hd : (BitVec.ofNat 12 (0x080 + 16 * i.val + 4 * j.val)).toNat / 4 = 0x20 + (4 * i.val + j.val) := by
    rw [BitVec.toNat_ofNat]
    omega
  unfold regAt
  simp only [hd]
  iterate 2 rw [if_neg (by omega)]
  rw [if_pos (by omega)]
  refine congrArg some (congrArg₂ Reg.inv (Fin.ext ?_) (Fin.ext ?_)) <;> simp only [Fin.ofNat] <;> omega

theorem regAt_sq (k : Fin 25) : regAt (BitVec.ofNat 12 (0x100 + 4 * k.val)) = some (.sq k) := by
  have hd : (BitVec.ofNat 12 (0x100 + 4 * k.val)).toNat / 4 = 0x40 + k.val := by
    rw [BitVec.toNat_ofNat]
    omega
  unfold regAt
  simp only [hd]
  iterate 4 rw [if_neg (by omega)]
  rw [if_pos (by omega)]
  exact congrArg (fun k => some (Reg.sq k)) (Fin.ext (by simp only [Fin.ofNat]; omega))

theorem regAt_regOffset (r : Reg) : regAt (regOffset r) = some r := by
  cases r with
  | mat i j => exact regAt_mat i j
  | inv i j => exact regAt_inv i j
  | sq k => exact regAt_sq k
  | key w => exact regAt_key w.isLt
  | textIn w => exact regAt_textIn w.isLt
  | textOut w => exact regAt_textOut w.isLt
  | _ => rfl

theorem regOffset_aligned (r : Reg) : (regOffset r).toNat % 4 = 0 := by
  cases r with
  | mat i j | inv i j | sq k | key w | textIn w | textOut w =>
    rw [regOffset, BitVec.toNat_ofNat]
    omega
  | _ => rfl

/-! ## The register at an aligned offset stands at that offset only -/

theorem regOffset_of_regAt {off : Offset} {r : Reg} (h4 : off.toNat % 4 = 0) (h : regAt off = some r) :
    regOffset r = off := by
  have hoff : off = BitVec.ofNat 12 (4 * (off.toNat / 4)) := by
    rw [Nat.mul_div_cancel' (Nat.dvd_of_mod_eq_zero h4), BitVec.ofNat_toNat, BitVec.setWidth_eq]
  rw [hoff]
  unfold regAt at h
  simp only at h
  generalize off.toNat / 4 = w at h
  by_cases h1 : w < 0x10
  · rw [if_pos h1] at h
    split at h <;> cases h <;> rfl
  rw [if_neg h1] at h
  by_cases h2 : w < 0x20
  · rw [if_pos h2] at h
    cases h
    exact congrArg (BitVec.ofNat 12) (by simp only [Fin.ofNat]; omega)
  rw [if_neg h2] at h
  by_cases h3 : w < 0x30
  · rw [if_pos h3] at h
    cases h
    exact congrArg (BitVec.ofNat 12) (by simp only [Fin.ofNat]; omega)
  rw [if_neg h3] at h
  by_cases h4 : w < 0x40
  · rw [if_pos h4] at h
    cases h
  rw [if_neg h4] at h
  by_cases h5 : w < 0x59
  · rw [if_pos h5] at h
    cases h
    exact congrArg (BitVec.ofNat 12) (by simp only [Fin.ofNat]; omega)
  rw [if_neg h5] at h
  by_cases h6 : w < 0x80
  · rw [if_pos h6] at h
    cases h
  rw [if_neg h6] at h
  by_cases h7 : w < 0xC0
  · rw [if_pos h7] at h
    cases h
    exact congrArg (BitVec.ofNat 12) (by simp only [Fin.ofNat]; omega)
  rw [if_neg h7] at h
  by_cases h8 : w < 0x100
  · rw [if_pos h8] at h
    cases h
  rw [if_neg h8] at h
  by_cases h9 : w < 0x200
  · rw [if_pos h9] at h
    cases h
    exact congrArg (BitVec.ofNat 12) (by simp only [Fin.ofNat]; omega)
  rw [if_neg h9] at h
  by_cases h10 : w < 0x301
  · rw [if_pos h10] at h
    cases h
    exact congrArg (BitVec.ofNat 12) (by simp only [Fin.ofNat]; omega)
  rw [if_neg h10] at h
  cases h

theorem regAt_eq_none_iff {off : Offset} (h4 : off.toNat % 4 = 0) : regAt off = none ↔ reservedOffset off.toNat := by
  refine ⟨fun h => ?_, regAt_of_reservedOffset⟩
  rcases offset_classes off h4 with ho | ho | ho | rfl | rfl
  · obtain ⟨r, hr, -⟩ := regAt_of_operandOffset ho
    rw [hr] at h
    cases h
  · obtain ⟨r, hr, -⟩ := regAt_of_readOnlyOffset ho
    rw [hr] at h
    cases h
  · exact ho
  · cases h
  · cases h

/-! ## Buffers and matrix (10_state.md R43, R46, R47) -/

/-- Byte `b` of a word, by its place (20_memory.md R75). -/
theorem getD_wordBytes (v : Word) {b : Nat} (h : b < 4) : (wordBytes v).getD b 0 = v.extractLsb' (8 * b) 8 := by
  interval_cases b <;> rfl

theorem hostAccess_write_key {w : Nat} (h : w < 64) (v : Word) {s : State} (hb : s.busy = false) :
    hostAccess (.write (BitVec.ofNat 12 (keyBase + 4 * w)) 4 v) s =
      { s with mem := Memory.writeWord s.mem (keyBase + 4 * w) v } := by
  rw [hostAccess_write_aligned (by rw [BitVec.toNat_ofNat]; simp only [keyBase]; omega),
    writeAt_of_regAt (regAt_key h), writeReg, writeUnlessBusy_of_idle hb]

/-- A word stored in memory: its four bytes at their places, and every other byte as before. -/
theorem read_writeWord_bytes (m : Memory) (a : Nat) (v : Word) :
    (∀ b, b < 4 → Memory.read (Memory.writeWord m a v) (a + b) = v.extractLsb' (8 * b) 8) ∧
      ∀ c, ¬(a ≤ c ∧ c < a + 4) → Memory.read (Memory.writeWord m a v) c = Memory.read m c := by
  refine ⟨fun b hb => ?_, fun c hc => ?_⟩
  · rw [Memory.read_writeWord, if_pos (by omega), Nat.add_sub_cancel_left, getD_wordBytes v hb]
  · rw [Memory.read_writeWord, if_neg hc]

theorem hostAccess_write_mat (i j : Fin 4) (v : Word) {s : State} (hb : s.busy = false) :
    hostAccess (.write (BitVec.ofNat 12 (0x040 + 16 * i.val + 4 * j.val)) 4 v) s = storeMat i j v s := by
  have h4 : (BitVec.ofNat 12 (0x040 + 16 * i.val + 4 * j.val)).toNat % 4 = 0 := regOffset_aligned (.mat i j)
  rw [hostAccess_write_aligned h4, writeAt_of_regAt (regAt_mat i j), writeReg, writeUnlessBusy_of_idle hb]

/-- A matrix element after a store: the word stored, or the one before (10_state.md R43). -/
theorem matWord_storeMat (i j : Fin 4) (v : Word) (s : State) {r c : Nat} (hc : c < 4) :
    (storeMat i j v s).matWord r c = if r = i ∧ c = j then v else s.matWord r c := by
  have hlt : 4 * i.val + j.val < 16 := by omega
  have hindex : 4 * i.val + j.val = 4 * r + c ↔ r = i ∧ c = j := by omega
  simp only [State.matWord, storeMat_mat, Vector.getElem?_setIfInBounds, hindex]
  split
  case isTrue => simp
  case isFalse => rfl

/-! ## Reads of the register at an offset -/

theorem rdata_read {off : Offset} {r : Reg} (h4 : off.toNat % 4 = 0) (hr : regAt off = some r) (s : State) :
    (hostAccess (.read off 4) s).rdata = readReg r s := by
  rw [hostAccess_read_aligned h4, readAt_of_regAt hr]

theorem rdata_read_regOffset (r : Reg) (s : State) : (hostAccess (.read (regOffset r) 4) s).rdata = readReg r s :=
  rdata_read (regOffset_aligned r) (regAt_regOffset r) s

/-! ## Lengths and dimension (10_state.md R36, R37, R40) -/

theorem hostAccess_write_inLen (v : Word) {s : State} (hb : s.busy = false) :
    hostAccess (.write 0x010 4 v) s = { s with inLen := v.setWidth 16 } :=
  writeUnlessBusy_of_idle (store := fun s => { s with inLen := v.setWidth 16 }) hb

theorem hostAccess_write_keyLen (v : Word) {s : State} (hb : s.busy = false) :
    hostAccess (.write 0x014 4 v) s = { s with keyLen := v.setWidth 16 } :=
  writeUnlessBusy_of_idle (store := fun s => { s with keyLen := v.setWidth 16 }) hb

theorem hostAccess_write_hillDim (v : Word) {s : State} (hb : s.busy = false) :
    hostAccess (.write 0x020 4 v) s = { s with rows := v.extractLsb' 0 4, cols := v.extractLsb' 8 4 } :=
  writeUnlessBusy_of_idle (store := fun s => { s with rows := v.extractLsb' 0 4, cols := v.extractLsb' 8 4 }) hb

theorem hillDimWord_toNat (s : State) : (hillDimWord s).toNat = s.rows.toNat + 256 * s.cols.toNat := by
  unfold hillDimWord
  simp only [toNat_append_eq_add, BitVec.toNat_ofNat]
  omega

/-- A length field reads back with the reserved bits 0. -/
theorem toNat_lengthField (v : Word) : ((v.setWidth 16).setWidth 32).toNat = v.toNat % 65536 := by
  rw [BitVec.toNat_setWidth_of_le (by decide), BitVec.toNat_setWidth]

theorem extractLsb'_rows (v : Word) : v.extractLsb' 0 4 = BitVec.ofNat 4 v.toNat := rfl

theorem extractLsb'_cols (v : Word) : v.extractLsb' 8 4 = BitVec.ofNat 4 (v.toNat / 256) :=
  congrArg (BitVec.ofNat 4) (Nat.shiftRight_eq_div_pow v.toNat 8)

end Machine

/-- Settles O3: the map read from registers to offsets and from aligned offsets to registers. -/
theorem registerMapIsOneToOne : Obligations.RegisterMapIsOneToOne := by
  unfold Obligations.RegisterMapIsOneToOne
  exact ⟨fun r => ⟨regAt_regOffset r, regOffset_aligned r⟩, fun _ _ => regOffset_of_regAt, fun _ => regAt_eq_none_iff⟩

/-- Settles O14: the word is stored at its offset, in either buffer. -/
theorem bufferWriteStoresFourBytes : Obligations.BufferWriteStoresFourBytes := by
  unfold Obligations.BufferWriteStoresFourBytes
  exact fun s w v hb =>
    ⟨fun hw => ⟨_, hostAccess_write_key hw v hb, read_writeWord_bytes s.mem _ v⟩,
      fun hw => ⟨_, hostAccess_write_textIn hw v hb, read_writeWord_bytes s.mem _ v⟩⟩

/-- Settles O16: the element at the offset, and no other. -/
theorem matrixWriteStoresOneElement : Obligations.MatrixWriteStoresOneElement := by
  unfold Obligations.MatrixWriteStoresOneElement
  intro s i j v hb hi hj
  have hmat := fun {r c} => matWord_storeMat ⟨i, hi⟩ ⟨j, hj⟩ v s (r := r) (c := c)
  refine ⟨_, hostAccess_write_mat ⟨i, hi⟩ ⟨j, hj⟩ v hb, (hmat hj).trans (if_pos ⟨rfl, rfl⟩),
    fun r c _ hc hne => (hmat hc).trans (if_neg hne), ?_⟩
  exact (rdata_read_regOffset (.mat ⟨i, hi⟩ ⟨j, hj⟩) _).trans ((hmat hj).trans (if_pos ⟨rfl, rfl⟩))

/-- Settles O6: a write to `STATUS`, each field by its bit. -/
theorem statusWriteOneClears : Obligations.StatusWriteOneClears := by
  unfold Obligations.StatusWriteOneClears
  intro s v
  rw [hostAccess_write_status, writeStatus_eq]

/-- Settles O15: the fields of the word, and the word that the fields read as. -/
theorem lengthAndDimensionWritesReadBack : Obligations.LengthAndDimensionWritesReadBack := by
  unfold Obligations.LengthAndDimensionWritesReadBack
  intro s v hb
  rw [hostAccess_write_inLen v hb, hostAccess_write_keyLen v hb, hostAccess_write_hillDim v hb, BitVec.ofNat_toNat,
    extractLsb'_rows, extractLsb'_cols]
  refine ⟨⟨rfl, toNat_lengthField v⟩, ⟨rfl, toNat_lengthField v⟩, rfl, ?_⟩
  exact (hillDimWord_toNat _).trans (by simp only [BitVec.toNat_ofNat])

/-- Settles O17: each register's word is its element, zero-extended. -/
theorem resultRegistersReadTheirElements : Obligations.ResultRegistersReadTheirElements := by
  unfold Obligations.ResultRegistersReadTheirElements
  intro s
  have hzext : ∀ {n : Nat} (x : BitVec n), n ≤ 32 → (x.setWidth 32).toNat = x.toNat := fun _ h =>
    BitVec.toNat_setWidth_of_le h
  have hread := fun r => rdata_read_regOffset r s
  refine ⟨(congrArg BitVec.toNat (hread .outLen)).trans (hzext _ (by decide)), hread .errpos,
    (congrArg BitVec.toNat (hread .hillDet)).trans (hzext _ (by decide)),
    (congrArg BitVec.toNat (hread .hillDinv)).trans (hzext _ (by decide)), fun i j hi hj => ?_, fun k hk => ?_⟩
  · exact (congrArg BitVec.toNat (hread (.inv ⟨i, hi⟩ ⟨j, hj⟩))).trans (hzext _ (by decide))
  · exact (congrArg BitVec.toNat (hread (.sq ⟨k, hk⟩))).trans (hzext _ (by decide))

end Sys2Proof
end

section
/-! SUPPORT. The statement of 30_encoding.md R98: a `copyout` reads `OUT_LEN`, copies word by word, and writes `IN_LEN`.
What the words copied so far leave is said once (`WordsCopied`), kept by one more word and so by any number of them. -/

namespace Sys2Proof

open Machine

namespace Machine

/-- `n` transactions, then the rest. -/
theorem hostProgramTurns_add {prog : List HostOp} {n : Nat} {pos pos' : HostPos} {s t : State}
    (h : hostProgramTurns prog n pos s = (some pos', t)) (m : Nat) :
    hostProgramTurns prog (n + m) pos s = hostProgramTurns prog m pos' t := by
  induction n generalizing pos s with
  | zero =>
    obtain ⟨rfl, rfl⟩ : pos = pos' ∧ s = t := by simpa [hostProgramTurns] using h
    rw [Nat.zero_add]
  | succ n ih =>
    rw [Nat.add_right_comm]
    simp only [hostProgramTurns] at h ⊢
    split
    case h_1 hturn =>
      rw [hturn] at h
      exact ih h
    case h_2 hturn =>
      rw [hturn] at h
      simp at h

/-- One transaction of a `copyout` that is not its last. -/
theorem hostProgramTurns_copyout_one {copy copy' : CopyOut} {s t : State} (ht : hostAccess (copyOutAccess copy) s = t)
    (hnext : copyOutNext copy t.rdata = some copy') :
    hostProgramTurns opCopyOut 1 { line := 0, copy := copy } s = (some { line := 0, copy := copy' }, t) := by
  simp only [hostProgramTurns, hostProgramTurn_copyout, ht, hnext]

/-- What a `copyout` leaves that has copied `w` words: `t` is `s` but for the word last read and the words copied. -/
structure WordsCopied (w : Nat) (s t : State) : Prop where
  rest : t = { s with mem := t.mem, rdata := t.rdata }
  copied : ∀ i, i < 4 * w → t.textByte i = s.outByte i
  other : ∀ a, ¬(0x400 ≤ a ∧ a < 0x400 + 4 * w) → Memory.read t.mem a = Memory.read s.mem a

theorem WordsCopied.zero (s : State) (v : Word) : WordsCopied 0 s { s with rdata := v } :=
  ⟨rfl, nofun, fun _ _ => rfl⟩

/-- The state after the read and the write of word `w`. -/
def copyWord (w : Nat) (s : State) : State :=
  { s with
    mem := Memory.writeWord s.mem (textInBase + 4 * w) (Memory.readWord s.mem (textOutBase + 4 * w))
    rdata := Memory.readWord s.mem (textOutBase + 4 * w) }

/-- A byte of memory after the word of `TEXT_OUT` is copied: that of `TEXT_OUT`, or the one before. -/
theorem read_copyWord (w a : Nat) (s : State) :
    Memory.read (copyWord w s).mem a =
      if textInBase + 4 * w ≤ a ∧ a < textInBase + 4 * w + 4 then
        Memory.read s.mem (textOutBase + (a - textInBase)) else Memory.read s.mem a := by
  rw [copyWord, Memory.read_writeWord]
  refine ite_congr rfl (fun h => ?_) fun _ => rfl
  obtain ⟨b, rfl⟩ := Nat.exists_eq_add_of_le h.1
  have hb : b < 4 := by omega
  rw [Nat.add_sub_cancel_left, getD_wordBytes _ hb, Memory.extractLsb'_readWord _ _ hb, Nat.add_assoc textInBase,
    Nat.add_sub_cancel_left, Nat.add_assoc]

/-- Words of `TEXT_IN` lie below `TEXT_OUT`, so a copy does not disturb the words still to be copied. -/
theorem WordsCopied.succ {w : Nat} {s t : State} (h : WordsCopied w s t) (hw : w < 256) :
    WordsCopied (w + 1) s (copyWord w t) := by
  refine ⟨?_, fun i hi => ?_, fun a ha => ?_⟩
  · have hrest : copyWord w t = { t with mem := (copyWord w t).mem, rdata := (copyWord w t).rdata } := rfl
    rw [hrest, h.rest]
  · have hsource : Memory.read t.mem (textOutBase + i) = s.outByte i := h.other _ (by simp only [textOutBase]; omega)
    by_cases hnew : 4 * w ≤ i
    · have hread := read_copyWord w (textInBase + i) t
      rw [if_pos (by omega), Nat.add_sub_cancel_left, hsource] at hread
      exact hread
    · have hread := read_copyWord w (textInBase + i) t
      rw [if_neg (by omega)] at hread
      exact hread.trans (h.copied i (by omega))
  · rw [read_copyWord, if_neg (by simp only [textInBase]; omega)]
    exact h.other a (by omega)

theorem copyOutFrom_of_lt {outLen : Word} {w : Nat} (h : w < wordsFor outLen.toNat) :
    copyOutFrom outLen w = .readWord outLen w := if_pos h

theorem copyOutFrom_of_le {outLen : Word} {w : Nat} (h : wordsFor outLen.toNat ≤ w) :
    copyOutFrom outLen w = .writeLen outLen := if_neg (by omega)

/-- The two transactions of word `w`. -/
theorem hostProgramTurns_copyWord {outLen : Word} {w : Nat} {s : State} (hb : s.busy = false) (hw : w < 256)
    (hlt : w < wordsFor outLen.toNat) :
    hostProgramTurns opCopyOut 2 { line := 0, copy := copyOutFrom outLen w } s =
      (some { line := 0, copy := copyOutFrom outLen (w + 1) }, copyWord w s) := by
  have hread : hostProgramTurns opCopyOut 1 { line := 0, copy := .readWord outLen w } s = _ :=
    hostProgramTurns_copyout_one (hostAccess_read_textOut (by omega) s) rfl
  rw [copyOutFrom_of_lt hlt, hostProgramTurns_add hread 1]
  exact hostProgramTurns_copyout_one (hostAccess_write_textIn hw _ hb) rfl

/-- The transactions of the first `w` words, after the read of `OUT_LEN`. -/
theorem exists_wordsCopied {outLen : Word} {s t : State} (hb : s.busy = false) (ht : WordsCopied 0 s t)
    (hfits : wordsFor outLen.toNat ≤ 256) (w : Nat) (hw : w ≤ wordsFor outLen.toNat) :
    ∃ u, hostProgramTurns opCopyOut (2 * w) { line := 0, copy := copyOutFrom outLen 0 } t =
        (some { line := 0, copy := copyOutFrom outLen w }, u) ∧ WordsCopied w s u := by
  induction w with
  | zero => exact ⟨t, rfl, ht⟩
  | succ w ih =>
    obtain ⟨u, hu, hcopied⟩ := ih (by omega)
    have hub : u.busy = false := by rw [hcopied.rest]; exact hb
    refine ⟨copyWord w u, ?_, hcopied.succ (by omega)⟩
    rw [Nat.mul_succ, hostProgramTurns_add hu]
    exact hostProgramTurns_copyWord hub (by omega) (by omega)

/-- The last transaction: `IN_LEN` takes the value read from `OUT_LEN`. -/
theorem hostProgramTurns_writeLen {outLen : Word} {s : State} (hb : s.busy = false) :
    hostProgramTurns opCopyOut 1 { line := 0, copy := .writeLen outLen } s =
      (some { line := 1 }, { s with inLen := outLen.setWidth 16 }) := by
  have hwrite : hostAccess (copyOutAccess (.writeLen outLen)) s = { s with inLen := outLen.setWidth 16 } :=
    hostAccess_write_inLen outLen hb
  simp only [hostProgramTurns, hostProgramTurn_copyout, hwrite, copyOutNext]

end Machine

/-- Settles O60: the read of `OUT_LEN`, the words, and the write of `IN_LEN`. -/
theorem copyOutMovesTheOutputToTheText : Obligations.CopyOutMovesTheOutputToTheText := by
  unfold Obligations.CopyOutMovesTheOutputToTheText
  intro s hb hlen words
  obtain ⟨L, hL⟩ : ∃ L : Word, L = s.outLen.setWidth 32 := ⟨_, rfl⟩
  have hwords : wordsFor L.toNat = words := by
    rw [hL, BitVec.toNat_setWidth_of_le (by decide), wordsFor]
  have hle : words ≤ 256 := by omega
  have hfirst : hostProgramTurns opCopyOut 1 { line := 0 } s =
      (some { line := 0, copy := copyOutFrom L 0 }, { s with rdata := L }) := by
    rw [hL]
    exact hostProgramTurns_copyout_one rfl rfl
  obtain ⟨u, hu, hcopied⟩ := exists_wordsCopied hb (WordsCopied.zero s L) (by omega) words hwords.ge
  have hub : u.busy = false := by rw [hcopied.rest]; exact hb
  refine ⟨{ u with inLen := s.outLen }, ?_, ?_, hcopied.copied, hcopied.other⟩
  · have hinLen : L.setWidth 16 = s.outLen := by
      rw [hL, BitVec.setWidth_setWidth_of_le _ (by decide), BitVec.setWidth_eq]
    rw [show 2 + 2 * words = 1 + (2 * words + 1) by omega, hostProgramTurns_add hfirst, hostProgramTurns_add hu,
      copyOutFrom_of_le hwords.le, hostProgramTurns_writeLen hub, hinLen]
  · rw [hcopied.rest]

end Sys2Proof
end
